-- ==== Sys2Proof/Word.lean ====
section
/-! DEFINITION. The widths the block works with (spec 00_scope.md R7, R8). -/

namespace Sys2Proof

/-- A byte on the wire, a CRC, a BUF byte. -/
abbrev Byte := BitVec 8

/-- A 16-bit word of the wire protocol, or a 16-bit operand register. -/
abbrev Half := BitVec 16

/-- A host-port word: every register is accessed as 32 bits (10_state.md R32). -/
abbrev Word := BitVec 32

end Sys2Proof
end

