-- ==== Sys2Proof/Machine/Bytes.lean ====
section
/-! DEFINITION. Byte order on the wire: most significant byte first (20_memory.md R88, R89; 00_scope.md R9). -/

namespace Sys2Proof.Machine

/-- hi(w) = w[15:8] (R9). -/
def hi (w : Half) : Byte := w.extractLsb' 8 8

/-- lo(w) = w[7:0] (R9). -/
def lo (w : Half) : Byte := w.extractLsb' 0 8

/-- word(hi, lo) = int(hi)*256 + int(lo) (R9, R88). -/
def word (h l : Byte) : Half := h ++ l

end Sys2Proof.Machine
end

