-- ==== Sys2Proof/Machine/CrcUnit.lean ====
section
/-! DEFINITION. The CRC-8 unit (spec 40_checksum.md R150 to R154): pure and stateless. -/

namespace Sys2Proof.Machine

/-- The polynomial, x^8 + x^5 + x^4 + 1 (R151). -/
def crcPoly : Byte := 0x31

/-- The initial accumulator (R151). -/
def crcInit : Byte := 0xFF

/-- One of the eight iterations of R150. -/
def crcShift (acc : Byte) : Byte := if acc.getLsbD 7 then (acc <<< 1) ^^^ crcPoly else acc <<< 1

/-- n iterations (R150 repeats 8 times). -/
def crcShifts : Nat → Byte → Byte
  | 0, acc => acc
  | n + 1, acc => crcShifts n (crcShift acc)

/-- What one input byte does to the accumulator (R150). -/
def crcByte (acc b : Byte) : Byte := crcShifts 8 (acc ^^^ b)

/-- crc8(s) (R150). The spec defines it for a non-empty s; every use in the model has one. -/
def crc8 (s : List Byte) : Byte := s.foldl crcByte crcInit

/-- validWord(h, l, c) (R152, R120). -/
def validWord (h l c : Byte) : Bool := crc8 [h, l] == c

/-- Word i of a response or buffer: the group [hi, lo, crc] at bytes 3i, 3i+1, 3i+2 (20_memory.md R91). -/
def groupWord (s : List Byte) (i : Nat) : Half := word (s.getD (3 * i) 0) (s.getD (3 * i + 1) 0)

/-- Whether the checksum of word i matches (R152). -/
def groupValid (s : List Byte) (i : Nat) : Bool :=
  validWord (s.getD (3 * i) 0) (s.getD (3 * i + 1) 0) (s.getD (3 * i + 2) 0)

/-- The lowest index below n whose word fails its checksum (R156, R203; 10_state.md R39). -/
def firstBadWord (s : List Byte) (n : Nat) : Option Nat := (List.range n).find? fun i => !groupValid s i

end Sys2Proof.Machine
end

