-- ==== Sys2Proof/Syntax.lean ====
section
/-! DEFINITION. The instructions: one constructor per row of spec/opcode_table.json. The block's instruction set has
two layers (00_scope.md R2): the fifteen host ops of the CMD format and the six wire commands. -/

namespace Sys2Proof

/-- Every CMD word has a LEN and a HOLD field (30_encoding.md R110), legal or not; which values are legal is
R112 and R113. A frame-B wire command carries its payload and the check byte sent after it (R119). -/
inductive Instr
  | crcCompute (len : BitVec 5) (hold : Bool)
  | crcCheck (len : BitVec 5) (hold : Bool)
  | busWrite (len : BitVec 5) (hold : Bool)
  | busRead (len : BitVec 5) (hold : Bool)
  | triggerSs (len : BitVec 5) (hold : Bool)
  | readMeas (len : BitVec 5) (hold : Bool)
  | measure (len : BitVec 5) (hold : Bool)
  | convT (len : BitVec 5) (hold : Bool)
  | convRhf (len : BitVec 5) (hold : Bool)
  | convRhp (len : BitVec 5) (hold : Bool)
  | ascSet (len : BitVec 5) (hold : Bool)
  | ascGet (len : BitVec 5) (hold : Bool)
  | ascDisableQuery (len : BitVec 5) (hold : Bool)
  | frc (len : BitVec 5) (hold : Bool)
  | readSerial (len : BitVec 5) (hold : Bool)
  | readSerialNumber
  | setAscEnabled (payload : Half) (check : Byte)
  | getAscEnabled
  | measureSingleShot
  | readMeasurement
  | performFrc (ppm : Half) (check : Byte)
  deriving DecidableEq, Repr, Inhabited

end Sys2Proof
end

