-- ==== Sys2Proof/Machine/Operands.lean ====
section
/-! DEFINITION. The operand forms of both layers: OP, LEN and HOLD of a host command with the values that are legal
(30_encoding.md R111 to R113), and the wire frames (R118, R119, R122 to R127). -/

namespace Sys2Proof.Machine

/-- CMD.OP of a host command (R111). A wire command has none; 0x00 is an unassigned OP. -/
def opOf : Instr → Byte
  | .crcCompute _ _ => 0x01
  | .crcCheck _ _ => 0x02
  | .busWrite _ _ => 0x10
  | .busRead _ _ => 0x11
  | .triggerSs _ _ => 0x20
  | .readMeas _ _ => 0x21
  | .measure _ _ => 0x22
  | .convT _ _ => 0x30
  | .convRhf _ _ => 0x31
  | .convRhp _ _ => 0x32
  | .ascSet _ _ => 0x40
  | .ascGet _ _ => 0x41
  | .ascDisableQuery _ _ => 0x42
  | .frc _ _ => 0x43
  | .readSerial _ _ => 0x50
  | .readSerialNumber => 0x00
  | .setAscEnabled _ _ => 0x00
  | .getAscEnabled => 0x00
  | .measureSingleShot => 0x00
  | .readMeasurement => 0x00
  | .performFrc _ _ => 0x00

/-- Whether the instruction is a host op of the CMD format, not a wire command (R2). -/
def isCommand : Instr → Bool
  | .crcCompute _ _ | .crcCheck _ _ | .busWrite _ _ | .busRead _ _ | .triggerSs _ _ | .readMeas _ _ | .measure _ _
  | .convT _ _ | .convRhf _ _ | .convRhp _ _ | .ascSet _ _ | .ascGet _ _ | .ascDisableQuery _ _ | .frc _ _
  | .readSerial _ _ => true
  | .readSerialNumber | .setAscEnabled _ _ | .getAscEnabled | .measureSingleShot | .readMeasurement
  | .performFrc _ _ => false

/-- CMD.LEN (R110); a wire command has none. -/
def lenOf : Instr → BitVec 5
  | .crcCompute n _ | .crcCheck n _ | .busWrite n _ | .busRead n _ | .triggerSs n _ | .readMeas n _ | .measure n _
  | .convT n _ | .convRhf n _ | .convRhp n _ | .ascSet n _ | .ascGet n _ | .ascDisableQuery n _ | .frc n _
  | .readSerial n _ => n
  | .readSerialNumber | .setAscEnabled _ _ | .getAscEnabled | .measureSingleShot | .readMeasurement
  | .performFrc _ _ => 0

/-- CMD.HOLD (R110); a wire command has none. -/
def holdOf : Instr → Bool
  | .crcCompute _ h | .crcCheck _ h | .busWrite _ h | .busRead _ h | .triggerSs _ h | .readMeas _ h | .measure _ h
  | .convT _ h | .convRhf _ h | .convRhp _ h | .ascSet _ h | .ascGet _ h | .ascDisableQuery _ h | .frc _ h
  | .readSerial _ h => h
  | .readSerialNumber | .setAscEnabled _ _ | .getAscEnabled | .measureSingleShot | .readMeasurement
  | .performFrc _ _ => false

/-- len_legal(op, len) (R112): a byte count 1..16, a word count 1..5, or 0 for an op that takes none. -/
def lenLegal : Instr → Bool
  | .crcCompute n _ | .busWrite n _ | .busRead n _ => decide (1 ≤ n.toNat ∧ n.toNat ≤ 16)
  | .crcCheck n _ => decide (1 ≤ n.toNat ∧ n.toNat ≤ 5)
  | .triggerSs n _ | .readMeas n _ | .measure n _ | .convT n _ | .convRhf n _ | .convRhp n _ | .ascSet n _
  | .ascGet n _ | .ascDisableQuery n _ | .frc n _ | .readSerial n _ => n == 0
  | .readSerialNumber | .setAscEnabled _ _ | .getAscEnabled | .measureSingleShot | .readMeasurement
  | .performFrc _ _ => false

/-- HOLD = 1 is legal for BUS_WRITE only (R113). -/
def holdLegal (i : Instr) : Bool := !holdOf i || opOf i == 0x10

/-- The operand test of acceptance (R115): neither LEN nor HOLD is illegal. -/
def operandsLegal (i : Instr) : Bool := lenLegal i && holdLegal i

/-- The ops whose acceptance latches BUF (10_state.md R68). -/
def latchesBuf (i : Instr) : Bool := opOf i == 0x01 || opOf i == 0x02 || opOf i == 0x10

/-- Frame format A: the opcode alone (R118). -/
def frameA (c : Half) : List Byte := [hi c, lo c]

/-- Frame format B: opcode, payload and the checksum over the payload only (R119, 20_memory.md R90). -/
def frameB (c p : Half) : List Byte := [hi c, lo c, hi p, lo p, crc8 [hi p, lo p]]

/-- The 16-bit opcode of a wire command (R122 to R127); a host op has none. -/
def wireOpcode : Instr → Half
  | .readSerialNumber => 0x3682
  | .setAscEnabled _ _ => 0x2416
  | .getAscEnabled => 0x2313
  | .measureSingleShot => 0x219d
  | .readMeasurement => 0xec05
  | .performFrc _ _ => 0x362f
  | .crcCompute _ _ | .crcCheck _ _ | .busWrite _ _ | .busRead _ _ | .triggerSs _ _ | .readMeas _ _ | .measure _ _
  | .convT _ _ | .convRhf _ _ | .convRhp _ _ | .ascSet _ _ | .ascGet _ _ | .ascDisableQuery _ _ | .frc _ _
  | .readSerial _ _ => 0

/-- Whether a wire command is sent with hold, without a STOP (R122, R124, R126), or with a STOP (R123, R125, R127). -/
def wireHold : Instr → Bool
  | .readSerialNumber | .getAscEnabled | .readMeasurement => true
  | .setAscEnabled _ _ | .measureSingleShot | .performFrc _ _ => false
  | .crcCompute _ _ | .crcCheck _ _ | .busWrite _ _ | .busRead _ _ | .triggerSs _ _ | .readMeas _ _ | .measure _ _
  | .convT _ _ | .convRhf _ _ | .convRhp _ _ | .ascSet _ _ | .ascGet _ _ | .ascDisableQuery _ _ | .frc _ _
  | .readSerial _ _ => false

end Sys2Proof.Machine
end

