-- ==== Sys2Proof/WellFormed.lean ====
section
/-! DEFINITION. Which instructions are well formed: the 80 legal CMD words (30_encoding.md R116) and the wire frames
whose check byte is the CRC of their payload (R119, R133). -/

namespace Sys2Proof

/-- A host op is well formed when its LEN and HOLD are legal (R112, R113, R116); a frame-B command when its check
byte is right (R119); a frame-A command always. -/
def Instr.wellFormed (i : Instr) : Bool :=
  match i with
  | .crcCompute _ _ | .crcCheck _ _ | .busWrite _ _ | .busRead _ _ | .triggerSs _ _ | .readMeas _ _ | .measure _ _
  | .convT _ _ | .convRhf _ _ | .convRhp _ _ | .ascSet _ _ | .ascGet _ _ | .ascDisableQuery _ _ | .frc _ _
  | .readSerial _ _ => Machine.operandsLegal i
  | .setAscEnabled p c | .performFrc p c => Machine.crc8 [Machine.hi p, Machine.lo p] == c
  | .readSerialNumber | .getAscEnabled | .measureSingleShot | .readMeasurement => true

end Sys2Proof
end

