-- ==== Sys2Proof/Decode.lean ====
section
/-! DEFINITION. Decoding and encoding of both layers: the 32-bit CMD word (30_encoding.md R110 to R117) and the wire
frame (R118, R119, R122 to R128). Decoding is total and rejects by name. -/

namespace Sys2Proof

/-- The code of an instruction, in the layer it belongs to (R2). -/
inductive Code
  | cmd (v : Word)
  | frame (s : List Byte)
  deriving DecidableEq, Repr, Inhabited

/-- Why a code is no instruction. The first two are the ILLEGAL_COMMAND completion of R115; the others name write
transactions that are none of the six wire commands (R128). -/
inductive DecodeError
  | unassignedOp
  | reservedBits
  | shortFrame
  | unknownOpcode
  | wrongLength
  deriving DecidableEq, Repr, Inhabited

/-- cmdword(op, len, hold) = (hold << 16) | (len << 8) | op (R110). -/
def cmdword (op : Byte) (len : BitVec 5) (hold : Bool) : Word :=
  0#15 ++ BitVec.ofBool hold ++ 0#3 ++ len ++ op

/-- The fields of a CMD word (R110). -/
def cmdOp (v : Word) : Byte := v.extractLsb' 0 8

def cmdLen (v : Word) : BitVec 5 := v.extractLsb' 8 5

def cmdHold (v : Word) : Bool := v.getLsbD 16

/-- Bits 15:13 and 31:17 are zero (R114). -/
def cmdReservedZero (v : Word) : Bool := v.extractLsb' 13 3 == 0#3 && v.extractLsb' 17 15 == 0#15

/-- The op an OP value is assigned to (R111). -/
def opAssigned (op : Byte) (len : BitVec 5) (hold : Bool) : Option Instr :=
  match op.toNat with
  | 0x01 => some (.crcCompute len hold)
  | 0x02 => some (.crcCheck len hold)
  | 0x10 => some (.busWrite len hold)
  | 0x11 => some (.busRead len hold)
  | 0x20 => some (.triggerSs len hold)
  | 0x21 => some (.readMeas len hold)
  | 0x22 => some (.measure len hold)
  | 0x30 => some (.convT len hold)
  | 0x31 => some (.convRhf len hold)
  | 0x32 => some (.convRhp len hold)
  | 0x40 => some (.ascSet len hold)
  | 0x41 => some (.ascGet len hold)
  | 0x42 => some (.ascDisableQuery len hold)
  | 0x43 => some (.frc len hold)
  | 0x50 => some (.readSerial len hold)
  | _ => none

/-- A CMD word, read as R110 and R115 say; an illegal LEN or HOLD still decodes, and its acceptance completes with
ILLEGAL_OPERAND. -/
def decodeCmd (v : Word) : Except DecodeError Instr :=
  match opAssigned (cmdOp v) (cmdLen v) (cmdHold v) with
  | none => .error .unassignedOp
  | some i => if cmdReservedZero v then .ok i else .error .reservedBits

/-- The wire command that the bytes begin with, and the bytes after its frame: the length is fixed by the opcode
(R128). The check byte is read as sent; R133 says which value the block sends. -/
def takeFrame : List Byte → Except DecodeError (Instr × List Byte)
  | h :: l :: rest =>
    match (Machine.word h l).toNat with
    | 0x3682 => .ok (.readSerialNumber, rest)
    | 0x2313 => .ok (.getAscEnabled, rest)
    | 0x219d => .ok (.measureSingleShot, rest)
    | 0xec05 => .ok (.readMeasurement, rest)
    | 0x2416 =>
      match rest with
      | ph :: pl :: c :: rest' => .ok (.setAscEnabled (Machine.word ph pl) c, rest')
      | [] | [_] | [_, _] => .error .shortFrame
    | 0x362f =>
      match rest with
      | ph :: pl :: c :: rest' => .ok (.performFrc (Machine.word ph pl) c, rest')
      | [] | [_] | [_, _] => .error .shortFrame
    | _ => .error .unknownOpcode
  | [] | [_] => .error .shortFrame

/-- A whole write transaction read as a wire command: nothing follows its frame (R128). -/
def decodeFrame (s : List Byte) : Except DecodeError Instr :=
  match takeFrame s with
  | .ok (i, []) => .ok i
  | .ok (_, _ :: _) => .error .wrongLength
  | .error e => .error e

def decode : Code → Except DecodeError Instr
  | .cmd v => decodeCmd v
  | .frame s => decodeFrame s

/-- The frame of a wire command, with the check byte it carries (R118, R119); a host op has no frame. -/
def encodeFrame : Instr → List Byte
  | .readSerialNumber => Machine.frameA 0x3682
  | .setAscEnabled p c => [0x24, 0x16, Machine.hi p, Machine.lo p, c]
  | .getAscEnabled => Machine.frameA 0x2313
  | .measureSingleShot => Machine.frameA 0x219d
  | .readMeasurement => Machine.frameA 0xec05
  | .performFrc p c => [0x36, 0x2F, Machine.hi p, Machine.lo p, c]
  | .crcCompute _ _ | .crcCheck _ _ | .busWrite _ _ | .busRead _ _ | .triggerSs _ _ | .readMeas _ _ | .measure _ _
  | .convT _ _ | .convRhf _ _ | .convRhp _ _ | .ascSet _ _ | .ascGet _ _ | .ascDisableQuery _ _ | .frc _ _
  | .readSerial _ _ => []

/-- The code of an instruction: its CMD word (R110) or its frame (R118, R119). -/
def encode (i : Instr) : Code :=
  if Machine.isCommand i then .cmd (cmdword (Machine.opOf i) (Machine.lenOf i) (Machine.holdOf i))
  else .frame (encodeFrame i)

/-- The bytes of the frame that begins with opcode c and whose other bytes are zero, as many as R128 gives c. -/
def zeroFrame (c : Half) : List Byte :=
  match takeFrame [Machine.hi c, Machine.lo c, 0, 0, 0] with
  | .ok (_, rest) => [Machine.hi c, Machine.lo c, 0, 0, 0].take (5 - rest.length)
  | .error _ => [Machine.hi c, Machine.lo c]

/-- What the decoder reads from a row's word as spec/opcode_table.json numbers it: a 32-bit row is a CMD word, a
16-bit row a wire opcode, sent most significant byte first (R89) and followed by zero bytes. -/
def decodeTableWord (nbits w : Nat) : Option Instr :=
  if nbits = 32 then (decodeCmd (BitVec.ofNat 32 w)).toOption
  else if nbits = 16 then (decodeFrame (zeroFrame (BitVec.ofNat 16 w))).toOption
  else none

end Sys2Proof
end

