-- ==== Sys2Proof/Machine/ConverterUnit.lean ====
section
/-! DEFINITION. The fixed-point unit converter (spec 42_measurement.md R206 to R208) and the offset of a forced
recalibration (43_calibration.md R235): exact integer functions, narrowed once at the end. -/

namespace Sys2Proof.Machine

/-- convT(raw), °C as signed Q15.16 (R206). -/
def convT (raw : Half) : Word := BitVec.ofInt 32 (175 * (raw.toNat : Int) - 2949120)

/-- convRHF(raw), the RH fraction as unsigned Q0.16 (R207). -/
def convRHF (raw : Half) : Half := raw

/-- convRHP(raw), RH percent as unsigned Q16.16 (R208). -/
def convRHP (raw : Half) : Word := BitVec.ofNat 32 (100 * raw.toNat)

/-- FRC_BIAS (00_scope.md R6). -/
def frcBias : Half := 0x8000

/-- The sentinel an FRC answer reports failure with (R233 step 5). -/
def frcSentinel : Half := 0xFFFF

/-- offset16(w) = (int(w) - 0x8000) mod 2^16, a signed 16-bit value (R235). -/
def offset16 (w : Half) : Half := w - frcBias

end Sys2Proof.Machine
end

