-- ==== Sys2Proof/Config.lean ====
section
/-! DEFINITION. What the platform fixes and the spec leaves OPEN (00_scope.md R6), and the free draws of the
environment (41_transport.md R180). Every constant here is opaque: no proof can see a value of it. -/

namespace Sys2Proof

/-- The kinds of transport failure (41_transport.md R170, R175). -/
inductive FailKind
  | nack
  | bus
  | timeout
  deriving DecidableEq, Repr, Inhabited

/-- One draw of the environment: all that the I2C bus and the device do to ONE transaction (R171 to R176, R180).
A draw is under no law; assumption log 2, 14 and 15 say how each field is read. -/
structure Draw where
  /-- the bus goes idle in time for a START; read only when the bus is Free (R174) -/
  busIdle : Bool := true
  /-- the failure of the transaction, if it fails (R175) -/
  fail : Option FailKind := none
  /-- how many bytes were complete on the wire before the failing one -/
  after : Nat := 0
  /-- a slave holds SCL low at the failure, so that no STOP can be driven (R176) -/
  sclLow : Bool := false
  /-- what the slave puts on SDA when it is read from; past its end SDA stays high (R172) -/
  bytes : List Byte := []
  deriving DecidableEq, Repr, Inhabited

/-- FREE VALUE: the n-th draw of the environment that `answers` has not already made (R180, D34). -/
opaque Config.draw : Nat → Draw

/-- CYCLES_PER_MS: block clock cycles in a millisecond (R6, D12). OPEN. -/
opaque Config.cyclesPerMs : Nat

/-- SIB_BASE / 256: the base address is a multiple of 256 (R6, D3). OPEN. -/
opaque Config.sibPage : Nat

/-- I2C_SCL_HZ (R179). OPEN; no rule of the spec depends on it, and none of the model reads it. -/
opaque Config.i2cSclHz : Nat

/-- I2C_TIMEOUT_CYCLES (R174, R175). OPEN; no rule depends on its value: a timeout is a draw. -/
opaque Config.i2cTimeoutCycles : Nat

/-- SIB_BASE (R80): any multiple of 256. -/
def Config.sibBase : Nat := 256 * Config.sibPage

end Sys2Proof
end

