-- ==== Sys2Proof/Machine/State.lean ====
section
/-! DEFINITION. The block's state (spec 10_state.md), as plain data, with the environment's pending inputs and the
record of what the block has shown it. BUSY, HELD and irq are not stored: they are read off `phase`, `bus`, and DONE with
IRQ_EN (R34, R65, R69, R70). -/

namespace Sys2Proof.Machine

/-- The result codes of STATUS.ERR (60_exceptions.md R300); codes 7 to 15 do not exist. -/
inductive ErrCode
  | success
  | checksumMismatch
  | deviceReportedFailure
  | transportFailure
  | calibrationPreconditionFailed
  | illegalCommand
  | illegalOperand
  deriving DecidableEq, Repr, Inhabited

/-- CTRL (R33). -/
structure Ctrl where
  irqEn : Bool
  ascCheck : Bool
  deriving DecidableEq, Repr, Inhabited

/-- The stored fields of STATUS (R35, R36, R38 to R42). -/
structure Status where
  done : Bool
  overrun : Bool
  err : ErrCode
  failWord : BitVec 3
  tfail : BitVec 2
  warmupDone : BitVec 8
  lastOp : Byte
  deriving DecidableEq, Repr, Inhabited

/-- The operand and configuration registers (R44 to R49). -/
structure OperandRegs where
  devAddr : BitVec 7
  wdata : Half
  targetPpm : Half
  tCmdMs : Half
  tSsMs : Half
  tFrcMs : Half
  deriving DecidableEq, Repr, Inhabited

/-- VALID (R50). -/
structure Valid where
  crc : Bool
  conv : Bool
  meas : Bool
  asc : Bool
  frc : Bool
  ser : Bool
  deriving DecidableEq, Repr, Inhabited

/-- The result registers (R51 to R62), each with its defined bits, and VALID. -/
structure ResultRegs where
  valid : Valid
  crcResult : Byte
  co2 : Half
  tRaw : Half
  rhRaw : Half
  tQ16 : Word
  rhFracQ16 : Half
  rhPctQ16 : Word
  convOut : Word
  serialHi : Half
  serialLo : Word
  ascState : Byte
  frcOffset : Word
  deriving DecidableEq, Repr, Inhabited

/-- Byte storage keyed by a natural number, in one canonical form (Memory.wf of Machine/Ops.lean). BUF is the block's
only one: key i is BUF[i] (R63), and an unlisted key reads 0x00, BUF's reset content (R71). -/
abbrev Memory := List Host.Cell

/-- The operands latched at acceptance, `lat` (R68). -/
structure Latch where
  op : Byte
  len : BitVec 5
  hold : Bool
  addr : BitVec 7
  wdata : Half
  ppm : Half
  tCmdMs : Half
  tSsMs : Half
  tFrcMs : Half
  ascCheck : Bool
  buf : Memory
  deriving DecidableEq, Repr, Inhabited

/-- Which delay register a Wait reads (R47 to R49). -/
inductive Delay
  | cmd
  | ss
  | frc
  deriving DecidableEq, Repr, Inhabited

/-- The lines of the ops' pseudocode, one constructor for each kind of line. -/
inductive Line
  /-- `try I2CWrite(lat.ADDR, s, hold)` (41_transport.md R171) -/
  | write (s : List Byte) (hold : Bool)
  /-- `rx <- try I2CRead(lat.ADDR, n)` (R172) -/
  | read (n : Nat)
  /-- `Wait(ms)`, not begun (R183) -/
  | wait (d : Delay)
  /-- `Wait(ms)`, running on wait_ctr (R183) -/
  | waiting (d : Delay)
  /-- CRC_COMPUTE's computation (R155) -/
  | crcCompute
  /-- CRC_CHECK's loop (R156) -/
  | crcCheck
  /-- BUS_READ's store of the bytes read (R182) -/
  | storeRx
  /-- the triplet's check and commitTriplet (R201, R203, R204) -/
  | triplet
  /-- CONV_T, CONV_RHF, CONV_RHP (R209 to R211) -/
  | convT
  | convRhf
  | convRhp
  /-- ASC_SET's `VALID.ASC_V <- 0` (R230) -/
  | ascClear
  /-- the check of a one-word response (R231, R233) -/
  | checkWord
  /-- `R[ASC_STATE] <- rx[1]` (R231, R232) -/
  | ascResult
  /-- `for k in 0 .. 35` of FRC (R233) -/
  | warmupLoop
  /-- the check of a warm-up triplet and `warmup_done <- k + 1` (R233) -/
  | warmupCheck
  /-- FRC's sentinel test and offset, steps 5 and 6 (R233) -/
  | frcResult
  /-- READ_SERIAL's check and assembly (R260) -/
  | serial
  deriving DecidableEq, Repr, Inhabited

/-- `phase`, with `seq` and `lat`, which have a value exactly while an op runs (R65, R67). `seq` is the lines still to
run; the empty list is the completion, `complete()` or the commit of a `raise` (60_exceptions.md R303, R304). -/
inductive Phase
  | idle
  | busy (op : Instr) (seq : List Line) (lat : Latch)
  deriving DecidableEq, Repr, Inhabited

/-- The bus state of the I2C master (R65, R69). A transaction is one step, so Owned is never seen between steps. -/
inductive BusState
  | free
  | owned
  | held
  deriving DecidableEq, Repr, Inhabited

/-- The bits of VALID, to name one (R50). -/
inductive ValidBit
  | crc
  | conv
  | meas
  | asc
  | frc
  | ser
  deriving DecidableEq, Repr, Inhabited

/-- A staged write of a result register, a VALID bit or a BUF byte (20_memory.md R93). -/
inductive StagedWrite
  | crcResult (v : Byte)
  | co2 (v : Half)
  | tRaw (v : Half)
  | rhRaw (v : Half)
  | tQ16 (v : Word)
  | rhFracQ16 (v : Half)
  | rhPctQ16 (v : Word)
  | convOut (v : Word)
  | serialHi (v : Half)
  | serialLo (v : Word)
  | ascState (v : Byte)
  | frcOffset (v : Word)
  | valid (b : ValidBit) (v : Bool)
  | buf (i : Nat) (v : Byte)
  deriving DecidableEq, Repr, Inhabited

/-- `stage` (R65): what the completion will commit. -/
structure Stage where
  writes : List StagedWrite
  err : ErrCode
  failWord : BitVec 3
  tfail : BitVec 2
  warmupDone : Nat
  deriving DecidableEq, Repr, Inhabited

/-- The empty stage (R71): nothing staged, ERR = SUCCESS. -/
def Stage.empty : Stage := ⟨[], .success, 0, 0, 0⟩

/-- What the I2C pins carry (41_transport.md R171 to R176): START, repeated START, a byte the master sends or receives
with the answer in its acknowledge slot, STOP, and both lines let go without a STOP. -/
inductive BusEvent
  | start
  | restart
  | sent (b : Byte) (ack : Bool)
  | received (b : Byte) (ack : Bool)
  | stop
  | release
  deriving DecidableEq, Repr, Inhabited

/-- A host-port access (20_memory.md R81). `off` is the address less SIB_BASE, so it may be negative. -/
inductive Access
  | read (off : Int) (size : Nat)
  | write (off : Int) (size : Nat) (v : Word)
  deriving DecidableEq, Repr, Inhabited

/-- What the port answers (R81). -/
inductive Response
  | data (v : Word)
  | ok
  | busError
  deriving DecidableEq, Repr, Inhabited

/-- The inputs of one block cycle: the pin rst_n (70_reset_and_hazards.md R340), the host's access, if any, and the
environment's timing. -/
structure Cycle where
  rstN : Bool := true
  access : Option Access := none
  /-- an access the port performs before `access` in this same cycle (R35, R36, 60_exceptions.md R311); where it has a
  meaning: log 30 -/
  before : Option Access := none
  /-- the line at `seq` does not end in this cycle; a running Wait counts all the same (R183, R354) -/
  stall : Bool := false
  /-- a read of this cycle is served after the sequencer's part of it, not before (20_memory.md R92; log 8) -/
  late : Bool := false
  /-- on a reset: how many bytes the transaction at `seq` had carried, if it had begun (R342) -/
  cut : Option Nat := none
  deriving DecidableEq, Repr, Inhabited

/-- The environment's pending inputs and draws, and the record of what the pins and the port have shown. The model's
own fields, not the block's. -/
structure Env where
  inputs : List Cycle
  answers : List Draw
  drawIx : Nat
  trace : List BusEvent
  responses : List Response
  deriving DecidableEq, Repr, Inhabited

structure State where
  ctrl : Ctrl
  status : Status
  oper : OperandRegs
  res : ResultRegs
  buf : Memory
  phase : Phase
  stage : Stage
  k : Nat
  rx : List Byte
  waitCtr : Nat
  bus : BusState
  env : Env
  deriving DecidableEq, Repr, Inhabited

/-- Why the machine stops. -/
inductive Fault
  /-- Raised by the meaning of a wire command executed in a state whose sequencer is not at a line that sends it. The
  spec has wire commands sent by running ops only (30_encoding.md R122 to R127), so no step reaches this. Safe. -/
  | wireCommandOutsideOp
  deriving DecidableEq, Repr, Inhabited

/-- Why an instruction has no meaning. -/
inductive Refusal
  /-- Raised by exec's arm of an instruction that has no meaning yet; no arm does. Safe. -/
  | notModelled (mnemonic : String)
  deriving DecidableEq, Repr, Inhabited

/-- The state right after reset (10_state.md R71), with nothing pending in the environment. -/
def State.reset : State where
  ctrl := ⟨false, false⟩
  status := ⟨false, false, .success, 0, 0, 0, 0⟩
  oper := ⟨0x62, 0x0000, 0x019F, 1, 5000, 400⟩
  res := ⟨⟨false, false, false, false, false, false⟩, 0, 0, 0, 0, 0, 0, 0, 0, 0, 0, 0, 0⟩
  buf := []
  phase := .idle
  stage := .empty
  k := 0
  rx := []
  waitCtr := 0
  bus := .free
  env := ⟨[], [], 0, [], []⟩

end Sys2Proof.Machine
end

