-- ==== Sys2Proof/Machine/Flags.lean ====
section
/-! DEFINITION. Every flag the spec computes: BUSY, HELD and irq (10_state.md R34, R69, R70), the layout of STATUS, CTRL
and VALID, the codes of ERR and TFAIL, and what a completion writes to STATUS and VALID (60_exceptions.md R303, R304). -/

namespace Sys2Proof.Machine

/-- Whether an op runs (R34, R65). -/
def Phase.isBusy : Phase → Bool
  | .idle => false
  | .busy _ _ _ => true

/-- STATUS.BUSY (R34). -/
def State.busy (s : State) : Bool := s.phase.isBusy

/-- STATUS.HELD: 1 exactly when bus = Held (R37, R69). -/
def State.held (s : State) : Bool := s.bus == .held

/-- The interrupt output, a level (R70, R312). -/
def State.irq (s : State) : Bool := s.status.done && s.ctrl.irqEn

/-- The number of a result code (R300). -/
def errCode : ErrCode → BitVec 4
  | .success => 0
  | .checksumMismatch => 1
  | .deviceReportedFailure => 2
  | .transportFailure => 3
  | .calibrationPreconditionFailed => 4
  | .illegalCommand => 5
  | .illegalOperand => 6

/-- STATUS.TFAIL of a failure kind (R40, R175). -/
def tfailCode : FailKind → BitVec 2
  | .nack => 1
  | .bus => 2
  | .timeout => 3

/-- CTRL as read (R33). -/
def ctrlWord (c : Ctrl) : Word := 0#30 ++ BitVec.ofBool c.ascCheck ++ BitVec.ofBool c.irqEn

/-- STATUS as read (10_state.md section 4). -/
def statusWord (s : State) : Word :=
  s.status.lastOp ++ s.status.warmupDone ++ 0#2 ++ s.status.tfail ++ 0#1 ++ s.status.failWord ++ errCode s.status.err
    ++ BitVec.ofBool s.held ++ BitVec.ofBool s.status.overrun ++ BitVec.ofBool s.status.done ++ BitVec.ofBool s.busy

/-- VALID as read (R50). -/
def validBits (v : Valid) : Word :=
  0#26 ++ BitVec.ofBool v.ser ++ BitVec.ofBool v.frc ++ BitVec.ofBool v.asc ++ BitVec.ofBool v.meas
    ++ BitVec.ofBool v.conv ++ BitVec.ofBool v.crc

/-- One VALID bit written. -/
def Valid.set (v : Valid) : ValidBit → Bool → Valid
  | .crc, x => { v with crc := x }
  | .conv, x => { v with conv := x }
  | .meas, x => { v with meas := x }
  | .asc, x => { v with asc := x }
  | .frc, x => { v with frc := x }
  | .ser, x => { v with ser := x }

/-- The VALID bits an op clears when it fails (R50, R303). -/
def clearOnFailure (op : Instr) (v : Valid) : Valid :=
  match op with
  | .readMeas _ _ | .measure _ _ => v.set .meas false
  | .ascSet _ _ | .ascGet _ _ | .ascDisableQuery _ _ => v.set .asc false
  | .frc _ _ => v.set .frc false
  | .readSerial _ _ => v.set .ser false
  | .crcCompute _ _ | .crcCheck _ _ | .busWrite _ _ | .busRead _ _ | .triggerSs _ _ | .convT _ _ | .convRhf _ _
  | .convRhp _ _ | .readSerialNumber | .setAscEnabled _ _ | .getAscEnabled | .measureSingleShot | .readMeasurement
  | .performFrc _ _ => v

/-- STATUS.FAIL_WORD of a completion (R39, R303). -/
def failWordFor (e : ErrCode) (w : BitVec 3) : BitVec 3 :=
  match e with
  | .checksumMismatch | .calibrationPreconditionFailed => w
  | .success | .deviceReportedFailure | .transportFailure | .illegalCommand | .illegalOperand => 0

/-- STATUS.TFAIL of a completion (R40, R303). -/
def tfailFor (e : ErrCode) (t : BitVec 2) : BitVec 2 :=
  match e with
  | .transportFailure => t
  | .success | .checksumMismatch | .deviceReportedFailure | .calibrationPreconditionFailed | .illegalCommand
  | .illegalOperand => 0

/-- STATUS.WARMUP_DONE of a completion: the warm-up count for FRC, else 0 (R41, R303, R304). -/
def warmupFor (op : Byte) (n : Nat) : BitVec 8 := if op == 0x43 then BitVec.ofNat 8 n else 0

/-- STATUS after the completion of a running op (R303, R304). -/
def commitStatus (lat : Latch) (g : Stage) (st : Status) : Status :=
  { st with
    done := true
    err := g.err
    failWord := failWordFor g.err g.failWord
    tfail := tfailFor g.err g.tfail
    warmupDone := warmupFor lat.op g.warmupDone
    lastOp := lat.op }

/-- STATUS after commit_illegal (30_encoding.md R115). -/
def illegalStatus (op : Byte) (e : ErrCode) (st : Status) : Status :=
  { st with done := true, err := e, failWord := 0, tfail := 0, warmupDone := 0, lastOp := op }

/-- STATUS after a host write of v: DONE and OVERRUN are write-one-to-clear (20_memory.md R83). -/
def statusWrite (v : Word) (st : Status) : Status :=
  { st with done := st.done && !v.getLsbD 1, overrun := st.overrun && !v.getLsbD 2 }

/-- CTRL after a host write of v (R83). -/
def ctrlWrite (v : Word) : Ctrl := ⟨v.getLsbD 0, v.getLsbD 1⟩

end Sys2Proof.Machine
end

