-- ==== Sys2Proof/Machine/Ops.lean ====
section
/-! DEFINITION. The named operations over memory, registers and the sequencer: BUF, the stage, the latch, acceptance,
and the completions, which are the block's exceptions (60_exceptions.md section 2): `raise`, `complete()` and
`commit_illegal`. -/

namespace Sys2Proof.Machine

/-- One byte read; an unlisted key reads 0x00 (10_state.md R71). -/
def Memory.read : Memory → Nat → Byte
  | [], _ => 0
  | (k, v) :: m, a => if k = a then v else Memory.read m a

/-- One byte written, keeping the canonical form: writing 0x00 removes the entry. -/
def Memory.write : Memory → Nat → Byte → Memory
  | [], a, b => if b = 0 then [] else [(a, b)]
  | (k, v) :: m, a, b =>
    if a < k then (if b = 0 then (k, v) :: m else (a, b) :: (k, v) :: m)
    else if a = k then (if b = 0 then m else (a, b) :: m)
    else (k, v) :: Memory.write m a b

/-- The canonical form, from key lo on: keys strictly rising and below 16 (R63), no entry 0x00. -/
def Memory.wfFrom : Nat → Memory → Bool
  | _, [] => true
  | lo, (k, v) :: m => decide (lo ≤ k) && decide (k < 16) && !(v == 0) && Memory.wfFrom (k + 1) m

/-- The canonical form of BUF. -/
def Memory.wf (m : Memory) : Bool := Memory.wfFrom 0 m

/-- BUF[0..n-1] as a byte sequence. -/
def bufBytes (m : Memory) (n : Nat) : List Byte := (List.range n).map m.read

/-- Go on at the given lines of the running op. -/
def State.goto (s : State) (op : Instr) (seq : List Line) (lat : Latch) : State := { s with phase := .busy op seq lat }

/-- Stage writes of results, VALID bits or BUF bytes (20_memory.md R93). -/
def State.stageWrites (s : State) (ws : List StagedWrite) : State :=
  { s with stage := { s.stage with writes := s.stage.writes ++ ws } }

/-- A dropped host write: nothing changes but OVERRUN (20_memory.md R86). -/
def State.dropWrite (s : State) : State := { s with status := { s.status with overrun := true } }

/-- One staged write of a result register or VALID bit. -/
def ResultRegs.apply (r : ResultRegs) : StagedWrite → ResultRegs
  | .crcResult v => { r with crcResult := v }
  | .co2 v => { r with co2 := v }
  | .tRaw v => { r with tRaw := v }
  | .rhRaw v => { r with rhRaw := v }
  | .tQ16 v => { r with tQ16 := v }
  | .rhFracQ16 v => { r with rhFracQ16 := v }
  | .rhPctQ16 v => { r with rhPctQ16 := v }
  | .convOut v => { r with convOut := v }
  | .serialHi v => { r with serialHi := v }
  | .serialLo v => { r with serialLo := v }
  | .ascState v => { r with ascState := v }
  | .frcOffset v => { r with frcOffset := v }
  | .valid b v => { r with valid := r.valid.set b v }
  | .buf _ _ => r

/-- One staged write of a BUF byte. -/
def bufApply (m : Memory) : StagedWrite → Memory
  | .buf i v => m.write i v
  | .crcResult _ | .co2 _ | .tRaw _ | .rhRaw _ | .tQ16 _ | .rhFracQ16 _ | .rhPctQ16 _ | .convOut _ | .serialHi _
  | .serialLo _ | .ascState _ | .frcOffset _ | .valid _ _ => m

/-- The result registers and VALID after a completion: the staged writes on success, the op's VALID bits cleared on a
failure (60_exceptions.md R303, R304). -/
def commitResults (op : Instr) (g : Stage) (r : ResultRegs) : ResultRegs :=
  if g.err = .success then g.writes.foldl ResultRegs.apply r else { r with valid := clearOnFailure op r.valid }

/-- BUF after a completion: the staged bytes on success only (R303, R304; 41_transport.md R182). -/
def commitBuf (g : Stage) (m : Memory) : Memory := if g.err = .success then g.writes.foldl bufApply m else m

/-- TAKING THE COMPLETION: the atomic commit that ends a running op, both of `complete()` (R304, stage.err = SUCCESS)
and of `raise` (R303). The hidden state returns to its reset values (log 12). -/
def commit (op : Instr) (lat : Latch) (s : State) : State :=
  { s with
    status := commitStatus lat s.stage s.status
    res := commitResults op s.stage s.res
    buf := commitBuf s.stage s.buf
    phase := .idle
    stage := .empty
    k := 0
    rx := []
    waitCtr := 0 }

/-- `raise E(info)` (R303): every staged write is discarded, the error is staged, and nothing is left to run but the
commit (log 11). -/
def raise (op : Instr) (lat : Latch) (e : ErrCode) (failWord : Nat) (tfail : BitVec 2) (s : State) : State :=
  { s with
    stage := { s.stage with writes := [], err := e, failWord := BitVec.ofNat 3 failWord, tfail := tfail }
    phase := .busy op [] lat }

/-- `raise TRANSPORT_FAILURE(k)` of a `try` (00_scope.md R11, 41_transport.md R176). -/
def raiseTransport (op : Instr) (lat : Latch) (f : FailKind) (s : State) : State :=
  raise op lat .transportFailure 0 (tfailCode f) s

/-- `commit_illegal(op, e)` (30_encoding.md R115, 60_exceptions.md R305): in the cycle of the CMD write. -/
def commitIllegal (op : Byte) (e : ErrCode) (s : State) : State := { s with status := illegalStatus op e s.status }

/-- The operands latched at the acceptance of i (10_state.md R68); BUF only for the ops that use it. -/
def latch (i : Instr) (s : State) : Latch where
  op := opOf i
  len := lenOf i
  hold := holdOf i
  addr := s.oper.devAddr
  wdata := s.oper.wdata
  ppm := s.oper.targetPpm
  tCmdMs := s.oper.tCmdMs
  tSsMs := s.oper.tSsMs
  tFrcMs := s.oper.tFrcMs
  ascCheck := s.ctrl.ascCheck
  buf := if latchesBuf i then s.buf else []

/-- The start of a legal command: DONE cleared, BUSY set, operands latched, seq at the op's first line (R115, R67). -/
def startOp (i : Instr) (lines : Latch → List Line) (s : State) : State :=
  { s with
    status := { s.status with done := false }
    phase := .busy i (lines (latch i s)) (latch i s)
    stage := .empty
    k := 0
    rx := []
    waitCtr := 0 }

/-- Acceptance of the command i written while BUSY = 0, once its OP and reserved bits are found good (R115). -/
def accept (i : Instr) (lines : Latch → List Line) (s : State) : State :=
  if operandsLegal i then startOp i lines s else commitIllegal (opOf i) .illegalOperand s

/-- The delay a Wait takes, in ms (R47 to R49). -/
def delayMs (lat : Latch) : Delay → Half
  | .cmd => lat.tCmdMs
  | .ss => lat.tSsMs
  | .frc => lat.tFrcMs

end Sys2Proof.Machine
end

