-- ==== Sys2Proof/Machine/I2c.lean ====
section
/-! DEFINITION. The I2C master (spec 41_transport.md R170 to R180): the primitives I2CWrite and I2CRead as functions of
one draw of the environment, with what the pins carry. A transaction is one step (log 3, 10). -/

namespace Sys2Proof.Machine

/-- The environment's next draw: the first of `answers`, or else the free draw of index drawIx (R180). -/
def Env.draw (e : Env) : Draw :=
  match e.answers with
  | d :: _ => d
  | [] => Config.draw e.drawIx

/-- The environment once its next draw is used. -/
def Env.useDraw (e : Env) : Env :=
  match e.answers with
  | _ :: ds => { e with answers := ds }
  | [] => { e with drawIx := e.drawIx + 1 }

def State.useDraw (s : State) : State := { s with env := s.env.useDraw }

/-- Append to what the pins have carried. -/
def State.emit (s : State) (evs : List BusEvent) : State := { s with env := { s.env with trace := s.env.trace ++ evs } }

def State.setBus (s : State) (b : BusState) : State := { s with bus := b }

/-- The address byte (20_memory.md R87). -/
def addrByte (a : BitVec 7) (rd : Bool) : Byte := a ++ BitVec.ofBool rd

/-- Whether the transaction fails, and how (R174, R175): the idle test comes first, and only on a free bus. -/
def drawFailure (b : BusState) (d : Draw) : Option FailKind :=
  if b = .free ∧ d.busIdle = false then some .timeout else d.fail

/-- What opens a transaction: START on a free bus that goes idle, nothing on one that does not, else a repeated START
(R174). -/
def openEvents (b : BusState) (d : Draw) : List BusEvent :=
  match b with
  | .free => if d.busIdle then [.start] else []
  | .owned | .held => [.restart]

/-- `begin_transaction()` (R174): bus <- Owned. -/
def beginTransaction (d : Draw) (s : State) : State := (s.emit (openEvents s.bus d)).setBus .owned

/-- What ends a failed transaction: a STOP after NACK or TIMEOUT if the master drives the bus, else both lines released
(R176, 92_eei_decisions.md D22). It drives no bus that never went idle for its START (R174; DEDUCED, log 29). -/
def cleanupEvents (b : BusState) (f : FailKind) (d : Draw) : List BusEvent :=
  match f with
  | .bus => [.release]
  | .nack | .timeout => if d.sclLow ∨ (b = .free ∧ d.busIdle = false) then [.release] else [.stop]

/-- The bytes of a write, in order, the device's ACK after each. -/
def ackedBytes (s : List Byte) : List BusEvent := s.map (.sent · true)

/-- What a failing write carries before its clean-up: a NACK falls on a byte the master sent (R171); nothing if the bus
never went idle (R174). -/
def failedWriteEvents (b : BusState) (s : List Byte) (f : FailKind) (d : Draw) : List BusEvent :=
  if b = .free ∧ d.busIdle = false then []
  else
    match f with
    | .nack =>
      let m := min d.after (s.length - 1)
      ackedBytes (s.take m) ++ (s.drop m |>.take 1).map (.sent · false)
    | .bus | .timeout => ackedBytes (s.take d.after)

/-- The n bytes of a read: what the slave sent, and 0xFF where it sent nothing (R172). -/
def readBytes (n : Nat) (d : Draw) : List Byte := (d.bytes ++ List.replicate n 0xFF).take n

/-- The received bytes, with the master's ACK after each but the last (R172). -/
def receivedBytes : List Byte → List BusEvent
  | [] => []
  | [b] => [.received b false]
  | b :: c :: s => .received b true :: receivedBytes (c :: s)

/-- A read cut short after m whole bytes, the address byte first. -/
def partialReadEvents (a : BitVec 7) (n m : Nat) (d : Draw) : List BusEvent :=
  match m with
  | 0 => []
  | m + 1 => .sent (addrByte a true) true :: (receivedBytes (readBytes n d)).take m

/-- What a failing read carries before its clean-up: the slave can NACK only the address byte (R172). -/
def failedReadEvents (b : BusState) (a : BitVec 7) (n : Nat) (f : FailKind) (d : Draw) : List BusEvent :=
  if b = .free ∧ d.busIdle = false then []
  else
    match f with
    | .nack => [.sent (addrByte a true) false]
    | .bus | .timeout => partialReadEvents a n d.after d

/-- The bus after a write that is Ok (R171). -/
def endOfWrite (hold : Bool) : BusState := if hold then .held else .free

/-- The STOP that ends a write, unless it holds the bus (R171, R173). -/
def stopUnless (hold : Bool) : List BusEvent := if hold then [] else [.stop]

/-- I2CWrite(a, bytes, hold) (R171): its failure, if any, and the state it leaves. -/
def i2cWrite (a : BitVec 7) (bytes : List Byte) (hold : Bool) (s : State) : Option FailKind × State :=
  let d := s.env.draw
  let s1 := beginTransaction d s.useDraw
  match drawFailure s.bus d with
  | none => (none, (s1.emit (ackedBytes (addrByte a false :: bytes) ++ stopUnless hold)).setBus (endOfWrite hold))
  | some f =>
    (some f, (s1.emit (failedWriteEvents s.bus (addrByte a false :: bytes) f d ++ cleanupEvents s.bus f d)).setBus .free)

/-- I2CRead(a, n) (R172): the bytes or the failure, and the state it leaves. -/
def i2cRead (a : BitVec 7) (n : Nat) (s : State) : Except FailKind (List Byte) × State :=
  let d := s.env.draw
  let s1 := beginTransaction d s.useDraw
  match drawFailure s.bus d with
  | none =>
    (.ok (readBytes n d),
      (s1.emit (.sent (addrByte a true) true :: receivedBytes (readBytes n d) ++ [.stop])).setBus .free)
  | some f => (.error f, (s1.emit (failedReadEvents s.bus a n f d ++ cleanupEvents s.bus f d)).setBus .free)

/-- The bytes of a write as the pins carry them, up to its STOP or its clean-up: all of them, or those up to the failure
(R171, R175). -/
def writeCarries (b : BusState) (s : List Byte) (d : Draw) : List BusEvent :=
  match drawFailure b d with
  | none => ackedBytes s
  | some f => failedWriteEvents b s f d

/-- The bytes of a read as the pins carry them, up to its STOP or its clean-up (R172, R175). -/
def readCarries (b : BusState) (a : BitVec 7) (n : Nat) (d : Draw) : List BusEvent :=
  match drawFailure b d with
  | none => .sent (addrByte a true) true :: receivedBytes (readBytes n d)
  | some f => failedReadEvents b a n f d

/-- What the pins carry of the transaction a reset cuts short after m bytes: its opening and its first m bytes, each with
the answer its draw gives (70_reset_and_hazards.md R342; log 17); none for a line that makes no transaction. -/
def cutEvents (b : BusState) (lat : Latch) (l : Line) (m : Nat) (d : Draw) : Option (List BusEvent) :=
  match l with
  | .write bytes _ => some (openEvents b d ++ (writeCarries b (addrByte lat.addr false :: bytes) d).take m)
  | .read n => some (openEvents b d ++ (readCarries b lat.addr n d).take m)
  | .wait _ | .waiting _ | .crcCompute | .crcCheck | .storeRx | .triplet | .convT | .convRhf | .convRhp | .ascClear
  | .checkWord | .ascResult | .warmupLoop | .warmupCheck | .frcResult | .serial => none

end Sys2Proof.Machine
end

