-- ==== Sys2Proof/Machine/Lines.lean ====
section
/-! DEFINITION. What each line of the ops' pseudocode does: the bus steps (00_scope.md R11), the Wait (41_transport.md
R183) and the local work of each op. A line gets the running op, its latch and the lines after it. -/

namespace Sys2Proof.Machine

/-- `try I2CWrite(lat.ADDR, bytes, hold)` (R11, R171). -/
def lineWrite (bytes : List Byte) (hold : Bool) (op : Instr) (lat : Latch) (rest : List Line) (s : State) : State :=
  let r := i2cWrite lat.addr bytes hold s
  match r.1 with
  | none => r.2.goto op rest lat
  | some f => raiseTransport op lat f r.2

/-- `rx <- try I2CRead(lat.ADDR, n)` (R11, R172); a failed read keeps no bytes (R176). -/
def lineRead (n : Nat) (op : Instr) (lat : Latch) (rest : List Line) (s : State) : State :=
  let r := i2cRead lat.addr n s
  match r.1 with
  | .ok bytes => { r.2 with rx := bytes }.goto op rest lat
  | .error f => raiseTransport op lat f { r.2 with rx := [] }

/-- `Wait(ms)` begins: at once over if ms = 0, else wait_ctr <- ms * CYCLES_PER_MS (R183). -/
def lineWait (d : Delay) (op : Instr) (lat : Latch) (rest : List Line) (s : State) : State :=
  if delayMs lat d = 0 then s.goto op rest lat
  else { s with waitCtr := (delayMs lat d).toNat * Config.cyclesPerMs }.goto op (.waiting d :: rest) lat

/-- One block cycle of a running Wait: the counter goes down, and at 0 the Wait returns (R183). -/
def lineWaiting (d : Delay) (op : Instr) (lat : Latch) (rest : List Line) (s : State) : State :=
  if s.waitCtr ≤ 1 then { s with waitCtr := 0 }.goto op rest lat
  else { s with waitCtr := s.waitCtr - 1 }.goto op (.waiting d :: rest) lat

/-- `R[CRC_RESULT] <- zext_32(crc8(BUF[0..LEN-1])); VALID.CRC_V <- 1` (40_checksum.md R155). -/
def lineCrcCompute (op : Instr) (lat : Latch) (rest : List Line) (s : State) : State :=
  (s.stageWrites [.crcResult (crc8 (bufBytes lat.buf lat.len.toNat)), .valid .crc true]).goto op rest lat

/-- The loop of CRC_CHECK: the first word that fails is raised (R156). -/
def lineCrcCheck (op : Instr) (lat : Latch) (rest : List Line) (s : State) : State :=
  match firstBadWord (bufBytes lat.buf (3 * lat.len.toNat)) lat.len.toNat with
  | none => s.goto op rest lat
  | some i => raise op lat .checksumMismatch i 0 s

/-- The BUF writes of BUS_READ, from index i on (41_transport.md R182). -/
def bufWritesFrom : Nat → List Byte → List StagedWrite
  | _, [] => []
  | i, b :: bs => .buf i b :: bufWritesFrom (i + 1) bs

/-- `for j in 0 .. LEN-1: R[BUF[j]] <- zext_32(s[j])` (R182). -/
def lineStoreRx (op : Instr) (lat : Latch) (rest : List Line) (s : State) : State :=
  (s.stageWrites (bufWritesFrom 0 s.rx)).goto op rest lat

/-- commitTriplet(Triplet(w0, w1, w2)) (42_measurement.md R204). -/
def commitTriplet (w0 w1 w2 : Half) : List StagedWrite :=
  [.co2 w0, .tRaw w1, .rhRaw w2, .tQ16 (convT w1), .rhFracQ16 (convRHF w2), .rhPctQ16 (convRHP w2), .valid .meas true]

/-- checkTriplet(rx), then commitTriplet of the words or `raise CHECKSUM_MISMATCH` (R201, R203). -/
def lineTriplet (op : Instr) (lat : Latch) (rest : List Line) (s : State) : State :=
  match firstBadWord s.rx 3 with
  | none => (s.stageWrites (commitTriplet (groupWord s.rx 0) (groupWord s.rx 1) (groupWord s.rx 2))).goto op rest lat
  | some i => raise op lat .checksumMismatch i 0 s

/-- `R[CONV_OUT] <- v; VALID.CONV_V <- 1` (R209 to R211). -/
def stageConv (v : Word) (op : Instr) (lat : Latch) (rest : List Line) (s : State) : State :=
  (s.stageWrites [.convOut v, .valid .conv true]).goto op rest lat

/-- CONV_T's line (R209). -/
def lineConvT (op : Instr) (lat : Latch) (rest : List Line) (s : State) : State :=
  stageConv (convT lat.wdata) op lat rest s

/-- CONV_RHF's line (R210). -/
def lineConvRhf (op : Instr) (lat : Latch) (rest : List Line) (s : State) : State :=
  stageConv ((convRHF lat.wdata).setWidth 32) op lat rest s

/-- CONV_RHP's line (R211). -/
def lineConvRhp (op : Instr) (lat : Latch) (rest : List Line) (s : State) : State :=
  stageConv (convRHP lat.wdata) op lat rest s

/-- `VALID.ASC_V <- 0` (43_calibration.md R230). -/
def lineAscClear (op : Instr) (lat : Latch) (rest : List Line) (s : State) : State :=
  (s.stageWrites [.valid .asc false]).goto op rest lat

/-- `if not validWord(rx[0], rx[1], rx[2]): raise CHECKSUM_MISMATCH(0)` (R231, R233). -/
def lineCheckWord (op : Instr) (lat : Latch) (rest : List Line) (s : State) : State :=
  if groupValid s.rx 0 then s.goto op rest lat else raise op lat .checksumMismatch 0 0 s

/-- `R[ASC_STATE] <- zext_32(rx[1]); VALID.ASC_V <- 1` (R231, R232). -/
def lineAscResult (op : Instr) (lat : Latch) (rest : List Line) (s : State) : State :=
  (s.stageWrites [.ascState (s.rx.getD 1 0), .valid .asc true]).goto op rest lat

/-- WARMUP_N (00_scope.md R6, R234). -/
def warmupN : Nat := 36

/-- TriggerSteps() (42_measurement.md R200). -/
def triggerSteps : List Line := [.write (frameA 0x219d) false, .wait .ss]

/-- ReadMeasSteps() but for its check, which the caller's next line makes (R201). -/
def readMeasSteps : List Line := [.write (frameA 0xec05) true, .wait .cmd, .read 9]

/-- The body of FRC's warm-up loop (R233). -/
def warmupBody : List Line := triggerSteps ++ readMeasSteps ++ [.warmupCheck]

/-- `for k in 0 .. 35` (R233, R234). -/
def lineWarmupLoop (op : Instr) (lat : Latch) (rest : List Line) (s : State) : State :=
  if s.k < warmupN then s.goto op (warmupBody ++ .warmupLoop :: rest) lat else s.goto op rest lat

/-- `if t = Mismatch(i): raise CALIBRATION_PRECONDITION_FAILED(i, k)`, else `warmup_done <- k + 1` (R233). -/
def lineWarmupCheck (op : Instr) (lat : Latch) (rest : List Line) (s : State) : State :=
  match firstBadWord s.rx 3 with
  | none => { s with k := s.k + 1, stage := { s.stage with warmupDone := s.k + 1 } }.goto op rest lat
  | some i =>
    raise op lat .calibrationPreconditionFailed i 0 { s with stage := { s.stage with warmupDone := s.k } }

/-- Steps 5 and 6 of FRC: the sentinel, then the offset (R233, R235). -/
def lineFrcResult (op : Instr) (lat : Latch) (rest : List Line) (s : State) : State :=
  if groupWord s.rx 0 = frcSentinel then raise op lat .deviceReportedFailure 0 0 s
  else
    (s.stageWrites [.frcOffset ((offset16 (groupWord s.rx 0)).signExtend 32), .valid .frc true]).goto op rest lat

/-- SERIAL_HI and SERIAL_LO of the words w0, w1, w2 (44_serial.md R260, R261). -/
def serialWrites (w0 w1 w2 : Half) : List StagedWrite := [.serialHi w0, .serialLo (w1 ++ w2), .valid .ser true]

/-- The check and assembly of READ_SERIAL (R260). -/
def lineSerial (op : Instr) (lat : Latch) (rest : List Line) (s : State) : State :=
  match firstBadWord s.rx 3 with
  | none => (s.stageWrites (serialWrites (groupWord s.rx 0) (groupWord s.rx 1) (groupWord s.rx 2))).goto op rest lat
  | some i => raise op lat .checksumMismatch i 0 s

end Sys2Proof.Machine
end

