-- ==== Sys2Proof/Machine/Sequencer.lean ====
section
/-! DEFINITION. The sequencer (spec 10_state.md R65 to R68): the line at `seq` is run, an op is taken through its
acceptance and its lines, and a wire command through the line that sends it. -/

namespace Sys2Proof.Machine

/-- The line at `seq`. -/
def runLine (l : Line) (op : Instr) (lat : Latch) (rest : List Line) (s : State) : State :=
  match l with
  | .write bytes hold => lineWrite bytes hold op lat rest s
  | .read n => lineRead n op lat rest s
  | .wait d => lineWait d op lat rest s
  | .waiting d => lineWaiting d op lat rest s
  | .crcCompute => lineCrcCompute op lat rest s
  | .crcCheck => lineCrcCheck op lat rest s
  | .storeRx => lineStoreRx op lat rest s
  | .triplet => lineTriplet op lat rest s
  | .convT => lineConvT op lat rest s
  | .convRhf => lineConvRhf op lat rest s
  | .convRhp => lineConvRhp op lat rest s
  | .ascClear => lineAscClear op lat rest s
  | .checkWord => lineCheckWord op lat rest s
  | .ascResult => lineAscResult op lat rest s
  | .warmupLoop => lineWarmupLoop op lat rest s
  | .warmupCheck => lineWarmupCheck op lat rest s
  | .frcResult => lineFrcResult op lat rest s
  | .serial => lineSerial op lat rest s

/-- The running op goes one line on, or commits where no line is left (R67; 60_exceptions.md R303, R304). -/
def runSeq (op : Instr) (seq : List Line) (lat : Latch) (s : State) : State :=
  match seq with
  | [] => commit op lat s
  | l :: rest => runLine l op lat rest s

/-- The meaning of a host op i whose pseudocode is `lines`: accepted when no op runs (30_encoding.md R115), one line on
when i is the running op, and dropped, with OVERRUN, when another op holds the lock (20_memory.md R86; log 19). -/
def runCommand (i : Instr) (lines : Latch → List Line) (s : State) : Host.Outcome State Fault Refusal :=
  match s.phase with
  | .idle => .next (accept i lines s)
  | .busy op seq lat => if op = i then .next (runSeq op seq lat s) else .next s.dropWrite

/-- Whether the line sends the wire command f as its rule says: its frame, with its hold or its STOP (R122 to R127). -/
def lineSends (f : Instr) (bytes : List Byte) (hold : Bool) : Bool := bytes == encodeFrame f && hold == wireHold f

/-- The meaning of a wire command f: the frame goes on the wire as the running op's line (30_encoding.md R122 to
R127). -/
def sendWire (f : Instr) (s : State) : Host.Outcome State Fault Refusal :=
  match s.phase with
  | .busy op (.write bytes hold :: rest) lat =>
    if lineSends f bytes hold then .next (lineWrite (encodeFrame f) (wireHold f) op lat rest s)
    else .fault .wireCommandOutsideOp
  | .busy _ _ _ | .idle => .fault .wireCommandOutsideOp

/-- The wire command a line sends, read from the frame itself (R128). A raw write of BUS_WRITE is none: the block gives
its bytes no meaning (20_memory.md R99). -/
def wireOfLine (op : Instr) (l : Line) : Option Instr :=
  match l with
  | .write bytes hold =>
    match decodeFrame bytes with
    | .ok f => if opOf op != 0x10 && hold == wireHold f then some f else none
    | .error _ => none
  | .read _ | .wait _ | .waiting _ | .crcCompute | .crcCheck | .storeRx | .triplet | .convT | .convRhf | .convRhp
  | .ascClear | .checkWord | .ascResult | .warmupLoop | .warmupCheck | .frcResult | .serial => none

/-- The instruction the sequencer is at: the wire command its line sends, else the running op. -/
def currentInstr (s : State) : Option Instr :=
  match s.phase with
  | .idle => none
  | .busy op [] _ => some op
  | .busy op (l :: _) _ => some ((wireOfLine op l).getD op)

end Sys2Proof.Machine
end

