-- ==== Sys2Proof/Machine/Calibration.lean ====
section
/-! DEFINITION. The calibration family (spec 43_calibration.md R230 to R236). -/

namespace Sys2Proof.Machine

/-- ASC_SET's pseudocode: frameB(0x2416, WDATA) with a STOP, then Wait(T_CMD_MS) (R230). -/
def ascSetLines (lat : Latch) : List Line := [.write (frameB 0x2416 lat.wdata) false, .wait .cmd, .ascClear]

/-- ASC_SET (R230). -/
def execAscSet (len : BitVec 5) (hold : Bool) (s : State) : Host.Outcome State Fault Refusal :=
  runCommand (.ascSet len hold) ascSetLines s

/-- The read of a get-ASC response: 2 bytes unchecked, or with ASC_CHECK a checked word (R231). -/
def ascReadSteps (check : Bool) : List Line := if check then [.read 3, .checkWord] else [.read 2]

/-- AscGetSteps() (R231). -/
def ascGetSteps (lat : Latch) : List Line := [.write (frameA 0x2313) true, .wait .cmd] ++ ascReadSteps lat.ascCheck

/-- ASC_GET's pseudocode (R231). -/
def ascGetLines (lat : Latch) : List Line := ascGetSteps lat ++ [.ascResult]

/-- ASC_GET (R231). -/
def execAscGet (len : BitVec 5) (hold : Bool) (s : State) : Host.Outcome State Fault Refusal :=
  runCommand (.ascGet len hold) ascGetLines s

/-- ASC_DISABLE_QUERY's pseudocode (R232). -/
def ascDisableQueryLines (lat : Latch) : List Line :=
  [.write (frameB 0x2416 0x0000) false, .wait .cmd] ++ ascGetSteps lat ++ [.ascResult]

/-- ASC_DISABLE_QUERY (R232). -/
def execAscDisableQuery (len : BitVec 5) (hold : Bool) (s : State) : Host.Outcome State Fault Refusal :=
  runCommand (.ascDisableQuery len hold) ascDisableQueryLines s

/-- FRC after its warm-up: the PERFORM_FRC write, the settling delay, and the 1-word answer (R233). -/
def frcTail (lat : Latch) : List Line :=
  [.write (frameB 0x362f lat.ppm) false, .wait .frc, .read 3, .checkWord, .frcResult]

/-- FRC's pseudocode (R233). -/
def frcLines (lat : Latch) : List Line := .warmupLoop :: frcTail lat

/-- FRC (R233). -/
def execFrc (len : BitVec 5) (hold : Bool) (s : State) : Host.Outcome State Fault Refusal :=
  runCommand (.frc len hold) frcLines s

end Sys2Proof.Machine
end

