-- ==== Sys2Proof/Machine/Checksum.lean ====
section
/-! DEFINITION. The checksum family (spec 40_checksum.md R155, R156). -/

namespace Sys2Proof.Machine

/-- CRC_COMPUTE's pseudocode (R155). -/
def crcComputeLines (_ : Latch) : List Line := [.crcCompute]

/-- CRC_COMPUTE (R155). -/
def execCrcCompute (len : BitVec 5) (hold : Bool) (s : State) : Host.Outcome State Fault Refusal :=
  runCommand (.crcCompute len hold) crcComputeLines s

/-- CRC_CHECK's pseudocode (R156). -/
def crcCheckLines (_ : Latch) : List Line := [.crcCheck]

/-- CRC_CHECK (R156). -/
def execCrcCheck (len : BitVec 5) (hold : Bool) (s : State) : Host.Outcome State Fault Refusal :=
  runCommand (.crcCheck len hold) crcCheckLines s

end Sys2Proof.Machine
end

