-- ==== Sys2Proof/Machine/Converter.lean ====
section
/-! DEFINITION. The converter family (spec 42_measurement.md R209 to R211). -/

namespace Sys2Proof.Machine

/-- CONV_T's pseudocode (R209). -/
def convTLines (_ : Latch) : List Line := [.convT]

/-- CONV_T (R209). -/
def execConvT (len : BitVec 5) (hold : Bool) (s : State) : Host.Outcome State Fault Refusal :=
  runCommand (.convT len hold) convTLines s

/-- CONV_RHF's pseudocode (R210). -/
def convRhfLines (_ : Latch) : List Line := [.convRhf]

/-- CONV_RHF (R210). -/
def execConvRhf (len : BitVec 5) (hold : Bool) (s : State) : Host.Outcome State Fault Refusal :=
  runCommand (.convRhf len hold) convRhfLines s

/-- CONV_RHP's pseudocode (R211). -/
def convRhpLines (_ : Latch) : List Line := [.convRhp]

/-- CONV_RHP (R211). -/
def execConvRhp (len : BitVec 5) (hold : Bool) (s : State) : Host.Outcome State Fault Refusal :=
  runCommand (.convRhp len hold) convRhpLines s

end Sys2Proof.Machine
end

