-- ==== Sys2Proof/Machine/Identity.lean ====
section
/-! DEFINITION. The identity family (spec 44_serial.md R260 to R262). -/

namespace Sys2Proof.Machine

/-- READ_SERIAL's pseudocode (R260). -/
def readSerialLines (_ : Latch) : List Line := [.write (frameA 0x3682) true, .wait .cmd, .read 9, .serial]

/-- READ_SERIAL (R260). -/
def execReadSerial (len : BitVec 5) (hold : Bool) (s : State) : Host.Outcome State Fault Refusal :=
  runCommand (.readSerial len hold) readSerialLines s

end Sys2Proof.Machine
end

