-- ==== Sys2Proof/Machine/Measurement.lean ====
section
/-! DEFINITION. The measurement family (spec 42_measurement.md R200 to R205), and the source's measurement state
machine as positions of `seq` (10_state.md R66). -/

namespace Sys2Proof.Machine

/-- TRIGGER_SS's pseudocode (R200). -/
def triggerSsLines (_ : Latch) : List Line := triggerSteps

/-- TRIGGER_SS (R200). -/
def execTriggerSs (len : BitVec 5) (hold : Bool) (s : State) : Host.Outcome State Fault Refusal :=
  runCommand (.triggerSs len hold) triggerSsLines s

/-- READ_MEAS's pseudocode (R201). -/
def readMeasLines (_ : Latch) : List Line := readMeasSteps ++ [.triplet]

/-- READ_MEAS (R201). -/
def execReadMeas (len : BitVec 5) (hold : Bool) (s : State) : Host.Outcome State Fault Refusal :=
  runCommand (.readMeas len hold) readMeasLines s

/-- MEASURE's pseudocode (R202). -/
def measureLines (_ : Latch) : List Line := triggerSteps ++ readMeasSteps ++ [.triplet]

/-- MEASURE (R202). -/
def execMeasure (len : BitVec 5) (hold : Bool) (s : State) : Host.Outcome State Fault Refusal :=
  runCommand (.measure len hold) measureLines s

/-- The source's measurement states (10_state.md R66). -/
inductive MeasState
  | idle
  | triggered
  | waiting
  | reading
  | validated
  | invalid
  deriving DecidableEq, Repr, Inhabited

/-- The measurement state that a position of READ_MEAS or MEASURE stands for (R66). None for the trigger write itself
and for a transport failure, which R66 does not name. -/
def measPosition (seq : List Line) (g : Stage) : Option MeasState :=
  match seq with
  | [] =>
    match g.err with
    | .success => some .validated
    | .checksumMismatch => some .invalid
    | .deviceReportedFailure | .transportFailure | .calibrationPreconditionFailed | .illegalCommand
    | .illegalOperand => none
  | .wait .ss :: _ => some .triggered
  | .waiting .ss :: _ => some .waiting
  | .write bytes _ :: _ => if bytes = frameA 0xec05 then some .reading else none
  | _ :: _ => some .reading

/-- The measurement state of the block (R66); none while an op other than READ_MEAS and MEASURE runs. -/
def measState (s : State) : Option MeasState :=
  match s.phase with
  | .idle => some .idle
  | .busy op seq _ => if opOf op = 0x21 ∨ opOf op = 0x22 then measPosition seq s.stage else none

end Sys2Proof.Machine
end

