-- ==== Sys2Proof/Machine/Transport.lean ====
section
/-! DEFINITION. The transport family (spec 41_transport.md R181, R182). -/

namespace Sys2Proof.Machine

/-- BUS_WRITE's pseudocode: BUF[0..LEN-1] as one write, held if HOLD = 1 (R181). -/
def busWriteLines (lat : Latch) : List Line := [.write (bufBytes lat.buf lat.len.toNat) lat.hold]

/-- BUS_WRITE (R181). -/
def execBusWrite (len : BitVec 5) (hold : Bool) (s : State) : Host.Outcome State Fault Refusal :=
  runCommand (.busWrite len hold) busWriteLines s

/-- BUS_READ's pseudocode: LEN bytes read into BUF (R182). -/
def busReadLines (lat : Latch) : List Line := [.read lat.len.toNat, .storeRx]

/-- BUS_READ (R182). -/
def execBusRead (len : BitVec 5) (hold : Bool) (s : State) : Host.Outcome State Fault Refusal :=
  runCommand (.busRead len hold) busReadLines s

end Sys2Proof.Machine
end

