-- ==== Sys2Proof/Machine/Wire.lean ====
section
/-! DEFINITION. The six wire commands (spec 30_encoding.md R122 to R127): each is one I2C write, made by the line of the
running op that sends it. -/

namespace Sys2Proof.Machine

/-- READ_SERIAL_NUMBER, [0x36, 0x82] with hold (R122). -/
def execReadSerialNumber (s : State) : Host.Outcome State Fault Refusal := sendWire .readSerialNumber s

/-- SET_ASC_ENABLED, frame B of 0x2416 with a STOP (R123). -/
def execSetAscEnabled (payload : Half) (check : Byte) (s : State) : Host.Outcome State Fault Refusal :=
  sendWire (.setAscEnabled payload check) s

/-- GET_ASC_ENABLED, [0x23, 0x13] with hold (R124). -/
def execGetAscEnabled (s : State) : Host.Outcome State Fault Refusal := sendWire .getAscEnabled s

/-- MEASURE_SINGLE_SHOT, [0x21, 0x9D] with a STOP (R125). -/
def execMeasureSingleShot (s : State) : Host.Outcome State Fault Refusal := sendWire .measureSingleShot s

/-- READ_MEASUREMENT, [0xEC, 0x05] with hold (R126). -/
def execReadMeasurement (s : State) : Host.Outcome State Fault Refusal := sendWire .readMeasurement s

/-- PERFORM_FRC, frame B of 0x362f with a STOP (R127). -/
def execPerformFrc (ppm : Half) (check : Byte) (s : State) : Host.Outcome State Fault Refusal :=
  sendWire (.performFrc ppm check) s

end Sys2Proof.Machine
end

