-- ==== Sys2Proof/Machine/Dispatch.lean ====
section
/-! DEFINITION. One arm for each instruction. -/

namespace Sys2Proof.Machine

def exec (i : Instr) (s : State) : Host.Outcome State Fault Refusal :=
  match i with
  | .crcCompute len hold => Sys2Proof.Machine.execCrcCompute len hold s
  | .crcCheck len hold => Sys2Proof.Machine.execCrcCheck len hold s
  | .busWrite len hold => Sys2Proof.Machine.execBusWrite len hold s
  | .busRead len hold => Sys2Proof.Machine.execBusRead len hold s
  | .triggerSs len hold => Sys2Proof.Machine.execTriggerSs len hold s
  | .readMeas len hold => Sys2Proof.Machine.execReadMeas len hold s
  | .measure len hold => Sys2Proof.Machine.execMeasure len hold s
  | .convT len hold => Sys2Proof.Machine.execConvT len hold s
  | .convRhf len hold => Sys2Proof.Machine.execConvRhf len hold s
  | .convRhp len hold => Sys2Proof.Machine.execConvRhp len hold s
  | .ascSet len hold => Sys2Proof.Machine.execAscSet len hold s
  | .ascGet len hold => Sys2Proof.Machine.execAscGet len hold s
  | .ascDisableQuery len hold => Sys2Proof.Machine.execAscDisableQuery len hold s
  | .frc len hold => Sys2Proof.Machine.execFrc len hold s
  | .readSerial len hold => Sys2Proof.Machine.execReadSerial len hold s
  | .readSerialNumber => Sys2Proof.Machine.execReadSerialNumber s
  | .setAscEnabled payload check => Sys2Proof.Machine.execSetAscEnabled payload check s
  | .getAscEnabled => Sys2Proof.Machine.execGetAscEnabled s
  | .measureSingleShot => Sys2Proof.Machine.execMeasureSingleShot s
  | .readMeasurement => Sys2Proof.Machine.execReadMeasurement s
  | .performFrc ppm check => Sys2Proof.Machine.execPerformFrc ppm check s

end Sys2Proof.Machine
end

