-- ==== Sys2Proof/Machine/HostPort.lean ====
section
/-! DEFINITION. The host port (spec 20_memory.md R81 to R86, 10_state.md R32, R64): which accesses are defined, what a
read returns, and what a write does. A command is the one write whose effect is an instruction's (Machine/Cycle.lean). -/

namespace Sys2Proof.Machine

/-- The registers of the map (R32); BUF[i] by its index, and the reserved offsets as one (R64). -/
inductive Reg
  | ctrl
  | status
  | cmd
  | devAddr
  | wdata
  | targetPpm
  | tCmdMs
  | tSsMs
  | tFrcMs
  | valid
  | crcResult
  | co2
  | tRaw
  | rhRaw
  | tQ16
  | rhFracQ16
  | rhPctQ16
  | convOut
  | serialHi
  | serialLo
  | ascState
  | frcOffset
  | buf (i : Nat)
  | reserved
  deriving DecidableEq, Repr, Inhabited

/-- The register at word w of the window, that is at offset 4 * w (R32). -/
def regOfWord (w : Nat) : Reg :=
  match w with
  | 0 => .ctrl
  | 1 => .status
  | 2 => .cmd
  | 3 => .devAddr
  | 4 => .wdata
  | 5 => .targetPpm
  | 6 => .tCmdMs
  | 7 => .tSsMs
  | 8 => .tFrcMs
  | 9 => .valid
  | 10 => .crcResult
  | 11 => .co2
  | 12 => .tRaw
  | 13 => .rhRaw
  | 14 => .tQ16
  | 15 => .rhFracQ16
  | 16 => .rhPctQ16
  | 17 => .convOut
  | 18 => .serialHi
  | 19 => .serialLo
  | 20 => .ascState
  | 21 => .frcOffset
  | w => if 32 ≤ w ∧ w < 48 then .buf (w - 32) else .reserved

/-- The register an access reaches: 4 bytes, aligned, inside the 256-byte window; any other access is refused with a
bus error (R81). SIB_BASE is a multiple of 256, so an address is aligned exactly when its offset is. -/
def accessReg (off : Int) (size : Nat) : Option Reg :=
  if size = 4 ∧ off % 4 = 0 ∧ 0 ≤ off ∧ off < 256 then some (regOfWord (off.toNat / 4)) else none

/-- `R[register]` as the host reads it (R32, R82): the defined bits, zero-extended; CMD and reserved offsets read 0. -/
def readReg (r : Reg) (s : State) : Word :=
  match r with
  | .ctrl => ctrlWord s.ctrl
  | .status => statusWord s
  | .cmd => 0
  | .devAddr => s.oper.devAddr.setWidth 32
  | .wdata => s.oper.wdata.setWidth 32
  | .targetPpm => s.oper.targetPpm.setWidth 32
  | .tCmdMs => s.oper.tCmdMs.setWidth 32
  | .tSsMs => s.oper.tSsMs.setWidth 32
  | .tFrcMs => s.oper.tFrcMs.setWidth 32
  | .valid => validBits s.res.valid
  | .crcResult => s.res.crcResult.setWidth 32
  | .co2 => s.res.co2.setWidth 32
  | .tRaw => s.res.tRaw.setWidth 32
  | .rhRaw => s.res.rhRaw.setWidth 32
  | .tQ16 => s.res.tQ16
  | .rhFracQ16 => s.res.rhFracQ16.setWidth 32
  | .rhPctQ16 => s.res.rhPctQ16
  | .convOut => s.res.convOut
  | .serialHi => s.res.serialHi.setWidth 32
  | .serialLo => s.res.serialLo
  | .ascState => s.res.ascState.setWidth 32
  | .frcOffset => s.res.frcOffset
  | .buf i => (s.buf.read i).setWidth 32
  | .reserved => 0

/-- A write to an operand register or BUF byte while BUSY = 0 stores the defined bits (R83). Other registers have no
operand to store. -/
def storeOperand (r : Reg) (v : Word) (s : State) : State :=
  match r with
  | .devAddr => { s with oper := { s.oper with devAddr := v.setWidth 7 } }
  | .wdata => { s with oper := { s.oper with wdata := v.setWidth 16 } }
  | .targetPpm => { s with oper := { s.oper with targetPpm := v.setWidth 16 } }
  | .tCmdMs => { s with oper := { s.oper with tCmdMs := v.setWidth 16 } }
  | .tSsMs => { s with oper := { s.oper with tSsMs := v.setWidth 16 } }
  | .tFrcMs => { s with oper := { s.oper with tFrcMs := v.setWidth 16 } }
  | .buf i => { s with buf := s.buf.write i (v.setWidth 8) }
  | .ctrl | .status | .cmd | .valid | .crcResult | .co2 | .tRaw | .rhRaw | .tQ16 | .rhFracQ16 | .rhPctQ16 | .convOut
  | .serialHi | .serialLo | .ascState | .frcOffset | .reserved => s

/-- What a host write of v does, but for a command's own effect (R83, R84, R86; R64). -/
def writeReg (r : Reg) (v : Word) (s : State) : State :=
  match r with
  | .ctrl => { s with ctrl := ctrlWrite v }
  | .status => { s with status := statusWrite v s.status }
  | .cmd => if s.busy then s.dropWrite else s
  | .devAddr | .wdata | .targetPpm | .tCmdMs | .tSsMs | .tFrcMs | .buf _ =>
    if s.busy then s.dropWrite else storeOperand r v s
  | .valid | .crcResult | .co2 | .tRaw | .rhRaw | .tQ16 | .rhFracQ16 | .rhPctQ16 | .convOut | .serialHi | .serialLo
  | .ascState | .frcOffset | .reserved => s

/-- The port's answer, recorded. -/
def State.respond (s : State) (r : Response) : State :=
  { s with env := { s.env with responses := s.env.responses ++ [r] } }

/-- One access served: MemRead or MemWrite of R81, with a bus-error response and no other change where it is not
defined (R306). -/
def serveAccess (a : Access) (s : State) : State :=
  match a with
  | .read off size =>
    match accessReg off size with
    | none => s.respond .busError
    | some r => s.respond (.data (readReg r s))
  | .write off size v =>
    match accessReg off size with
    | none => s.respond .busError
    | some r => (writeReg r v s).respond .ok

/-- The access of a cycle, if it has one. -/
def servePort (a : Option Access) (s : State) : State :=
  match a with
  | none => s
  | some a => serveAccess a s

/-- The registers whose host writes are dropped while BUSY = 1 (R86). -/
def lockedReg (r : Reg) : Bool :=
  match r with
  | .cmd | .devAddr | .wdata | .targetPpm | .tCmdMs | .tSsMs | .tFrcMs | .buf _ => true
  | .ctrl | .status | .valid | .crcResult | .co2 | .tRaw | .rhRaw | .tQ16 | .rhFracQ16 | .rhPctQ16 | .convOut | .serialHi
  | .serialLo | .ascState | .frcOffset | .reserved => false

/-- Whether an access is a write that is dropped (R86). -/
def dropsWrite (a : Option Access) (s : State) : Bool :=
  match a with
  | some (.write off size _) => s.busy && (accessReg off size).any lockedReg
  | some (.read _ _) | none => false

/-- Whether an access is a defined write to the register r. -/
def isWriteTo (r : Reg) (a : Option Access) : Bool :=
  match a with
  | some (.write off size _) => accessReg off size == some r
  | some (.read _ _) | none => false

/-- A command and a write to STATUS in one cycle, in either order: the completion of an illegal command and a W1C of DONE
can meet (10_state.md R35; 60_exceptions.md R305, R311). -/
def commandBesideStatus (b a : Option Access) : Bool :=
  isWriteTo .cmd b && isWriteTo .status a || isWriteTo .status b && isWriteTo .cmd a

/-- The two accesses of a cycle, a after b (R94); a dropped write wins over a W1C of OVERRUN, whichever of them came first
(10_state.md R36; 60_exceptions.md R311). -/
def servePair (b a : Option Access) (s : State) : State :=
  let t := servePort a (servePort b s)
  if dropsWrite b s then t.dropWrite else t

/-- The command an access gives the block: the value written to CMD while BUSY = 0 (R83, 10_state.md R43). -/
def commandOf (a : Option Access) (s : State) : Option Word :=
  match a with
  | some (.write off size v) => if accessReg off size = some .cmd ∧ s.busy = false then some v else none
  | some (.read _ _) | none => none

/-- MemRead(addr, n) at an absolute address (R81). -/
def memRead (addr n : Nat) : Access := .read ((addr : Int) - Config.sibBase) n

/-- MemWrite(addr, n, v) at an absolute address (R81). -/
def memWrite (addr n : Nat) (v : Word) : Access := .write ((addr : Int) - Config.sibBase) n v

end Sys2Proof.Machine
end

