-- ==== Sys2Proof/Machine/Cycle.lean ====
section
/-! DEFINITION. One block cycle: reset, the host's access, and the sequencer (spec 70_reset_and_hazards.md R340 to R343;
20_memory.md R83, R86; 60_exceptions.md R311). -/

namespace Sys2Proof.Machine

/-- The inputs of this cycle: the first pending one, or else a quiet cycle (log 1). -/
def Env.cycle (e : Env) : Cycle :=
  match e.inputs with
  | c :: _ => c
  | [] => {}

/-- The state once this cycle's inputs are taken. -/
def State.takeCycle (s : State) : State := { s with env := { s.env with inputs := s.env.inputs.tail } }

/-- What the pins have carried of the transaction at `seq`, if it makes one and has begun (R342; log 17). -/
def cutTransaction (cut : Option Nat) (s : State) : Option (List BusEvent) :=
  match s.phase, cut with
  | .busy _ (l :: _) lat, some m => cutEvents s.bus lat l m s.env.draw
  | .busy _ _ _, _ | .idle, _ => none

/-- The lines are let go, unless the bus was free and the block had put nothing on it (R340, R342). -/
def releaseEvents (b : BusState) (evs : List BusEvent) : List BusEvent := if b = .free ∧ evs = [] then [] else [.release]

/-- What the pins carry at a reset: the transaction at `seq` as far as it had come, and then the lines let go (R340,
R342). -/
def resetEvents (cut : Option Nat) (s : State) : List BusEvent :=
  let evs := (cutTransaction cut s).getD []
  evs ++ releaseEvents s.bus evs

/-- The environment after a reset: a transaction cut short has used its draw. -/
def resetDraw (cut : Option Nat) (s : State) : Env :=
  match cutTransaction cut s with
  | some _ => s.env.useDraw
  | none => s.env

/-- A cycle with rst_n = 0: every piece of the block's state takes its reset value (R340), and an access gets a bus error
(D42). The environment's own fields go on. -/
def resetCycle (c : Cycle) (s : State) : State :=
  let s1 : State :=
    { State.reset with env := { resetDraw c.cut s with trace := s.env.trace ++ resetEvents c.cut s } }
  match c.access with
  | none => s1
  | some _ => s1.respond .busError

/-- A command value v written while BUSY = 0: decoded, and run as its instruction or completed with ILLEGAL_COMMAND
(30_encoding.md R115). -/
def runCommandWord (v : Word) (s : State) : Host.Outcome State Fault Refusal :=
  match decodeCmd v with
  | .ok i => exec i s
  | .error _ => .next (commitIllegal (cmdOp v) .illegalCommand s)

/-- Whether the sequencer is in a running Wait, which counts in every cycle (41_transport.md R183). -/
def State.inWait (s : State) : Bool :=
  match s.phase with
  | .busy _ (.waiting _ :: _) _ => true
  | .busy _ _ _ | .idle => false

/-- The sequencer's part of a cycle: the instruction it is at goes one line on, unless the line takes longer (R354). -/
def runSequencer (stall : Bool) (s : State) : Host.Outcome State Fault Refusal :=
  match currentInstr s with
  | none => .next s
  | some i => if stall && !s.inWait then .next s else exec i s

/-- The cycle's `access` where it is served before the sequencer's part: every write, and a read that is not late. -/
def earlyAccess (c : Cycle) : Option Access :=
  match c.access with
  | some (.read off size) => if c.late then none else some (.read off size)
  | some (.write off size v) => some (.write off size v)
  | none => none

/-- The access a cycle has before its `access`: any while BUSY = 1, and at an idle block a command beside a write to STATUS.
An idle block does nothing in a cycle but serve the host, so any other two accesses there are two cycles (DESIGN CHOICE,
log 30). -/
def beforeAccess (c : Cycle) (s : State) : Option Access :=
  if s.busy || commandBesideStatus c.before c.access then c.before else none

/-- The command the host gives in a cycle: of its `access`, or of the one before it. -/
def hostCommand (c : Cycle) (s : State) : Option Word :=
  match commandOf c.access s with
  | some v => some v
  | none => commandOf (beforeAccess c s) s

/-- What the host's accesses do before the sequencer's part of a cycle. -/
def serveEarly (c : Cycle) (s : State) : State := servePair (beforeAccess c s) (earlyAccess c) s

/-- The access served after the sequencer's part of a cycle: a read that is late. -/
def lateAccess (c : Cycle) : Option Access :=
  match c.access with
  | some (.read off size) => if c.late then some (.read off size) else none
  | some (.write _ _ _) | none => none

/-- The late access, served where the cycle went on. -/
def serveLate (c : Cycle) (o : Host.Outcome State Fault Refusal) : Host.Outcome State Fault Refusal :=
  match o with
  | .next t => .next (servePort (lateAccess c) t)
  | .fault f => .fault f
  | .refused r => .refused r

/-- A cycle with rst_n = 1: the host's writes first, then the command they gave or the sequencer. A completion, an illegal
command's too, therefore wins over a W1C of DONE in its cycle, whichever access comes first (R35, R305); a read in it
returns all old values or, if it is late, all new ones (R92, R311). -/
def activeCycle (c : Cycle) (s : State) : Host.Outcome State Fault Refusal :=
  match hostCommand c s with
  | some v => runCommandWord v (serveEarly c s)
  | none => serveLate c (runSequencer c.stall (serveEarly c s))

/-- One block cycle. The model samples rst_n once in a cycle; R340 leaves it to the platform whether the pin is sampled on
the clock or acts asynchronously (DESIGN CHOICE, log 28). -/
def runCycle (s : State) : Host.Outcome State Fault Refusal :=
  if s.env.cycle.rstN then activeCycle s.env.cycle s.takeCycle else .next (resetCycle s.env.cycle s.takeCycle)

/-- The op and the lines after its write that a wire command is placed in for withFetchWord: the first op of R111 that
sends it, with the operands as registers stand. -/
def wireHost : Instr → Option (Instr × (Latch → List Line))
  | .readSerialNumber => some (.readSerial 0 false, fun lat => (readSerialLines lat).tail)
  | .setAscEnabled _ _ => some (.ascSet 0 false, fun lat => (ascSetLines lat).tail)
  | .getAscEnabled => some (.ascGet 0 false, fun lat => (ascGetLines lat).tail)
  | .measureSingleShot => some (.triggerSs 0 false, fun lat => (triggerSsLines lat).tail)
  | .readMeasurement => some (.readMeas 0 false, fun lat => (readMeasLines lat).tail)
  | .performFrc _ _ => some (.frc 0 false, fun lat => (frcTail lat).tail)
  | .crcCompute _ _ | .crcCheck _ _ | .busWrite _ _ | .busRead _ _ | .triggerSs _ _ | .readMeas _ _ | .measure _ _
  | .convT _ _ | .convRhf _ _ | .convRhp _ _ | .ascSet _ _ | .ascGet _ _ | .ascDisableQuery _ _ | .frc _ _
  | .readSerial _ _ => none

/-- s with the host about to write the CMD word v in its next cycle. -/
def placeCommand (v : Word) (s : State) : State :=
  { s with phase := .idle, env := { s.env with inputs := { access := some (.write 8 4 v) } :: s.env.inputs } }

/-- s with the sequencer at a line that sends the frame of the wire command f, in a quiet cycle. -/
def placeWire (f : Instr) (s : State) : State :=
  match wireHost f with
  | none => s
  | some (op, rest) =>
    { s with
      phase := .busy op (.write (encodeFrame f) (wireHold f) :: rest (latch op s)) (latch op s)
      env := { s.env with inputs := {} :: s.env.inputs } }

/-- s with the row's word where the next step fetches (log 21): a CMD word as the host's next access, a wire opcode as
the sequencer's next frame. -/
def placeTableWord (s : State) (nbits w : Nat) : State :=
  if nbits = 32 then placeCommand (BitVec.ofNat 32 w) s
  else
    match decodeTableWord nbits w with
    | some f => placeWire f s
    | none => s

end Sys2Proof.Machine
end

