-- ==== Sys2Proof/Machine/Step.lean ====
section
/-! DEFINITION. The step: one block cycle (log 3). -/

namespace Sys2Proof.Machine

def step (s : State) : Host.Outcome State Fault Refusal := runCycle s

/-- s with the instruction of the word w placed where step fetches its next instruction (log 21). -/
def State.withFetchWord (s : State) (nbits w : Nat) : State := placeTableWord s nbits w

end Sys2Proof.Machine
end

