-- ==== Sys2Proof/Safety.lean ====
section
/-! DEFINITION. The terms claims are stated in: an op's own steps, the positions `seq` can have, which op writes which
register, and the invariant `Inv` that every step keeps. Nothing here is used by the machine. -/

namespace Sys2Proof.Machine

/-- The pseudocode of a host op (30_encoding.md R111); a wire command has none. -/
def linesOf (i : Instr) : Latch → List Line :=
  match i with
  | .crcCompute _ _ => crcComputeLines
  | .crcCheck _ _ => crcCheckLines
  | .busWrite _ _ => busWriteLines
  | .busRead _ _ => busReadLines
  | .triggerSs _ _ => triggerSsLines
  | .readMeas _ _ => readMeasLines
  | .measure _ _ => measureLines
  | .convT _ _ => convTLines
  | .convRhf _ _ => convRhfLines
  | .convRhp _ _ => convRhpLines
  | .ascSet _ _ => ascSetLines
  | .ascGet _ _ => ascGetLines
  | .ascDisableQuery _ _ => ascDisableQueryLines
  | .frc _ _ => frcLines
  | .readSerial _ _ => readSerialLines
  | .readSerialNumber | .setAscEnabled _ _ | .getAscEnabled | .measureSingleShot | .readMeasurement
  | .performFrc _ _ => fun _ => []

/-- n steps of the instruction i, one after the other, with nothing else happening in the block. -/
def execTimes : Nat → Instr → State → Host.Outcome State Fault Refusal
  | 0, _, s => .next s
  | n + 1, i, s =>
    match exec i s with
    | .next t => execTimes n i t
    | .fault f => .fault f
    | .refused r => .refused r

/-- Some number of steps of i lead from s to t. -/
def Reaches (i : Instr) (s t : State) : Prop := ∃ n, execTimes n i s = .next t

/-- The instruction i runs from s to t: exec of i answers a next state, and the rest of its steps lead to t. -/
def RunsTo (i : Instr) (s t : State) : Prop := ∃ s1, exec i s = .next s1 ∧ Reaches i s1 t

/-- An idle block takes the command i, and seq is then what it has to run, its operands latched (30_encoding.md R115). -/
def StartsAt (i : Instr) (s : State) (seq : List Line) : Prop :=
  ∃ t, exec i s = .next t ∧ t.phase = .busy i seq (latch i s)

/-- The ms an op that succeeds waits, all its Waits together (70_reset_and_hazards.md R354). -/
def waitsMs (i : Instr) (r : OperandRegs) : Nat :=
  match i with
  | .triggerSs _ _ => r.tSsMs.toNat
  | .readMeas _ _ | .ascSet _ _ | .ascGet _ _ | .readSerial _ _ => r.tCmdMs.toNat
  | .measure _ _ => r.tSsMs.toNat + r.tCmdMs.toNat
  | .ascDisableQuery _ _ => 2 * r.tCmdMs.toNat
  | .frc _ _ => 36 * (r.tSsMs.toNat + r.tCmdMs.toNat) + r.tFrcMs.toNat
  | .crcCompute _ _ | .crcCheck _ _ | .busWrite _ _ | .busRead _ _ | .convT _ _ | .convRhf _ _ | .convRhp _ _
  | .readSerialNumber | .setAscEnabled _ _ | .getAscEnabled | .measureSingleShot | .readMeasurement
  | .performFrc _ _ => 0

/-- n block cycles, one after the other. -/
def stepTimes : Nat → State → Host.Outcome State Fault Refusal
  | 0, s => .next s
  | n + 1, s =>
    match step s with
    | .next t => stepTimes n t
    | .fault f => .fault f
    | .refused r => .refused r

/-- The environment once n draws are used. -/
def Env.useDraws : Nat → Env → Env
  | 0, e => e
  | n + 1, e => (Env.useDraws n e).useDraw

/-- The draw of the n-th transaction from now on, counted from 0 (41_transport.md R180). -/
def Env.drawAt (e : Env) (n : Nat) : Draw := (e.useDraws n).draw

/-- A host's 4-byte read at the offset is answered with v, and changes nothing else (20_memory.md R81, R82). -/
def HostReads (s : State) (off : Int) (v : Word) : Prop := serveAccess (.read off 4) s = s.respond (.data v)

/-- A host's 4-byte write of v at the offset leads to t, but for the port's answer (20_memory.md R81). -/
def HostWrites (s : State) (off : Int) (v : Word) (t : State) : Prop := serveAccess (.write off 4 v) s = t.respond .ok

/-- The host gives an idle block the command v in this cycle, alone or beside a write to STATUS (log 30), and u is the block
with the host's writes done but the command not taken yet. -/
def CommandWritten (s : State) (v : Word) (u : State) : Prop :=
  (s.env.cycle.access = some (.write 0x08 4 v) ∧ (∀ x, s.env.cycle.before ≠ some (.write 0x04 4 x)) ∧
    u = s.takeCycle.respond .ok) ∨
  ∃ x : Word,
    (s.env.cycle.before = some (.write 0x04 4 x) ∧ s.env.cycle.access = some (.write 0x08 4 v) ∨
      s.env.cycle.before = some (.write 0x08 4 v) ∧ s.env.cycle.access = some (.write 0x04 4 x)) ∧
    u = ({ s.takeCycle with status := { s.status with
      done := s.status.done && !x.getLsbD 1, overrun := s.status.overrun && !x.getLsbD 2 } }.respond .ok).respond .ok

/-- A transaction begun with the bus at b returns Ok with the draw d. -/
def drawOk (b : BusState) (d : Draw) : Prop := drawFailure b d = none

/-- What a write that succeeds carries (41_transport.md R171). -/
def writeEvents (b : BusState) (d : Draw) (a : BitVec 7) (bytes : List Byte) (hold : Bool) : List BusEvent :=
  openEvents b d ++ (ackedBytes (addrByte a false :: bytes) ++ stopUnless hold)

/-- What a read that succeeds carries (41_transport.md R172). -/
def readEvents (b : BusState) (d : Draw) (a : BitVec 7) (n : Nat) : List BusEvent :=
  openEvents b d ++ (.sent (addrByte a true) true :: receivedBytes (readBytes n d) ++ [.stop])

/-- What a command sent with hold and the read of its n-byte response carry, with the two draws of index i on. -/
def queryEvents (b : BusState) (e : Env) (i : Nat) (a : BitVec 7) (c : Half) (n : Nat) : List BusEvent :=
  writeEvents b (e.drawAt i) a (frameA c) true ++ readEvents .held (e.drawAt (i + 1)) a n

/-- What a whole single-shot measurement carries, with the three draws of index i on (42_measurement.md R202). -/
def measureEvents (b : BusState) (e : Env) (i : Nat) (a : BitVec 7) : List BusEvent :=
  writeEvents b (e.drawAt i) a (frameA 0x219d) false ++ queryEvents .free e (i + 1) a 0xec05 9

/-- The bus as n measurements from a bus at b find it: as it was for the first, free after it. -/
def busAfterMeasures (b : BusState) (n : Nat) : BusState := if n = 0 then b else .free

/-- What n whole measurements carry, the first begun with the bus at b (43_calibration.md R234). -/
def warmupEvents (b : BusState) (e : Env) (a : BitVec 7) : Nat → List BusEvent
  | 0 => []
  | n + 1 => warmupEvents b e a n ++ measureEvents (busAfterMeasures b n) e (3 * n) a

/-- The three transactions of a measurement return Ok, with the draws of index i on. -/
def measureOk (b : BusState) (e : Env) (i : Nat) : Prop :=
  drawOk b (e.drawAt i) ∧ drawOk .free (e.drawAt (i + 1)) ∧ drawOk .held (e.drawAt (i + 2))

/-- s with n draws used, evs on the pins, and the bus at b. -/
def State.afterBus (s : State) (n : Nat) (evs : List BusEvent) (b : BusState) : State :=
  { s with bus := b, env := { s.env.useDraws n with trace := s.env.trace ++ evs } }

/-- s at the end of the op with code op: the STATUS fields every completion writes (60_exceptions.md R303, R304), the
sequencer idle, and every other field as it is. -/
def State.completed (s : State) (op : Byte) (e : ErrCode) (failWord : BitVec 3) (tfail : BitVec 2)
    (warmupDone : BitVec 8) : State :=
  { s with
    status := { s.status with
      done := true, err := e, failWord := failWord, tfail := tfail, warmupDone := warmupDone, lastOp := op }
    phase := .idle
    stage := .empty
    k := 0
    rx := []
    waitCtr := 0 }

/-- The fifteen assigned OP values (30_encoding.md R111). -/
def assignedOps : List Byte :=
  [0x01, 0x02, 0x10, 0x11, 0x20, 0x21, 0x22, 0x30, 0x31, 0x32, 0x40, 0x41, 0x42, 0x43, 0x50]

/-- LEN and HOLD are legal for the assigned OP (30_encoding.md R112, R113). -/
def legalFields (op : Byte) (len : BitVec 5) (hold : Bool) : Prop :=
  (if op = 0x01 ∨ op = 0x10 ∨ op = 0x11 then 1 ≤ len.toNat ∧ len.toNat ≤ 16
    else if op = 0x02 then 1 ≤ len.toNat ∧ len.toNat ≤ 5
    else len.toNat = 0) ∧
  (hold = true → op = 0x10)

/-- The bytes and the end, hold or STOP, of each wire command (30_encoding.md R122 to R127). -/
def wireForm (f : Instr) (bytes : List Byte) (hold : Bool) : Prop :=
  match f with
  | .readSerialNumber => bytes = [0x36, 0x82] ∧ hold = true
  | .setAscEnabled p c => bytes = [0x24, 0x16, hi p, lo p, c] ∧ hold = false
  | .getAscEnabled => bytes = [0x23, 0x13] ∧ hold = true
  | .measureSingleShot => bytes = [0x21, 0x9D] ∧ hold = false
  | .readMeasurement => bytes = [0xEC, 0x05] ∧ hold = true
  | .performFrc p c => bytes = [0x36, 0x2F, hi p, lo p, c] ∧ hold = false
  | .crcCompute _ _ | .crcCheck _ _ | .busWrite _ _ | .busRead _ _ | .triggerSs _ _ | .readMeas _ _ | .measure _ _
  | .convT _ _ | .convRhf _ _ | .convRhp _ _ | .ascSet _ _ | .ascGet _ _ | .ascDisableQuery _ _ | .frc _ _
  | .readSerial _ _ => False

/-- The result registers after a measurement whose nine bytes rx are valid (42_measurement.md R204). -/
def withTriplet (r : ResultRegs) (rx : List Byte) : ResultRegs :=
  { r with
    co2 := groupWord rx 0
    tRaw := groupWord rx 1
    rhRaw := groupWord rx 2
    tQ16 := convT (groupWord rx 1)
    rhFracQ16 := convRHF (groupWord rx 2)
    rhPctQ16 := convRHP (groupWord rx 2)
    valid := { r.valid with meas := true } }

/-- Word i is the first of the words of rx that fails its checksum (42_measurement.md R203). -/
def firstBad (rx : List Byte) (i : Nat) : Prop := groupValid rx i = false ∧ ∀ j < i, groupValid rx j = true

/-- The operand registers and BUF, which the host writes while BUSY = 0 (20_memory.md R83). -/
def operandReg : Reg → Bool
  | .devAddr | .wdata | .targetPpm | .tCmdMs | .tSsMs | .tFrcMs | .buf _ => true
  | .ctrl | .status | .cmd | .valid | .crcResult | .co2 | .tRaw | .rhRaw | .tQ16 | .rhFracQ16 | .rhPctQ16 | .convOut
  | .serialHi | .serialLo | .ascState | .frcOffset | .reserved => false

/-- The read-only registers (20_memory.md R84). -/
def readOnlyReg : Reg → Bool
  | .valid | .crcResult | .co2 | .tRaw | .rhRaw | .tQ16 | .rhFracQ16 | .rhPctQ16 | .convOut | .serialHi | .serialLo
  | .ascState | .frcOffset => true
  | .ctrl | .status | .cmd | .devAddr | .wdata | .targetPpm | .tCmdMs | .tSsMs | .tFrcMs | .buf _ | .reserved => false

/-- The bits of a register that the map defines (10_state.md R32 to R63); CMD's are those of R110. -/
def definedBits : Reg → Word
  | .ctrl => 0x3
  | .status => 0xFFFF37FF
  | .cmd => 0x00011FFF
  | .devAddr => 0x7F
  | .wdata | .targetPpm | .tCmdMs | .tSsMs | .tFrcMs => 0xFFFF
  | .valid => 0x3F
  | .crcResult | .ascState | .buf _ => 0xFF
  | .co2 | .tRaw | .rhRaw | .rhFracQ16 | .serialHi => 0xFFFF
  | .tQ16 | .rhPctQ16 | .convOut | .serialLo | .frcOffset => 0xFFFFFFFF
  | .reserved => 0

/-- The values `seq` takes while the lines run (10_state.md R67): what is left to run, a begun Wait at its place. -/
def linePositions : List Line → List (List Line)
  | [] => [[]]
  | .wait d :: r => (.wait d :: r) :: (.waiting d :: r) :: linePositions r
  | l :: r => (l :: r) :: linePositions r

/-- The values `seq` takes while op runs: FRC's warm-up body goes before its loop line. -/
def opPositions (op : Instr) (lat : Latch) : List (List Line) :=
  if opOf op = 0x43 then linePositions (warmupBody ++ frcLines lat) else linePositions (linesOf op lat)

/-- The result codes an op can complete with once accepted (60_exceptions.md R302). -/
def codesOf (op : Instr) (ascCheck : Bool) : List ErrCode :=
  match op with
  | .crcCompute _ _ | .convT _ _ | .convRhf _ _ | .convRhp _ _ => [.success]
  | .crcCheck _ _ => [.success, .checksumMismatch]
  | .busWrite _ _ | .busRead _ _ | .triggerSs _ _ | .ascSet _ _ => [.success, .transportFailure]
  | .readMeas _ _ | .measure _ _ | .readSerial _ _ => [.success, .checksumMismatch, .transportFailure]
  | .ascGet _ _ | .ascDisableQuery _ _ =>
    if ascCheck then [.success, .checksumMismatch, .transportFailure] else [.success, .transportFailure]
  | .frc _ _ =>
    [.success, .checksumMismatch, .deviceReportedFailure, .transportFailure, .calibrationPreconditionFailed]
  | .readSerialNumber | .setAscEnabled _ _ | .getAscEnabled | .measureSingleShot | .readMeasurement
  | .performFrc _ _ => []

/-- The ops that make bus transactions (R111). -/
def usesBus (op : Instr) : Bool :=
  match op with
  | .busWrite _ _ | .busRead _ _ | .triggerSs _ _ | .readMeas _ _ | .measure _ _ | .ascSet _ _ | .ascGet _ _
  | .ascDisableQuery _ _ | .frc _ _ | .readSerial _ _ => true
  | .crcCompute _ _ | .crcCheck _ _ | .convT _ _ | .convRhf _ _ | .convRhp _ _ | .readSerialNumber
  | .setAscEnabled _ _ | .getAscEnabled | .measureSingleShot | .readMeasurement | .performFrc _ _ => false

/-- The writes an op has staged when it completes with success (10_state.md R50 to R63). -/
def StagedBy (op : Instr) (ws : List StagedWrite) : Prop :=
  match op with
  | .crcCompute _ _ => ∃ v, ws = [.crcResult v, .valid .crc true]
  | .crcCheck _ _ | .busWrite _ _ | .triggerSs _ _ => ws = []
  | .busRead _ _ => ∃ bs : List Byte, bs.length ≤ 16 ∧ ws = bufWritesFrom 0 bs
  | .readMeas _ _ | .measure _ _ => ∃ w0 w1 w2, ws = commitTriplet w0 w1 w2
  | .convT _ _ | .convRhf _ _ | .convRhp _ _ => ∃ v, ws = [.convOut v, .valid .conv true]
  | .ascSet _ _ => ws = [.valid .asc false]
  | .ascGet _ _ | .ascDisableQuery _ _ => ∃ v, ws = [.ascState v, .valid .asc true]
  | .frc _ _ => ∃ v, ws = [.frcOffset v, .valid .frc true]
  | .readSerial _ _ => ∃ w0 w1 w2, ws = serialWrites w0 w1 w2
  | .readSerialNumber | .setAscEnabled _ _ | .getAscEnabled | .measureSingleShot | .readMeasurement
  | .performFrc _ _ => False

/-- A line that makes a bus transaction. -/
def Line.onBus : Line → Bool
  | .write _ _ | .read _ => true
  | .wait _ | .waiting _ | .crcCompute | .crcCheck | .storeRx | .triplet | .convT | .convRhf | .convRhp | .ascClear
  | .checkWord | .ascResult | .warmupLoop | .warmupCheck | .frcResult | .serial => false

/-- Where an op can complete without another transaction. -/
def busDoneAt (seq : List Line) : Bool := !seq.any Line.onBus || seq.head? == some .warmupCheck

/-- What holds of STATUS at every moment (10_state.md R38 to R41). -/
structure StatusInv (st : Status) : Prop where
  failWordRange : st.failWord.toNat ≤ 4
  failWordCause : st.failWord ≠ 0 → st.err = .checksumMismatch ∨ st.err = .calibrationPreconditionFailed
  tfailCause : st.tfail ≠ 0 ↔ st.err = .transportFailure
  warmupRange : st.warmupDone.toNat ≤ warmupN
  warmupCause : st.warmupDone ≠ 0 → st.lastOp = 0x43

/-- What holds while op runs. -/
structure RunInv (op : Instr) (seq : List Line) (lat : Latch) (s : State) : Prop where
  isOp : isCommand op = true
  legal : operandsLegal op = true
  latched : lat.op = opOf op ∧ lat.len = lenOf op ∧ lat.hold = holdOf op
  latchedBuf : Memory.wf lat.buf = true
  position : seq ∈ opPositions op lat
  notDone : s.status.done = false
  warmups : s.k ≤ warmupN ∧ s.stage.warmupDone = s.k
  /-- inside the warm-up body another warm-up is due -/
  inBody : .warmupLoop ∈ seq → seq.head? ≠ some .warmupLoop → s.k < warmupN
  /-- past the warm-up all 36 reads were valid (43_calibration.md R234) -/
  pastWarmup : .frcResult ∈ seq → .warmupLoop ∉ seq → s.k = warmupN
  warmupsDone : opOf op = 0x43 → seq = [] → s.stage.err = .success → s.k = warmupN
  code : s.stage.err ∈ codesOf op lat.ascCheck
  failed : s.stage.err ≠ .success → seq = []
  staged : seq = [] → s.stage.err = .success → StagedBy op s.stage.writes
  unstaged : seq ≠ [] ∨ s.stage.err ≠ .success → s.stage.writes = []
  failWord : s.stage.failWord.toNat ≤ 4
  tfail : s.stage.err = .transportFailure → s.stage.tfail ≠ 0
  /-- at the completion the bus is free, but for a held BUS_WRITE (60_exceptions.md R307) -/
  busDone : usesBus op = true → busDoneAt seq = true →
    s.bus = .free ∨ (opOf op = 0x10 ∧ holdOf op = true ∧ s.stage.err = .success)

/-- The hidden state of an idle sequencer. -/
structure IdleInv (s : State) : Prop where
  stage : s.stage = .empty
  k : s.k = 0
  rx : s.rx = []
  waitCtr : s.waitCtr = 0

/-- What holds at every moment from reset on. -/
structure Inv (s : State) : Prop where
  bufWf : Memory.wf s.buf = true
  /-- a transaction is one step -/
  busNotOwned : s.bus ≠ .owned
  statusInv : StatusInv s.status
  rxLength : s.rx.length ≤ 16
  /-- MEAS_V = 1 says that the converted registers are the conversions of the raw ones (42_measurement.md R204) -/
  measured : s.res.valid.meas = true →
    s.res.tQ16 = convT s.res.tRaw ∧ s.res.rhFracQ16 = convRHF s.res.rhRaw ∧ s.res.rhPctQ16 = convRHP s.res.rhRaw
  running : match s.phase with
    | .idle => IdleInv s
    | .busy op seq lat => RunInv op seq lat s

end Sys2Proof.Machine
end

