-- ==== Sys2Proof/Certificates/Slice0/Obligations.lean ====
section
/-! DEFINITION. The statements for the provers, from the numbered rules of spec/. A host op is followed from its
acceptance to its completion by `RunsTo`, and the state it ends in is given whole, so that everything not named stays as it
was: every register, every flag, every byte of BUF. A statement about a bus op holds for whatever the bus and the device
do within its premise on the draws (41_transport.md R180). -/

open Sys2Proof Sys2Proof.Machine

/-! ### Encoding -/

/-- Decoding the code of any instruction gives it back, at every value of its operands (30_encoding.md R110, R118, R119). -/
def Obligations.DecodeOfEncode : Prop := ∀ i : Instr, decode (encode i) = .ok i

/-- A code that decodes is the code of what it decodes to: no bit is dropped (30_encoding.md R114, R128). -/
def Obligations.EncodeOfDecode : Prop := ∀ (c : Code) (i : Instr), decode c = .ok i → encode i = c

/-- R116: the legal CMD words are 80, with their number for each op, and any other value is refused as R115 gives. -/
def Obligations.LegalWordsAreEighty : Prop :=
  ∃ l : List Word, l.Nodup ∧ l.length = 80 ∧
    (∀ op : Byte, (l.filter fun v => v.extractLsb' 0 8 == op).length =
      if op = 0x01 ∨ op = 0x11 then 16 else if op = 0x02 then 5 else if op = 0x10 then 32
      else if op ∈ assignedOps then 1 else 0) ∧
    (∀ v : Word, v ∈ l ↔ ∃ op len hold, v = cmdword op len hold ∧ op ∈ assignedOps ∧ legalFields op len hold) ∧
    (∀ v ∈ l, ∀ s : State, s.phase = .idle → ∃ i t, decodeCmd v = .ok i ∧ runCommandWord v s = .next t ∧
      t.phase = .busy i (linesOf i (latch i s)) (latch i s)) ∧
    ∀ v : Word, v ∉ l → ∀ s : State, s.phase = .idle → ∃ e,
      (e = .illegalCommand ∨ e = .illegalOperand) ∧
        runCommandWord v s = .next { s with status := { s.status with
          done := true, err := e, failWord := 0, tfail := 0, warmupDone := 0, lastOp := v.extractLsb' 0 8 } }

/-- R133. -/
def Obligations.FrameBRoundTrip : Prop :=
  ∀ c p : Half, (frameB c p)[4]? = some (crc8 [(frameB c p).getD 2 0, (frameB c p).getD 3 0])

/-- CMD words and frames as the spec's own examples write them decode to what they stand for. -/
def Obligations.SpecExamplesDecode : Prop :=
  decodeCmd 0x00000201 = .ok (.crcCompute 2 false) ∧ decodeCmd 0x00000102 = .ok (.crcCheck 1 false) ∧
  decodeCmd 0x00010210 = .ok (.busWrite 2 true) ∧ decodeCmd 0x00000911 = .ok (.busRead 9 false) ∧
  decodeCmd 0x00000022 = .ok (.measure 0 false) ∧ decodeCmd 0x00000030 = .ok (.convT 0 false) ∧
  decodeCmd 0x00000043 = .ok (.frc 0 false) ∧ decodeCmd 0x00000050 = .ok (.readSerial 0 false) ∧
  decodeCmd 0x00000000 = .error .unassignedOp ∧
  decodeFrame [0x36, 0x82] = .ok .readSerialNumber ∧
  decodeFrame [0x24, 0x16, 0x00, 0x01, 0xB0] = .ok (.setAscEnabled 0x0001 0xB0) ∧
  decodeFrame [0x36, 0x2F, 0x01, 0x9F, 0x62] = .ok (.performFrc 0x019F 0x62)

/-! ### The CRC unit and the converter -/

/-- R154. -/
def Obligations.CrcResidueIsZero : Prop :=
  (∀ s : List Byte, s ≠ [] → crc8 (s ++ [crc8 s]) = 0) ∧
    ∀ h l c : Byte, validWord h l c = true ↔ crc8 [h, l, c] = 0

/-- R206: convT is exact and in its range. -/
def Obligations.ConvTIsExact : Prop :=
  ∀ raw : Half,
    convT raw = BitVec.ofInt 32 ((175 * (raw.toNat : Int) - 2949120) % 2 ^ 32) ∧
    ((convT raw).toInt : ℚ) / 65536 = -45 + 175 * (raw.toNat : ℚ) / 65536 ∧
    -2949120 ≤ (convT raw).toInt ∧ (convT raw).toInt ≤ 8519505 ∧
    -(2 ^ 24) ≤ (convT raw).toInt ∧ (convT raw).toInt < 2 ^ 24

/-- R207 and R208: the humidity conversions are exact and in their ranges. -/
def Obligations.HumidityIsExact : Prop :=
  ∀ raw : Half,
    convRHF raw = raw ∧ ((convRHF raw).toNat : ℚ) / 65536 < 1 ∧
    (convRHP raw).toNat = 100 * raw.toNat ∧
    ((convRHP raw).toNat : ℚ) / 65536 = 100 * (((convRHF raw).toNat : ℚ) / 65536) ∧
    (convRHP raw).toNat ≤ 6553500 ∧ (convRHP raw).extractLsb' 23 9 = 0

/-- 42_measurement.md R212: each conversion is strictly increasing in raw. -/
def Obligations.ConversionsIncrease : Prop :=
  ∀ a b : Half, a.toNat < b.toNat →
    (convT a).toInt < (convT b).toInt ∧ (convRHF a).toNat < (convRHF b).toNat ∧ (convRHP a).toNat < (convRHP b).toNat

/-- R235: the offset of an answer that is not the sentinel, and the source's example. -/
def Obligations.OffsetIsExact : Prop :=
  (∀ w : Half, w ≠ 0xFFFF → offset16 w = BitVec.ofInt 16 (((w.toNat : Int) - 0x8000) % 2 ^ 16) ∧
    (offset16 w).toInt = (w.toNat : Int) - 32768) ∧
  (offset16 0x8032).toInt = 50

/-! ### The host port -/

/-- 20_memory.md R81: a 4-byte aligned access inside the window reaches its register; any other one is answered with a
bus error and changes nothing (log 7: also one outside the window). -/
def Obligations.AccessesAreWholeWords : Prop :=
  ∀ (addr n : Nat) (v : Word) (s : State),
    (n = 4 ∧ addr % 4 = 0 ∧ Config.sibBase ≤ addr ∧ addr < Config.sibBase + 256 →
      serveAccess (memRead addr n) s =
          s.respond (.data (readReg (regOfWord ((addr - Config.sibBase) / 4)) s)) ∧
        serveAccess (memWrite addr n v) s =
          (writeReg (regOfWord ((addr - Config.sibBase) / 4)) v s).respond .ok) ∧
    (¬ (n = 4 ∧ addr % 4 = 0 ∧ Config.sibBase ≤ addr ∧ addr < Config.sibBase + 256) →
      serveAccess (memRead addr n) s = s.respond .busError ∧
        serveAccess (memWrite addr n v) s = s.respond .busError)

/-- R64: reserved offsets and reserved bits read 0, and writes to them do nothing, BUSY or not. CMD's reserved bits are
another matter (R114): CMD reads 0, and a value written to it is a command. -/
def Obligations.ReservedReadsZero : Prop :=
  (∀ w : Nat, 22 ≤ w ∧ w ≤ 31 ∨ 48 ≤ w ∧ w ≤ 63 → ∀ (v : Word) (s : State),
    serveAccess (.read (4 * w : Nat) 4) s = s.respond (.data 0) ∧
      serveAccess (.write (4 * w : Nat) 4 v) s = s.respond .ok) ∧
  ∀ (r : Reg) (s : State), readReg r s &&& ~~~ definedBits r = 0 ∧
    (r ≠ .cmd → ∀ v : Word, writeReg r v s = writeReg r (v &&& definedBits r) s)

/-- R82. -/
def Obligations.ReadsHaveNoSideEffect : Prop :=
  ∀ (off : Int) (size : Nat) (s : State), ∃ r : Response,
    serveAccess (.read off size) s = s.respond r ∧
      serveAccess (.read off size) (s.respond r) = (s.respond r).respond r ∧
      (off = 0x08 → size = 4 → r = .data 0)

/-- R83: the three host writes with a side effect, and the stores of the operand registers and BUF. -/
def Obligations.HostWritesHaveTheirEffect : Prop :=
  ∀ (s : State) (v : Word),
    (∀ u, s.busy = false → s.env.cycle.rstN = true → CommandWritten s v u → step s = runCommandWord v u) ∧
    serveAccess (.write 0x04 4 v) s = State.respond { s with status := { s.status with
      done := s.status.done && !v.getLsbD 1, overrun := s.status.overrun && !v.getLsbD 2 } } .ok ∧
    serveAccess (.write 0x00 4 v) s =
      State.respond { s with ctrl := { irqEn := v.getLsbD 0, ascCheck := v.getLsbD 1 } } .ok ∧
    (s.busy = false → Memory.wf s.buf = true → ∀ w < 64, operandReg (regOfWord w) = true →
      ∃ t, serveAccess (.write (4 * w : Nat) 4 v) s = State.respond t .ok ∧
        t = { s with oper := t.oper, buf := t.buf } ∧
        readReg (regOfWord w) t = v &&& definedBits (regOfWord w) ∧
        ∀ r, r ≠ regOfWord w → readReg r t = readReg r s)

/-- R84. -/
def Obligations.ReadOnlyWritesAreIgnored : Prop :=
  ∀ (r : Reg) (v : Word) (s : State),
    (readOnlyReg r = true → writeReg r v s = s) ∧
    (∃ dn ov, writeReg .status v s = { s with status := { s.status with done := dn, overrun := ov } } ∧
      (ov = true → s.status.overrun = true))

/-- R86: what a host write does while BUSY = 1; a dropped one leaves the running op as it was. -/
def Obligations.BusyWritesAreDropped : Prop :=
  ∀ (r : Reg) (v : Word) (s : State), s.busy = true →
    (r = .cmd ∨ operandReg r = true → writeReg r v s = { s with status := { s.status with overrun := true } }) ∧
    writeReg .ctrl v s = { s with ctrl := { irqEn := v.getLsbD 0, ascCheck := v.getLsbD 1 } } ∧
    writeReg .status v s = { s with status := { s.status with
      done := s.status.done && !v.getLsbD 1, overrun := s.status.overrun && !v.getLsbD 2 } } ∧
    (readOnlyReg r = true ∨ r = .reserved → writeReg r v s = s) ∧
    commandOf (some (.write 0x08 4 v)) s = none ∧
    ∀ op seq lat t, s.phase = .busy op seq lat → isCommand op = true → exec op s = .next t →
      exec op { s with status := { s.status with overrun := true } } =
        .next { t with status := { t.status with overrun := true } }

/-- 10_state.md R34 to R42: the fields of STATUS, where the map puts them, and STATUS at its offset. ERR is the number that
60_exceptions.md R300 gives the result. -/
def Obligations.StatusLayout : Prop :=
  ∀ s : State, HostReads s 0x04 (readReg .status s) ∧
    (readReg .status s).getLsbD 0 = s.busy ∧ (readReg .status s).getLsbD 1 = s.status.done ∧
    (readReg .status s).getLsbD 2 = s.status.overrun ∧ ((readReg .status s).getLsbD 3 = true ↔ s.bus = .held) ∧
    (readReg .status s).extractLsb' 4 4 = (match s.status.err with
      | .success => 0 | .checksumMismatch => 1 | .deviceReportedFailure => 2 | .transportFailure => 3
      | .calibrationPreconditionFailed => 4 | .illegalCommand => 5 | .illegalOperand => 6) ∧
    (readReg .status s).extractLsb' 8 3 = s.status.failWord ∧ (readReg .status s).getLsbD 11 = false ∧
    (readReg .status s).extractLsb' 12 2 = s.status.tfail ∧ (readReg .status s).extractLsb' 14 2 = 0 ∧
    (readReg .status s).extractLsb' 16 8 = s.status.warmupDone ∧ (readReg .status s).extractLsb' 24 8 = s.status.lastOp

/-- 20_memory.md R92: a read in any cycle, a completion's too, gives the register wholly from before or wholly from after it.
Of two accesses in one cycle (R94, log 30) the later one finds the other performed, and the earlier one finds it not. -/
def Obligations.ReadsAreSingleCopyAtomic : Prop :=
  ∀ (s : State) (w : Nat), Inv s → w < 64 → s.env.cycle.rstN = true →
    (s.env.cycle.access = some (.read (4 * w : Nat) 4) →
      ∃ t v, step s = .next t ∧
        t.env.responses = (servePort (beforeAccess s.env.cycle s) s).env.responses ++ [.data v] ∧
        (v = readReg (regOfWord w) (servePort (beforeAccess s.env.cycle s) s) ∨ v = readReg (regOfWord w) t) ∧
        (beforeAccess s.env.cycle s = none →
          t.env.responses = s.env.responses ++ [.data v] ∧
            (v = readReg (regOfWord w) s ∨ v = readReg (regOfWord w) t))) ∧
    (beforeAccess s.env.cycle s = some (.read (4 * w : Nat) 4) →
      ∃ t rest, step s = .next t ∧ t.env.responses = s.env.responses ++ .data (readReg (regOfWord w) s) :: rest)

/-- 10_state.md R35, R36, 60_exceptions.md R311: a completion in the cycle of a W1C of DONE wins, an op's or an illegal
command's (R305), and so does a dropped write in the cycle of a W1C of OVERRUN, whichever access the port performs first (two
accesses in one cycle: log 30; that a write in the cycle of an op's completion is dropped: log 9). -/
def Obligations.CompletionBeatsAcknowledge : Prop :=
  (∀ (s : State) (op : Instr) (lat : Latch) (v : Word), s.phase = .busy op [] lat → isCommand op = true →
    s.env.cycle.rstN = true → s.env.cycle.stall = false →
    (s.env.cycle.access = some (.write 0x04 4 v) ∨ s.env.cycle.before = some (.write 0x04 4 v)) →
    ∃ t, step s = .next t ∧ t.busy = false ∧ t.status.done = true) ∧
  (∀ (s : State) (v x : Word), s.phase = .idle → s.env.cycle.rstN = true →
    (∀ i, decodeCmd v = .ok i → operandsLegal i = false) →
    (s.env.cycle.before = some (.write 0x08 4 v) ∧ s.env.cycle.access = some (.write 0x04 4 x) ∨
      s.env.cycle.before = some (.write 0x04 4 x) ∧ s.env.cycle.access = some (.write 0x08 4 v)) →
    ∃ t, step s = .next t ∧ t.busy = false ∧ t.status.done = true ∧ t.status.lastOp = v.extractLsb' 0 8 ∧
      t.env.responses = s.env.responses ++ [.ok, .ok]) ∧
  ∀ (s : State) (op : Instr) (seq : List Line) (lat : Latch) (v x : Word) (w : Nat), s.phase = .busy op seq lat →
    isCommand op = true → s.env.cycle.rstN = true → (2 ≤ w ∧ w ≤ 8 ∨ 32 ≤ w ∧ w ≤ 47) →
    (s.env.cycle.before = some (.write (4 * w : Nat) 4 x) ∧ s.env.cycle.access = some (.write 0x04 4 v) ∨
      s.env.cycle.before = some (.write 0x04 4 v) ∧ s.env.cycle.access = some (.write (4 * w : Nat) 4 x)) →
    ∃ t, step s = .next t ∧ t.status.overrun = true ∧ t.oper = s.oper ∧
      t.env.responses = s.env.responses ++ [.ok, .ok]

/-- 60_exceptions.md R312: when irq rises and when it falls. -/
def Obligations.IrqFollowsDone : Prop :=
  ∀ s t : State, Inv s → s.env.cycle.rstN = true → step s = .next t →
    t.irq = (t.status.done && t.ctrl.irqEn) ∧
    (s.busy = true → t.busy = false → t.irq = t.ctrl.irqEn) ∧
    (∀ v u, s.busy = false → CommandWritten s v u → t.irq = (if t.busy then false else t.ctrl.irqEn)) ∧
    (∀ v, s.busy = false → s.env.cycle.access = some (.write 0x04 4 v) → v.getLsbD 1 = true →
      (∀ x, s.env.cycle.before ≠ some (.write 0x08 4 x)) → t.irq = false)

/-! ### Acceptance -/

/-- R115, whole: what a value v written to CMD while BUSY = 0 does, in the cycle of the write; u is the block with the
host's writes of the cycle done. -/
def Obligations.CommandAcceptance : Prop :=
  ∀ (s : State) (v : Word) (u : State), s.phase = .idle → s.env.cycle.rstN = true → CommandWritten s v u →
    ((v.extractLsb' 0 8 ∉ assignedOps ∨ v.extractLsb' 13 3 ≠ 0 ∨ v.extractLsb' 17 15 ≠ 0) →
      step s = .next { u with status := { u.status with
        done := true, err := .illegalCommand, failWord := 0, tfail := 0, warmupDone := 0
        lastOp := v.extractLsb' 0 8 } }) ∧
    (v.extractLsb' 0 8 ∈ assignedOps → v.extractLsb' 13 3 = 0 → v.extractLsb' 17 15 = 0 →
      ¬ legalFields (v.extractLsb' 0 8) (v.extractLsb' 8 5) (v.getLsbD 16) →
      step s = .next { u with status := { u.status with
        done := true, err := .illegalOperand, failWord := 0, tfail := 0, warmupDone := 0
        lastOp := v.extractLsb' 0 8 } }) ∧
    (v.extractLsb' 0 8 ∈ assignedOps → v.extractLsb' 13 3 = 0 → v.extractLsb' 17 15 = 0 →
      legalFields (v.extractLsb' 0 8) (v.extractLsb' 8 5) (v.getLsbD 16) →
      ∃ i, decodeCmd v = .ok i ∧ opOf i = v.extractLsb' 0 8 ∧ lenOf i = v.extractLsb' 8 5 ∧ holdOf i = v.getLsbD 16 ∧
        step s = .next { u with
          status := { u.status with done := false }
          phase := .busy i (linesOf i (latch i s)) (latch i s)
          stage := .empty, k := 0, rx := [], waitCtr := 0 })

/-- 10_state.md R68: a legal command starts with its operands latched, and changes nothing but DONE and the sequencer. -/
def Obligations.LegalCommandLatchesOperands : Prop :=
  ∀ (i : Instr) (s : State), isCommand i = true → legalFields (opOf i) (lenOf i) (holdOf i) → s.phase = .idle →
    ∃ lat : Latch,
      exec i s = .next { s with
        status := { s.status with done := false }
        phase := .busy i (linesOf i lat) lat
        stage := .empty, k := 0, rx := [], waitCtr := 0 } ∧
      lat.op = opOf i ∧ lat.len = lenOf i ∧ lat.hold = holdOf i ∧ lat.addr = s.oper.devAddr ∧
      lat.wdata = s.oper.wdata ∧ lat.ppm = s.oper.targetPpm ∧ lat.tCmdMs = s.oper.tCmdMs ∧
      lat.tSsMs = s.oper.tSsMs ∧ lat.tFrcMs = s.oper.tFrcMs ∧ lat.ascCheck = s.ctrl.ascCheck ∧
      (opOf i = 0x01 ∨ opOf i = 0x02 ∨ opOf i = 0x10 → lat.buf = s.buf)

/-- 30_encoding.md R112, R113, R115; 60_exceptions.md R305: a command with an illegal LEN or HOLD completes at once. -/
def Obligations.IllegalOperandIsRefused : Prop :=
  ∀ (i : Instr) (s : State), isCommand i = true → ¬ legalFields (opOf i) (lenOf i) (holdOf i) → s.phase = .idle →
    exec i s = .next { s with status := { s.status with
      done := true, err := .illegalOperand, failWord := 0, tfail := 0, warmupDone := 0, lastOp := opOf i } }

/-- 20_memory.md R96, 10_state.md R31: a running op reads no live operand register, no live CTRL bit and, until its
completion stores a BUS_READ's bytes there, no live BUF. -/
def Obligations.RunningOpReadsOnlyLatch : Prop :=
  ∀ (op : Instr) (seq : List Line) (lat : Latch) (s t : State) (o : OperandRegs) (c : Ctrl), isCommand op = true →
    s.phase = .busy op seq lat → exec op s = .next t →
    exec op { s with oper := o, ctrl := c } = .next { t with oper := o, ctrl := c } ∧
    (seq ≠ [] → ∀ m : Memory,
      exec op { s with oper := o, ctrl := c, buf := m } = .next { t with oper := o, ctrl := c, buf := m })

/-! ### The step -/

/-- A step runs the decoded instruction. In a cycle with rst_n = 1: a CMD write to an idle block runs the instruction its
value decodes to, after the host's writes; with no command, an idle block does what the host's access does; else the
sequencer runs the instruction it is at, between the host accesses served before it and the read served after it, unless
the line takes longer than the cycle; at a write that decodes as a wire command that instruction is the wire command. -/
def Obligations.StepRunsTheInstruction : Prop :=
  (∀ (s : State) (v : Word) (u : State) (i : Instr), s.phase = .idle → s.env.cycle.rstN = true →
    CommandWritten s v u → decodeCmd v = .ok i → step s = exec i u) ∧
  (∀ s : State, s.phase = .idle → s.env.cycle.rstN = true → (∀ v u, ¬ CommandWritten s v u) →
    step s = .next (servePort s.env.cycle.access s.takeCycle)) ∧
  (∀ (s : State) (i : Instr), s.env.cycle.rstN = true → currentInstr s = some i →
    (s.env.cycle.stall = false ∨ s.inWait = true →
      step s = serveLate s.env.cycle (exec i (serveEarly s.env.cycle s.takeCycle))) ∧
    (s.env.cycle.stall = true → s.inWait = false →
      step s = serveLate s.env.cycle (.next (serveEarly s.env.cycle s.takeCycle))) ∧
    (∀ off size v, s.env.cycle.before = none → s.env.cycle.access = some (.write off size v) →
      step s = (if s.env.cycle.stall = true ∧ s.inWait = false
        then .next (serveAccess (.write off size v) s.takeCycle)
        else exec i (serveAccess (.write off size v) s.takeCycle)))) ∧
  (∀ (s : State) (op f : Instr) (bytes : List Byte) (hold : Bool) (rest : List Line) (lat : Latch),
    s.phase = .busy op (.write bytes hold :: rest) lat → decodeFrame bytes = .ok f → opOf op ≠ 0x10 →
    hold = wireHold f → currentInstr s = some f)

/-- In a cycle with nothing in it, the block takes exec's step of the running op, whichever layer sends its frames. -/
def Obligations.QuietStepRunsTheOp : Prop :=
  ∀ (s : State) (op : Instr) (seq : List Line) (lat : Latch), isCommand op = true → s.phase = .busy op seq lat →
    s.env.cycle = {} → step s = exec op s.takeCycle

/-- No step from a state that meets the invariant ends in a fault or a refusal (10_state.md R67). -/
def Obligations.StepNeverStops : Prop := ∀ s : State, Inv s → ∃ t, step s = .next t

/-- Every step keeps the invariant. -/
def Obligations.StepKeepsInv : Prop := ∀ s t : State, Inv s → step s = .next t → Inv t

def Obligations.ResetSatisfiesInv : Prop := Inv State.reset

/-- R71: what every register reads right after reset, and the hidden state. -/
def Obligations.ResetValues : Prop :=
  readReg .ctrl State.reset = 0 ∧ readReg .status State.reset = 0 ∧ readReg .cmd State.reset = 0 ∧
  readReg .devAddr State.reset = 0x62 ∧ readReg .wdata State.reset = 0 ∧ readReg .targetPpm State.reset = 0x019F ∧
  readReg .tCmdMs State.reset = 1 ∧ readReg .tSsMs State.reset = 5000 ∧ readReg .tFrcMs State.reset = 400 ∧
  readReg .valid State.reset = 0 ∧ readReg .crcResult State.reset = 0 ∧ readReg .co2 State.reset = 0 ∧
  readReg .tRaw State.reset = 0 ∧ readReg .rhRaw State.reset = 0 ∧ readReg .tQ16 State.reset = 0 ∧
  readReg .rhFracQ16 State.reset = 0 ∧ readReg .rhPctQ16 State.reset = 0 ∧ readReg .convOut State.reset = 0 ∧
  readReg .serialHi State.reset = 0 ∧ readReg .serialLo State.reset = 0 ∧ readReg .ascState State.reset = 0 ∧
  readReg .frcOffset State.reset = 0 ∧ (∀ i < 16, readReg (.buf i) State.reset = 0) ∧
  State.reset.phase = .idle ∧ State.reset.stage = ⟨[], .success, 0, 0, 0⟩ ∧ State.reset.k = 0 ∧
  State.reset.rx = [] ∧ State.reset.waitCtr = 0 ∧ State.reset.bus = .free ∧ State.reset.irq = false

/-- 70_reset_and_hazards.md R340, R342: a cycle with rst_n = 0 gives every piece of the block's state its reset value,
whatever else happens in it; an access gets a bus error; the lines, if not free, are let go. That no STOP is among what the
pins carry then, that a transaction is cut after whole bytes as its draw answers them, and that it uses its draw, is log
17's choice: R342 says only that no STOP is guaranteed. Where no transaction is cut, no draw is used and the pins carry at
most the release. -/
def Obligations.ResetOverridesEverything : Prop :=
  ∀ s : State, s.env.cycle.rstN = false →
    step s = .next { State.reset with env := { resetDraw s.env.cycle.cut s with
        inputs := s.env.inputs.tail
        trace := s.env.trace ++ resetEvents s.env.cycle.cut s
        responses := s.env.responses ++ (if s.env.cycle.access = none then [] else [.busError]) } } ∧
    BusEvent.stop ∉ resetEvents s.env.cycle.cut s ∧
    (s.bus ≠ .free → (resetEvents s.env.cycle.cut s).getLast? = some .release) ∧
    ((∀ op l rest lat, s.phase = .busy op (l :: rest) lat → l.onBus = true → s.env.cycle.cut = none) →
      resetDraw s.env.cycle.cut s = s.env ∧
      resetEvents s.env.cycle.cut s = if s.bus = .free then [] else [.release]) ∧
    ∀ op l rest lat m, s.phase = .busy op (l :: rest) lat → s.env.cycle.cut = some m →
      (∀ bytes hold, l = .write bytes hold →
        resetDraw s.env.cycle.cut s = s.env.useDraw ∧
        resetEvents s.env.cycle.cut s = openEvents s.bus s.env.draw ++
          (writeCarries s.bus (addrByte lat.addr false :: bytes) s.env.draw).take m ++
          if s.bus = .free ∧ s.env.draw.busIdle = false then [] else [.release]) ∧
      (∀ n, l = .read n →
        resetDraw s.env.cycle.cut s = s.env.useDraw ∧
        resetEvents s.env.cycle.cut s = openEvents s.bus s.env.draw ++
          (readCarries s.bus lat.addr n s.env.draw).take m ++
          if s.bus = .free ∧ s.env.draw.busIdle = false then [] else [.release])

/-- 41_transport.md R183: a Wait of 0 ms is over at once, else wait_ctr is set; a running Wait ends when wait_ctr has
counted down and not before, whatever the host does, and the bus is left as it is. -/
def Obligations.WaitRunsToItsEnd : Prop :=
  ∀ (op : Instr) (d : Delay) (rest : List Line) (lat : Latch) (s : State), isCommand op = true →
    (s.phase = .busy op (.wait d :: rest) lat →
      exec op s = .next (if delayMs lat d = 0 then { s with phase := .busy op rest lat }
        else { s with
          waitCtr := (delayMs lat d).toNat * Config.cyclesPerMs
          phase := .busy op (.waiting d :: rest) lat })) ∧
    (∀ n, s.phase = .busy op (.waiting d :: rest) lat → s.waitCtr = n + 1 →
      (∀ c ∈ s.env.inputs.take (n + 1), c.rstN = true) →
      (∀ m ≤ n, ∃ u, stepTimes m s = .next u ∧ u.phase = .busy op (.waiting d :: rest) lat ∧
        u.waitCtr = n + 1 - m ∧ u.bus = s.bus ∧ u.env.trace = s.env.trace) ∧
      ∃ t, stepTimes (n + 1) s = .next t ∧ t.phase = .busy op rest lat ∧ t.bus = s.bus ∧
        t.env.trace = s.env.trace)

/-- 41_transport.md R173: nothing but a transaction or a reset changes the bus; no timer releases a held one. -/
def Obligations.OnlyTransactionsChangeTheBus : Prop :=
  ∀ s t : State, Inv s → s.env.cycle.rstN = true → step s = .next t →
    (∀ op l rest lat, s.phase = .busy op (l :: rest) lat → l.onBus = false) →
    t.bus = s.bus ∧ t.env.trace = s.env.trace

/-! ### The wire commands -/

/-- 30_encoding.md R122 to R127: READ_SERIAL_NUMBER, SET_ASC_ENABLED, GET_ASC_ENABLED, MEASURE_SINGLE_SHOT,
READ_MEASUREMENT and PERFORM_FRC each put their own bytes on the wire, all of them acknowledged, and end with hold or STOP;
nothing else changes. -/
def Obligations.WireCommandIsSent : Prop :=
  ∀ (f op : Instr) (bytes : List Byte) (hold : Bool) (rest : List Line) (lat : Latch) (s : State),
    wireForm f bytes hold → s.phase = .busy op (.write bytes hold :: rest) lat → drawOk s.bus s.env.draw →
    exec f s = .next { s.afterBus 1 (writeEvents s.bus s.env.draw lat.addr bytes hold)
        (if hold then .held else .free) with phase := .busy op rest lat }

/-- 41_transport.md R171, R175 to R177: a wire command whose transaction fails carries its bytes up to the failure and the
clean-up, a STOP only where the master drives the bus, frees the bus and leaves the op nothing but its failed completion to
run. After a NACK no byte follows. That the master drives no bus that never went idle is log 29's inference. -/
def Obligations.WireCommandFails : Prop :=
  ∀ (f op : Instr) (bytes : List Byte) (hold : Bool) (rest : List Line) (lat : Latch) (s : State) (k : FailKind),
    wireForm f bytes hold → s.phase = .busy op (.write bytes hold :: rest) lat →
    drawFailure s.bus s.env.draw = some k →
    exec f s = .next { s.afterBus 1 (openEvents s.bus s.env.draw ++
        (failedWriteEvents s.bus (addrByte lat.addr false :: bytes) k s.env.draw ++
          [if k = .bus ∨ s.env.draw.sclLow = true ∨ (s.bus = .free ∧ s.env.draw.busIdle = false)
            then .release else .stop])) .free with
      phase := .busy op [] lat
      stage := { s.stage with writes := [], err := .transportFailure, failWord := 0, tfail := tfailCode k } } ∧
    (k = .nack → ∃ m ≤ bytes.length,
      failedWriteEvents s.bus (addrByte lat.addr false :: bytes) k s.env.draw =
        ackedBytes ((addrByte lat.addr false :: bytes).take m) ++
          [.sent ((addrByte lat.addr false :: bytes).getD m 0) false])

/-- The model's own stop (log 18), which no step reaches: a wire command where no running op sends it. -/
def Obligations.WireCommandNeedsItsOp : Prop :=
  ∀ (f : Instr) (s : State), isCommand f = false →
    (∀ op rest lat, s.phase ≠ .busy op (.write (encodeFrame f) (wireHold f) :: rest) lat) →
    exec f s = .fault .wireCommandOutsideOp

/-! ### The ops, from acceptance to completion -/

/-- CRC_COMPUTE (40_checksum.md R155). -/
def Obligations.CrcComputeResult : Prop :=
  ∀ (s : State) (len : BitVec 5), s.phase = .idle → 1 ≤ len.toNat → len.toNat ≤ 16 →
    RunsTo (.crcCompute len false) s { s.completed 0x01 .success 0 0 0 with
      res := { s.res with
        crcResult := crc8 ((List.range len.toNat).map fun i => s.buf.read i)
        valid := { s.res.valid with crc := true } } }

/-- CRC_CHECK (40_checksum.md R156), in its two outcomes. -/
def Obligations.CrcCheckResult : Prop :=
  ∀ (s : State) (len : BitVec 5), s.phase = .idle → 1 ≤ len.toNat → len.toNat ≤ 5 →
    ((∀ i < len.toNat, validWord (s.buf.read (3 * i)) (s.buf.read (3 * i + 1)) (s.buf.read (3 * i + 2)) = true) →
      RunsTo (.crcCheck len false) s (s.completed 0x02 .success 0 0 0)) ∧
    ∀ i < len.toNat,
      validWord (s.buf.read (3 * i)) (s.buf.read (3 * i + 1)) (s.buf.read (3 * i + 2)) = false →
      (∀ j < i, validWord (s.buf.read (3 * j)) (s.buf.read (3 * j + 1)) (s.buf.read (3 * j + 2)) = true) →
      RunsTo (.crcCheck len false) s (s.completed 0x02 .checksumMismatch (BitVec.ofNat 3 i) 0 0)

/-- CONV_T, CONV_RHF and CONV_RHP (42_measurement.md R209 to R211). -/
def Obligations.ConverterResults : Prop :=
  ∀ s : State, s.phase = .idle →
    RunsTo (.convT 0 false) s { s.completed 0x30 .success 0 0 0 with
      res := { s.res with
        convOut := BitVec.ofInt 32 (175 * (s.oper.wdata.toNat : Int) - 2949120)
        valid := { s.res.valid with conv := true } } } ∧
    RunsTo (.convRhf 0 false) s { s.completed 0x31 .success 0 0 0 with
      res := { s.res with
        convOut := BitVec.ofNat 32 s.oper.wdata.toNat
        valid := { s.res.valid with conv := true } } } ∧
    RunsTo (.convRhp 0 false) s { s.completed 0x32 .success 0 0 0 with
      res := { s.res with
        convOut := BitVec.ofNat 32 (100 * s.oper.wdata.toNat)
        valid := { s.res.valid with conv := true } } }

/-- BUS_WRITE (41_transport.md R181), when its transaction is Ok. -/
def Obligations.BusWriteResult : Prop :=
  ∀ (s : State) (len : BitVec 5) (hold : Bool), s.phase = .idle → 1 ≤ len.toNat → len.toNat ≤ 16 →
    drawOk s.bus (s.env.drawAt 0) →
    RunsTo (.busWrite len hold) s
      ((s.afterBus 1
        (writeEvents s.bus (s.env.drawAt 0) s.oper.devAddr ((List.range len.toNat).map fun i => s.buf.read i) hold)
        (if hold then .held else .free)).completed 0x10 .success 0 0 0)

/-- BUS_READ (41_transport.md R182), when its transaction is Ok: BUF[0..LEN-1] are the bytes read, the rest of BUF is
unchanged, and BUF keeps its canonical form. -/
def Obligations.BusReadResult : Prop :=
  ∀ (s : State) (len : BitVec 5), s.phase = .idle → 1 ≤ len.toNat → len.toNat ≤ 16 → Memory.wf s.buf = true →
    drawOk s.bus (s.env.drawAt 0) →
    ∃ m : Memory,
      RunsTo (.busRead len false) s { (s.afterBus 1
          (readEvents s.bus (s.env.drawAt 0) s.oper.devAddr len.toNat) .free).completed 0x11 .success 0 0 0 with
        buf := m } ∧
      (∀ j < len.toNat, m.read j = (readBytes len.toNat (s.env.drawAt 0)).getD j 0) ∧
      (∀ j, len.toNat ≤ j → m.read j = s.buf.read j) ∧ Memory.wf m = true

/-- TRIGGER_SS (42_measurement.md R200), when its transaction is Ok. -/
def Obligations.TriggerSsResult : Prop :=
  ∀ s : State, s.phase = .idle → drawOk s.bus (s.env.drawAt 0) →
    RunsTo (.triggerSs 0 false) s
      ((s.afterBus 1 (writeEvents s.bus (s.env.drawAt 0) s.oper.devAddr [0x21, 0x9D] false) .free).completed
        0x20 .success 0 0 0)

/-- READ_MEAS (42_measurement.md R201, R203 to R205), when its transactions are Ok: a triplet whose words are all valid is
committed, and any other leaves every measurement register as it was. -/
def Obligations.ReadMeasResult : Prop :=
  ∀ s : State, s.phase = .idle → drawOk s.bus (s.env.drawAt 0) → drawOk .held (s.env.drawAt 1) →
    ((∀ i < 3, groupValid (readBytes 9 (s.env.drawAt 1)) i = true) →
      RunsTo (.readMeas 0 false) s
        { (s.afterBus 2 (queryEvents s.bus s.env 0 s.oper.devAddr 0xec05 9) .free).completed 0x21 .success 0 0 0 with
          res := withTriplet s.res (readBytes 9 (s.env.drawAt 1)) }) ∧
    ∀ i < 3, firstBad (readBytes 9 (s.env.drawAt 1)) i →
      RunsTo (.readMeas 0 false) s
        { (s.afterBus 2 (queryEvents s.bus s.env 0 s.oper.devAddr 0xec05 9) .free).completed
            0x21 .checksumMismatch (BitVec.ofNat 3 i) 0 0 with
          res := { s.res with valid := { s.res.valid with meas := false } } }

/-- MEASURE (42_measurement.md R202 to R205), when its transactions are Ok. -/
def Obligations.MeasureResult : Prop :=
  ∀ s : State, s.phase = .idle → measureOk s.bus s.env 0 →
    ((∀ i < 3, groupValid (readBytes 9 (s.env.drawAt 2)) i = true) →
      RunsTo (.measure 0 false) s
        { (s.afterBus 3 (measureEvents s.bus s.env 0 s.oper.devAddr) .free).completed 0x22 .success 0 0 0 with
          res := withTriplet s.res (readBytes 9 (s.env.drawAt 2)) }) ∧
    ∀ i < 3, firstBad (readBytes 9 (s.env.drawAt 2)) i →
      RunsTo (.measure 0 false) s
        { (s.afterBus 3 (measureEvents s.bus s.env 0 s.oper.devAddr) .free).completed
            0x22 .checksumMismatch (BitVec.ofNat 3 i) 0 0 with
          res := { s.res with valid := { s.res.valid with meas := false } } }

/-- ASC_SET (43_calibration.md R230), when its transaction is Ok: WDATA is sent with its checksum, and ASC_V falls. -/
def Obligations.AscSetResult : Prop :=
  ∀ s : State, s.phase = .idle → drawOk s.bus (s.env.drawAt 0) →
    RunsTo (.ascSet 0 false) s
      { (s.afterBus 1 (writeEvents s.bus (s.env.drawAt 0) s.oper.devAddr
          [0x24, 0x16, hi s.oper.wdata, lo s.oper.wdata, crc8 [hi s.oper.wdata, lo s.oper.wdata]] false)
          .free).completed 0x40 .success 0 0 0 with
        res := { s.res with valid := { s.res.valid with asc := false } } }

/-- ASC_GET (43_calibration.md R231), when its transactions are Ok: two bytes unchecked, or with ASC_CHECK a checked
word; byte 1 of the response is the result. -/
def Obligations.AscGetResult : Prop :=
  ∀ (s : State) (n : Nat), s.phase = .idle → n = (if s.ctrl.ascCheck then 3 else 2) →
    drawOk s.bus (s.env.drawAt 0) → drawOk .held (s.env.drawAt 1) →
    ((s.ctrl.ascCheck = true → groupValid (readBytes n (s.env.drawAt 1)) 0 = true) →
      RunsTo (.ascGet 0 false) s
        { (s.afterBus 2 (queryEvents s.bus s.env 0 s.oper.devAddr 0x2313 n) .free).completed 0x41 .success 0 0 0 with
          res := { s.res with
            ascState := (readBytes n (s.env.drawAt 1)).getD 1 0
            valid := { s.res.valid with asc := true } } }) ∧
    (s.ctrl.ascCheck = true → groupValid (readBytes n (s.env.drawAt 1)) 0 = false →
      RunsTo (.ascGet 0 false) s
        { (s.afterBus 2 (queryEvents s.bus s.env 0 s.oper.devAddr 0x2313 n) .free).completed
            0x41 .checksumMismatch 0 0 0 with
          res := { s.res with valid := { s.res.valid with asc := false } } })

/-- ASC_DISABLE_QUERY (43_calibration.md R232), when its transactions are Ok: 0x0000 is sent with its checksum 0x81 and a
STOP, and then the state is read as ASC_GET reads it. -/
def Obligations.AscDisableQueryResult : Prop :=
  ∀ (s : State) (n : Nat), s.phase = .idle → n = (if s.ctrl.ascCheck then 3 else 2) →
    drawOk s.bus (s.env.drawAt 0) → drawOk .free (s.env.drawAt 1) → drawOk .held (s.env.drawAt 2) →
    ((s.ctrl.ascCheck = true → groupValid (readBytes n (s.env.drawAt 2)) 0 = true) →
      RunsTo (.ascDisableQuery 0 false) s
        { (s.afterBus 3 (writeEvents s.bus (s.env.drawAt 0) s.oper.devAddr [0x24, 0x16, 0x00, 0x00, 0x81] false ++
            queryEvents .free s.env 1 s.oper.devAddr 0x2313 n) .free).completed 0x42 .success 0 0 0 with
          res := { s.res with
            ascState := (readBytes n (s.env.drawAt 2)).getD 1 0
            valid := { s.res.valid with asc := true } } }) ∧
    (s.ctrl.ascCheck = true → groupValid (readBytes n (s.env.drawAt 2)) 0 = false →
      RunsTo (.ascDisableQuery 0 false) s
        { (s.afterBus 3 (writeEvents s.bus (s.env.drawAt 0) s.oper.devAddr [0x24, 0x16, 0x00, 0x00, 0x81] false ++
            queryEvents .free s.env 1 s.oper.devAddr 0x2313 n) .free).completed 0x42 .checksumMismatch 0 0 0 with
          res := { s.res with valid := { s.res.valid with asc := false } } })

/-- READ_SERIAL (44_serial.md R260 to R262), when its transactions are Ok. -/
def Obligations.ReadSerialResult : Prop :=
  ∀ s : State, s.phase = .idle → drawOk s.bus (s.env.drawAt 0) → drawOk .held (s.env.drawAt 1) →
    ((∀ i < 3, groupValid (readBytes 9 (s.env.drawAt 1)) i = true) →
      RunsTo (.readSerial 0 false) s
        { (s.afterBus 2 (queryEvents s.bus s.env 0 s.oper.devAddr 0x3682 9) .free).completed 0x50 .success 0 0 0 with
          res := { s.res with
            serialHi := groupWord (readBytes 9 (s.env.drawAt 1)) 0
            serialLo := groupWord (readBytes 9 (s.env.drawAt 1)) 1 ++ groupWord (readBytes 9 (s.env.drawAt 1)) 2
            valid := { s.res.valid with ser := true } } }) ∧
    ∀ i < 3, firstBad (readBytes 9 (s.env.drawAt 1)) i →
      RunsTo (.readSerial 0 false) s
        { (s.afterBus 2 (queryEvents s.bus s.env 0 s.oper.devAddr 0x3682 9) .free).completed
            0x50 .checksumMismatch (BitVec.ofNat 3 i) 0 0 with
          res := { s.res with valid := { s.res.valid with ser := false } } }

/-- FRC (43_calibration.md R233 to R235; 60_exceptions.md R309) after 36 valid warm-up reads, its last two transactions
Ok: the target is sent once, with its checksum; a bad checksum of the answer comes before the sentinel, and any other
answer is the offset. The warm-up writes no measurement register. -/
def Obligations.FrcAnswerResult : Prop :=
  ∀ (s : State) (u : State) (rx : List Byte), s.phase = .idle →
    (∀ j < 36, measureOk (busAfterMeasures s.bus j) s.env (3 * j) ∧
      ∀ i < 3, groupValid (readBytes 9 (s.env.drawAt (3 * j + 2))) i = true) →
    drawOk .free (s.env.drawAt 108) → drawOk .free (s.env.drawAt 109) →
    rx = readBytes 3 (s.env.drawAt 109) →
    u = s.afterBus 110 (warmupEvents s.bus s.env s.oper.devAddr 36 ++
      (writeEvents .free (s.env.drawAt 108) s.oper.devAddr [0x36, 0x2F, hi s.oper.targetPpm, lo s.oper.targetPpm,
        crc8 [hi s.oper.targetPpm, lo s.oper.targetPpm]] false ++
      readEvents .free (s.env.drawAt 109) s.oper.devAddr 3)) .free →
    (groupValid rx 0 = false →
      RunsTo (.frc 0 false) s { u.completed 0x43 .checksumMismatch 0 0 36 with
        res := { s.res with valid := { s.res.valid with frc := false } } }) ∧
    (groupValid rx 0 = true → groupWord rx 0 = 0xFFFF →
      RunsTo (.frc 0 false) s { u.completed 0x43 .deviceReportedFailure 0 0 36 with
        res := { s.res with valid := { s.res.valid with frc := false } } }) ∧
    (groupValid rx 0 = true → groupWord rx 0 ≠ 0xFFFF →
      RunsTo (.frc 0 false) s { u.completed 0x43 .success 0 0 36 with
        res := { s.res with
          frcOffset := BitVec.ofInt 32 ((groupWord rx 0).toNat - 32768)
          valid := { s.res.valid with frc := true } } })

/-- FRC (43_calibration.md R234): the first warm-up read with a bad word, read k, ends the op. Nothing was on the wire but
its k + 1 measurements, so no PERFORM_FRC frame. -/
def Obligations.FrcWarmupFailure : Prop :=
  ∀ (s : State) (k i : Nat), s.phase = .idle → k < 36 → i < 3 →
    (∀ j < k, measureOk (busAfterMeasures s.bus j) s.env (3 * j) ∧
      ∀ i < 3, groupValid (readBytes 9 (s.env.drawAt (3 * j + 2))) i = true) →
    measureOk (busAfterMeasures s.bus k) s.env (3 * k) → firstBad (readBytes 9 (s.env.drawAt (3 * k + 2))) i →
    RunsTo (.frc 0 false) s
      { (s.afterBus (3 * k + 3) (warmupEvents s.bus s.env s.oper.devAddr (k + 1)) .free).completed
          0x43 .calibrationPreconditionFailed (BitVec.ofNat 3 i) 0 (BitVec.ofNat 8 k) with
        res := { s.res with valid := { s.res.valid with frc := false } } }

/-- 41_transport.md R171, R172, R175 to R177: whatever op runs, a transaction that fails ends it. It is not retried; the
pins carry its opening, its bytes up to the failure, no byte after one that was not acknowledged, and a STOP or the lines
let go; the bus is free, no byte of BUF and no result register changes, the op's VALID bits fall, and TFAIL is the kind of
failure. A bus that never went idle gets no STOP, log 29's inference. That this is two steps is log 11's choice, and the hidden values
after them are log 12's. -/
def Obligations.TransportFailureEndsTheOp : Prop :=
  ∀ (op : Instr) (l : Line) (rest : List Line) (lat : Latch) (s : State) (f : FailKind), isCommand op = true →
    s.phase = .busy op (l :: rest) lat → l.onBus = true → drawFailure s.bus s.env.draw = some f →
    ∃ evs, execTimes 2 op s = .next
      { (s.afterBus 1 (openEvents s.bus s.env.draw ++ (evs ++
            [if f = .bus ∨ s.env.draw.sclLow = true ∨ (s.bus = .free ∧ s.env.draw.busIdle = false)
              then .release else .stop])) .free).completed
          lat.op .transportFailure 0 (match f with | .nack => 1 | .bus => 2 | .timeout => 3)
          (if lat.op = 0x43 then BitVec.ofNat 8 s.stage.warmupDone else 0) with
        res := { s.res with valid := clearOnFailure op s.res.valid } } ∧
      (∀ bytes hold, l = .write bytes hold →
        evs = failedWriteEvents s.bus (addrByte lat.addr false :: bytes) f s.env.draw ∧
        (f = .nack → ∃ m ≤ bytes.length, evs = ackedBytes ((addrByte lat.addr false :: bytes).take m) ++
          [.sent ((addrByte lat.addr false :: bytes).getD m 0) false])) ∧
      (∀ n, l = .read n →
        evs = failedReadEvents s.bus lat.addr n f s.env.draw ∧
        (f = .nack → evs = [.sent (addrByte lat.addr true) false]))

/-- 60_exceptions.md R303, R304: the one cycle in which an op ends, failed or not. -/
def Obligations.CompletionCommitsAtOnce : Prop :=
  ∀ (op : Instr) (lat : Latch) (s : State), isCommand op = true → s.phase = .busy op [] lat →
    (s.stage.err ≠ .success →
      exec op s = .next { s.completed lat.op s.stage.err
          (if s.stage.err = .checksumMismatch ∨ s.stage.err = .calibrationPreconditionFailed then s.stage.failWord else 0)
          (if s.stage.err = .transportFailure then s.stage.tfail else 0)
          (if lat.op = 0x43 then BitVec.ofNat 8 s.stage.warmupDone else 0) with
        res := { s.res with valid := { s.res.valid with
          meas := s.res.valid.meas && !(opOf op == 0x21 || opOf op == 0x22)
          asc := s.res.valid.asc && !(opOf op == 0x40 || opOf op == 0x41 || opOf op == 0x42)
          frc := s.res.valid.frc && !(opOf op == 0x43)
          ser := s.res.valid.ser && !(opOf op == 0x50) } } }) ∧
    (s.stage.err = .success →
      exec op s = .next { s.completed lat.op .success 0 0
          (if lat.op = 0x43 then BitVec.ofNat 8 s.stage.warmupDone else 0) with
        res := s.stage.writes.foldl ResultRegs.apply s.res
        buf := s.stage.writes.foldl bufApply s.buf })

/-! ### Rules of the whole block -/

/-- 20_memory.md R93: until the cycle in which BUSY falls and DONE rises nothing of an op is visible, and in that cycle all
of it. That a host write to BUF in that very cycle is dropped (so that BUF is the committed one) is log 9's choice. -/
def Obligations.CommitIsAtomic : Prop :=
  ∀ s t : State, Inv s → s.env.cycle.rstN = true → step s = .next t →
    (t.busy = true → t.res = s.res ∧ t.buf = s.buf ∧
      t.status = { s.status with done := false, overrun := t.status.overrun }) ∧
    (s.busy = true → t.busy = false → ∃ op lat, s.phase = .busy op [] lat ∧
      t.res = commitResults op s.stage s.res ∧ t.buf = commitBuf s.stage s.buf ∧
      t.status = { done := true, overrun := t.status.overrun, err := s.stage.err
                   failWord := failWordFor s.stage.err s.stage.failWord, tfail := tfailFor s.stage.err s.stage.tfail
                   warmupDone := warmupFor (opOf op) s.stage.warmupDone, lastOp := opOf op })

/-- 10_state.md R31, R50 to R63: each result register, VALID bit and BUF byte changes only in the completion of an op that
owns it, BUF also by a host write to an idle block; the operand registers change only by such a write. That an operand or BUF write
in the very cycle of a completion changes nothing is log 9's choice. -/
def Obligations.OnlyOwnersWriteResults : Prop :=
  ∀ s t : State, Inv s → s.env.cycle.rstN = true → step s = .next t →
    (t.res ≠ s.res → ∃ op lat, s.phase = .busy op [] lat ∧
      (t.res.crcResult ≠ s.res.crcResult ∨ t.res.valid.crc ≠ s.res.valid.crc → opOf op = 0x01) ∧
      (t.res.co2 ≠ s.res.co2 ∨ t.res.tRaw ≠ s.res.tRaw ∨ t.res.rhRaw ≠ s.res.rhRaw ∨ t.res.tQ16 ≠ s.res.tQ16 ∨
        t.res.rhFracQ16 ≠ s.res.rhFracQ16 ∨ t.res.rhPctQ16 ≠ s.res.rhPctQ16 ∨ t.res.valid.meas ≠ s.res.valid.meas →
        opOf op = 0x21 ∨ opOf op = 0x22) ∧
      (t.res.convOut ≠ s.res.convOut ∨ t.res.valid.conv ≠ s.res.valid.conv →
        opOf op = 0x30 ∨ opOf op = 0x31 ∨ opOf op = 0x32) ∧
      (t.res.ascState ≠ s.res.ascState → opOf op = 0x41 ∨ opOf op = 0x42) ∧
      (t.res.valid.asc ≠ s.res.valid.asc → opOf op = 0x40 ∨ opOf op = 0x41 ∨ opOf op = 0x42) ∧
      (t.res.frcOffset ≠ s.res.frcOffset ∨ t.res.valid.frc ≠ s.res.valid.frc → opOf op = 0x43) ∧
      (t.res.serialHi ≠ s.res.serialHi ∨ t.res.serialLo ≠ s.res.serialLo ∨ t.res.valid.ser ≠ s.res.valid.ser →
        opOf op = 0x50)) ∧
    (t.buf ≠ s.buf → (∃ op lat, s.phase = .busy op [] lat ∧ opOf op = 0x11) ∨
      (s.busy = false ∧ ∃ off v, s.env.cycle.access = some (.write off 4 v) ∧ 0x80 ≤ off ∧ off < 0xC0)) ∧
    (t.oper ≠ s.oper → s.busy = false ∧ ∃ off v, s.env.cycle.access = some (.write off 4 v) ∧ 0x0C ≤ off ∧ off ≤ 0x20)

/-- 60_exceptions.md R302: the codes an op can end with, and that LAST_OP is its own. -/
def Obligations.CompletionCodesOfEachOp : Prop :=
  ∀ (s t : State) (op : Instr) (seq : List Line) (lat : Latch), Inv s → s.env.cycle.rstN = true → step s = .next t →
    s.phase = .busy op seq lat → t.busy = false →
    t.status.err ∈ codesOf op lat.ascCheck ∧ t.status.lastOp = opOf op

/-- 60_exceptions.md R307: the bus at the completion of an op that uses it; the other ops leave it as it is. -/
def Obligations.BusAtCompletion : Prop :=
  ∀ (s t : State) (op : Instr) (seq : List Line) (lat : Latch), Inv s → s.env.cycle.rstN = true → step s = .next t →
    s.phase = .busy op seq lat →
    (usesBus op = true → t.busy = false →
      t.bus = .free ∨ (opOf op = 0x10 ∧ holdOf op = true ∧ t.status.err = .success ∧ t.bus = .held)) ∧
    (usesBus op = false → t.bus = s.bus)

/-- Every legal command completes, whatever the bus and the device do (10_state.md R67; 41_transport.md R180): the cycle
of its write starts it, with BUSY = 1 and DONE = 0, and after finitely many cycles with nothing else in them the block is
idle again, with DONE set and LAST_OP the command's. -/
def Obligations.EveryCommandCompletes : Prop :=
  ∀ (s : State) (v : Word) (i : Instr), s.phase = .idle → s.env.inputs = [{ access := some (.write 0x08 4 v) }] →
    decodeCmd v = .ok i → operandsLegal i = true →
    ∃ t1 n t, step s = .next t1 ∧ (∃ seq lat, t1.phase = .busy i seq lat) ∧ t1.status.done = false ∧
      stepTimes n t1 = .next t ∧ t.phase = .idle ∧ t.status.done = true ∧ t.status.lastOp = opOf i

/-! ### Where the Waits stand, and what they cost -/

/-- What each op has to run once accepted, with the Wait of each delay register in its place (40_checksum.md R155, R156;
41_transport.md R181, R182; 42_measurement.md R200 to R202, R209 to R211; 43_calibration.md R230 to R234; 44_serial.md
R260), what FRC's loop line puts before itself, and which delay register each Wait reads. -/
def Obligations.OpsAreTheirPseudocode : Prop :=
  (∀ s : State, s.phase = .idle →
    (∀ len : BitVec 5, 1 ≤ len.toNat → len.toNat ≤ 16 →
      StartsAt (.crcCompute len false) s [.crcCompute] ∧
      (∀ hold, StartsAt (.busWrite len hold) s [.write ((List.range len.toNat).map fun i => s.buf.read i) hold]) ∧
      StartsAt (.busRead len false) s [.read len.toNat, .storeRx]) ∧
    (∀ len : BitVec 5, 1 ≤ len.toNat → len.toNat ≤ 5 → StartsAt (.crcCheck len false) s [.crcCheck]) ∧
    StartsAt (.triggerSs 0 false) s [.write [0x21, 0x9D] false, .wait .ss] ∧
    StartsAt (.readMeas 0 false) s [.write [0xEC, 0x05] true, .wait .cmd, .read 9, .triplet] ∧
    StartsAt (.measure 0 false) s
      [.write [0x21, 0x9D] false, .wait .ss, .write [0xEC, 0x05] true, .wait .cmd, .read 9, .triplet] ∧
    StartsAt (.convT 0 false) s [.convT] ∧ StartsAt (.convRhf 0 false) s [.convRhf] ∧
    StartsAt (.convRhp 0 false) s [.convRhp] ∧
    StartsAt (.ascSet 0 false) s
      [.write [0x24, 0x16, hi s.oper.wdata, lo s.oper.wdata, crc8 [hi s.oper.wdata, lo s.oper.wdata]] false,
        .wait .cmd, .ascClear] ∧
    StartsAt (.ascGet 0 false) s ([.write [0x23, 0x13] true, .wait .cmd] ++
      if s.ctrl.ascCheck then [.read 3, .checkWord, .ascResult] else [.read 2, .ascResult]) ∧
    StartsAt (.ascDisableQuery 0 false) s ([.write [0x24, 0x16, 0x00, 0x00, 0x81] false, .wait .cmd,
      .write [0x23, 0x13] true, .wait .cmd] ++
      if s.ctrl.ascCheck then [.read 3, .checkWord, .ascResult] else [.read 2, .ascResult]) ∧
    StartsAt (.frc 0 false) s [.warmupLoop,
      .write [0x36, 0x2F, hi s.oper.targetPpm, lo s.oper.targetPpm, crc8 [hi s.oper.targetPpm, lo s.oper.targetPpm]] false,
      .wait .frc, .read 3, .checkWord, .frcResult] ∧
    StartsAt (.readSerial 0 false) s [.write [0x36, 0x82] true, .wait .cmd, .read 9, .serial] ∧
    ∀ i, delayMs (latch i s) .cmd = s.oper.tCmdMs ∧ delayMs (latch i s) .ss = s.oper.tSsMs ∧
      delayMs (latch i s) .frc = s.oper.tFrcMs) ∧
  ∀ (op : Instr) (rest : List Line) (lat : Latch) (s : State), isCommand op = true →
    s.phase = .busy op (.warmupLoop :: rest) lat →
    (s.k < 36 → exec op s = .next (s.goto op ([.write [0x21, 0x9D] false, .wait .ss, .write [0xEC, 0x05] true, .wait .cmd,
      .read 9, .warmupCheck, .warmupLoop] ++ rest) lat)) ∧
    (36 ≤ s.k → exec op s = .next (s.goto op rest lat))

/-- 70_reset_and_hazards.md R354: an op that succeeds takes more cycles than all its Waits together, however often it is
issued before. -/
def Obligations.OpsTakeAtLeastTheirWaits : Prop :=
  ∀ (i : Instr) (s t : State) (n : Nat), isCommand i = true → operandsLegal i = true → s.phase = .idle → 0 < n →
    execTimes n i s = .next t → t.phase = .idle → t.status.err = .success →
    waitsMs i s.oper * Config.cyclesPerMs < n

/-! ### The register map -/

/-- 10_state.md R32, R33, R43 to R63: which register stands at each offset, what the host reads there, and what it stores
while BUSY = 0. STATUS is `StatusLayout`'s, and the reserved offsets are `ReservedReadsZero`'s. -/
def Obligations.RegisterMap : Prop :=
  ∀ s : State,
    (∃ w : Word, HostReads s 0x00 w ∧ w.getLsbD 0 = s.ctrl.irqEn ∧ w.getLsbD 1 = s.ctrl.ascCheck ∧
      w.extractLsb' 2 30 = 0) ∧
    HostReads s 0x08 0 ∧ HostReads s 0x0C (s.oper.devAddr.setWidth 32) ∧ HostReads s 0x10 (s.oper.wdata.setWidth 32) ∧
    HostReads s 0x14 (s.oper.targetPpm.setWidth 32) ∧ HostReads s 0x18 (s.oper.tCmdMs.setWidth 32) ∧
    HostReads s 0x1C (s.oper.tSsMs.setWidth 32) ∧ HostReads s 0x20 (s.oper.tFrcMs.setWidth 32) ∧
    (∃ w : Word, HostReads s 0x24 w ∧ w.getLsbD 0 = s.res.valid.crc ∧ w.getLsbD 1 = s.res.valid.conv ∧
      w.getLsbD 2 = s.res.valid.meas ∧ w.getLsbD 3 = s.res.valid.asc ∧ w.getLsbD 4 = s.res.valid.frc ∧
      w.getLsbD 5 = s.res.valid.ser ∧ w.extractLsb' 6 26 = 0) ∧
    HostReads s 0x28 (s.res.crcResult.setWidth 32) ∧ HostReads s 0x2C (s.res.co2.setWidth 32) ∧
    HostReads s 0x30 (s.res.tRaw.setWidth 32) ∧ HostReads s 0x34 (s.res.rhRaw.setWidth 32) ∧
    HostReads s 0x38 s.res.tQ16 ∧ HostReads s 0x3C (s.res.rhFracQ16.setWidth 32) ∧ HostReads s 0x40 s.res.rhPctQ16 ∧
    HostReads s 0x44 s.res.convOut ∧ HostReads s 0x48 (s.res.serialHi.setWidth 32) ∧
    HostReads s 0x4C s.res.serialLo ∧ HostReads s 0x50 (s.res.ascState.setWidth 32) ∧
    HostReads s 0x54 s.res.frcOffset ∧
    (∀ i < 16, HostReads s ((0x80 + 4 * i : Nat) : Int) ((s.buf.read i).setWidth 32)) ∧
    (s.busy = false → ∀ v : Word,
      HostWrites s 0x0C v { s with oper := { s.oper with devAddr := v.extractLsb' 0 7 } } ∧
      HostWrites s 0x10 v { s with oper := { s.oper with wdata := v.extractLsb' 0 16 } } ∧
      HostWrites s 0x14 v { s with oper := { s.oper with targetPpm := v.extractLsb' 0 16 } } ∧
      HostWrites s 0x18 v { s with oper := { s.oper with tCmdMs := v.extractLsb' 0 16 } } ∧
      HostWrites s 0x1C v { s with oper := { s.oper with tSsMs := v.extractLsb' 0 16 } } ∧
      HostWrites s 0x20 v { s with oper := { s.oper with tFrcMs := v.extractLsb' 0 16 } } ∧
      (Memory.wf s.buf = true → ∀ i < 16, ∃ m : Memory,
        HostWrites s ((0x80 + 4 * i : Nat) : Int) v { s with buf := m } ∧ m.read i = v.extractLsb' 0 8 ∧
        (∀ j, j ≠ i → m.read j = s.buf.read j) ∧ Memory.wf m = true))
end

