-- ==== Sys2Proof/Laws/State.lean ====
section
/-! SUPPORT. One lemma for each field of State under each named update, true by definition: a proof cites these and
never unfolds a record update. -/

namespace Sys2Proof.Machine

@[simp] theorem State.goto_ctrl (s : State) (op : Instr) (seq : List Line) (lat : Latch) :
    (s.goto op seq lat).ctrl = s.ctrl := rfl
@[simp] theorem State.goto_status (s : State) (op : Instr) (seq : List Line) (lat : Latch) :
    (s.goto op seq lat).status = s.status := rfl
@[simp] theorem State.goto_oper (s : State) (op : Instr) (seq : List Line) (lat : Latch) :
    (s.goto op seq lat).oper = s.oper := rfl
@[simp] theorem State.goto_res (s : State) (op : Instr) (seq : List Line) (lat : Latch) :
    (s.goto op seq lat).res = s.res := rfl
@[simp] theorem State.goto_buf (s : State) (op : Instr) (seq : List Line) (lat : Latch) :
    (s.goto op seq lat).buf = s.buf := rfl
@[simp] theorem State.goto_phase (s : State) (op : Instr) (seq : List Line) (lat : Latch) :
    (s.goto op seq lat).phase = .busy op seq lat := rfl
@[simp] theorem State.goto_stage (s : State) (op : Instr) (seq : List Line) (lat : Latch) :
    (s.goto op seq lat).stage = s.stage := rfl
@[simp] theorem State.goto_k (s : State) (op : Instr) (seq : List Line) (lat : Latch) :
    (s.goto op seq lat).k = s.k := rfl
@[simp] theorem State.goto_rx (s : State) (op : Instr) (seq : List Line) (lat : Latch) :
    (s.goto op seq lat).rx = s.rx := rfl
@[simp] theorem State.goto_waitCtr (s : State) (op : Instr) (seq : List Line) (lat : Latch) :
    (s.goto op seq lat).waitCtr = s.waitCtr := rfl
@[simp] theorem State.goto_bus (s : State) (op : Instr) (seq : List Line) (lat : Latch) :
    (s.goto op seq lat).bus = s.bus := rfl
@[simp] theorem State.goto_env (s : State) (op : Instr) (seq : List Line) (lat : Latch) :
    (s.goto op seq lat).env = s.env := rfl

@[simp] theorem State.stageWrites_ctrl (s : State) (ws : List StagedWrite) : (s.stageWrites ws).ctrl = s.ctrl := rfl
@[simp] theorem State.stageWrites_status (s : State) (ws : List StagedWrite) :
    (s.stageWrites ws).status = s.status := rfl
@[simp] theorem State.stageWrites_oper (s : State) (ws : List StagedWrite) : (s.stageWrites ws).oper = s.oper := rfl
@[simp] theorem State.stageWrites_res (s : State) (ws : List StagedWrite) : (s.stageWrites ws).res = s.res := rfl
@[simp] theorem State.stageWrites_buf (s : State) (ws : List StagedWrite) : (s.stageWrites ws).buf = s.buf := rfl
@[simp] theorem State.stageWrites_phase (s : State) (ws : List StagedWrite) :
    (s.stageWrites ws).phase = s.phase := rfl
@[simp] theorem State.stageWrites_stage (s : State) (ws : List StagedWrite) :
    (s.stageWrites ws).stage = { s.stage with writes := s.stage.writes ++ ws } := rfl
@[simp] theorem State.stageWrites_k (s : State) (ws : List StagedWrite) : (s.stageWrites ws).k = s.k := rfl
@[simp] theorem State.stageWrites_rx (s : State) (ws : List StagedWrite) : (s.stageWrites ws).rx = s.rx := rfl
@[simp] theorem State.stageWrites_waitCtr (s : State) (ws : List StagedWrite) :
    (s.stageWrites ws).waitCtr = s.waitCtr := rfl
@[simp] theorem State.stageWrites_bus (s : State) (ws : List StagedWrite) : (s.stageWrites ws).bus = s.bus := rfl
@[simp] theorem State.stageWrites_env (s : State) (ws : List StagedWrite) : (s.stageWrites ws).env = s.env := rfl

@[simp] theorem State.dropWrite_ctrl (s : State) : s.dropWrite.ctrl = s.ctrl := rfl
@[simp] theorem State.dropWrite_status (s : State) : s.dropWrite.status = { s.status with overrun := true } := rfl
@[simp] theorem State.dropWrite_oper (s : State) : s.dropWrite.oper = s.oper := rfl
@[simp] theorem State.dropWrite_res (s : State) : s.dropWrite.res = s.res := rfl
@[simp] theorem State.dropWrite_buf (s : State) : s.dropWrite.buf = s.buf := rfl
@[simp] theorem State.dropWrite_phase (s : State) : s.dropWrite.phase = s.phase := rfl
@[simp] theorem State.dropWrite_stage (s : State) : s.dropWrite.stage = s.stage := rfl
@[simp] theorem State.dropWrite_k (s : State) : s.dropWrite.k = s.k := rfl
@[simp] theorem State.dropWrite_rx (s : State) : s.dropWrite.rx = s.rx := rfl
@[simp] theorem State.dropWrite_waitCtr (s : State) : s.dropWrite.waitCtr = s.waitCtr := rfl
@[simp] theorem State.dropWrite_bus (s : State) : s.dropWrite.bus = s.bus := rfl
@[simp] theorem State.dropWrite_env (s : State) : s.dropWrite.env = s.env := rfl

@[simp] theorem State.useDraw_ctrl (s : State) : s.useDraw.ctrl = s.ctrl := rfl
@[simp] theorem State.useDraw_status (s : State) : s.useDraw.status = s.status := rfl
@[simp] theorem State.useDraw_oper (s : State) : s.useDraw.oper = s.oper := rfl
@[simp] theorem State.useDraw_res (s : State) : s.useDraw.res = s.res := rfl
@[simp] theorem State.useDraw_buf (s : State) : s.useDraw.buf = s.buf := rfl
@[simp] theorem State.useDraw_phase (s : State) : s.useDraw.phase = s.phase := rfl
@[simp] theorem State.useDraw_stage (s : State) : s.useDraw.stage = s.stage := rfl
@[simp] theorem State.useDraw_k (s : State) : s.useDraw.k = s.k := rfl
@[simp] theorem State.useDraw_rx (s : State) : s.useDraw.rx = s.rx := rfl
@[simp] theorem State.useDraw_waitCtr (s : State) : s.useDraw.waitCtr = s.waitCtr := rfl
@[simp] theorem State.useDraw_bus (s : State) : s.useDraw.bus = s.bus := rfl
@[simp] theorem State.useDraw_env (s : State) : s.useDraw.env = s.env.useDraw := rfl

@[simp] theorem State.emit_ctrl (s : State) (evs : List BusEvent) : (s.emit evs).ctrl = s.ctrl := rfl
@[simp] theorem State.emit_status (s : State) (evs : List BusEvent) : (s.emit evs).status = s.status := rfl
@[simp] theorem State.emit_oper (s : State) (evs : List BusEvent) : (s.emit evs).oper = s.oper := rfl
@[simp] theorem State.emit_res (s : State) (evs : List BusEvent) : (s.emit evs).res = s.res := rfl
@[simp] theorem State.emit_buf (s : State) (evs : List BusEvent) : (s.emit evs).buf = s.buf := rfl
@[simp] theorem State.emit_phase (s : State) (evs : List BusEvent) : (s.emit evs).phase = s.phase := rfl
@[simp] theorem State.emit_stage (s : State) (evs : List BusEvent) : (s.emit evs).stage = s.stage := rfl
@[simp] theorem State.emit_k (s : State) (evs : List BusEvent) : (s.emit evs).k = s.k := rfl
@[simp] theorem State.emit_rx (s : State) (evs : List BusEvent) : (s.emit evs).rx = s.rx := rfl
@[simp] theorem State.emit_waitCtr (s : State) (evs : List BusEvent) : (s.emit evs).waitCtr = s.waitCtr := rfl
@[simp] theorem State.emit_bus (s : State) (evs : List BusEvent) : (s.emit evs).bus = s.bus := rfl
@[simp] theorem State.emit_env (s : State) (evs : List BusEvent) :
    (s.emit evs).env = { s.env with trace := s.env.trace ++ evs } := rfl

@[simp] theorem State.setBus_ctrl (s : State) (b : BusState) : (s.setBus b).ctrl = s.ctrl := rfl
@[simp] theorem State.setBus_status (s : State) (b : BusState) : (s.setBus b).status = s.status := rfl
@[simp] theorem State.setBus_oper (s : State) (b : BusState) : (s.setBus b).oper = s.oper := rfl
@[simp] theorem State.setBus_res (s : State) (b : BusState) : (s.setBus b).res = s.res := rfl
@[simp] theorem State.setBus_buf (s : State) (b : BusState) : (s.setBus b).buf = s.buf := rfl
@[simp] theorem State.setBus_phase (s : State) (b : BusState) : (s.setBus b).phase = s.phase := rfl
@[simp] theorem State.setBus_stage (s : State) (b : BusState) : (s.setBus b).stage = s.stage := rfl
@[simp] theorem State.setBus_k (s : State) (b : BusState) : (s.setBus b).k = s.k := rfl
@[simp] theorem State.setBus_rx (s : State) (b : BusState) : (s.setBus b).rx = s.rx := rfl
@[simp] theorem State.setBus_waitCtr (s : State) (b : BusState) : (s.setBus b).waitCtr = s.waitCtr := rfl
@[simp] theorem State.setBus_bus (s : State) (b : BusState) : (s.setBus b).bus = b := rfl
@[simp] theorem State.setBus_env (s : State) (b : BusState) : (s.setBus b).env = s.env := rfl

@[simp] theorem State.respond_ctrl (s : State) (r : Response) : (s.respond r).ctrl = s.ctrl := rfl
@[simp] theorem State.respond_status (s : State) (r : Response) : (s.respond r).status = s.status := rfl
@[simp] theorem State.respond_oper (s : State) (r : Response) : (s.respond r).oper = s.oper := rfl
@[simp] theorem State.respond_res (s : State) (r : Response) : (s.respond r).res = s.res := rfl
@[simp] theorem State.respond_buf (s : State) (r : Response) : (s.respond r).buf = s.buf := rfl
@[simp] theorem State.respond_phase (s : State) (r : Response) : (s.respond r).phase = s.phase := rfl
@[simp] theorem State.respond_stage (s : State) (r : Response) : (s.respond r).stage = s.stage := rfl
@[simp] theorem State.respond_k (s : State) (r : Response) : (s.respond r).k = s.k := rfl
@[simp] theorem State.respond_rx (s : State) (r : Response) : (s.respond r).rx = s.rx := rfl
@[simp] theorem State.respond_waitCtr (s : State) (r : Response) : (s.respond r).waitCtr = s.waitCtr := rfl
@[simp] theorem State.respond_bus (s : State) (r : Response) : (s.respond r).bus = s.bus := rfl
@[simp] theorem State.respond_env (s : State) (r : Response) :
    (s.respond r).env = { s.env with responses := s.env.responses ++ [r] } := rfl

@[simp] theorem State.takeCycle_ctrl (s : State) : s.takeCycle.ctrl = s.ctrl := rfl
@[simp] theorem State.takeCycle_status (s : State) : s.takeCycle.status = s.status := rfl
@[simp] theorem State.takeCycle_oper (s : State) : s.takeCycle.oper = s.oper := rfl
@[simp] theorem State.takeCycle_res (s : State) : s.takeCycle.res = s.res := rfl
@[simp] theorem State.takeCycle_buf (s : State) : s.takeCycle.buf = s.buf := rfl
@[simp] theorem State.takeCycle_phase (s : State) : s.takeCycle.phase = s.phase := rfl
@[simp] theorem State.takeCycle_stage (s : State) : s.takeCycle.stage = s.stage := rfl
@[simp] theorem State.takeCycle_k (s : State) : s.takeCycle.k = s.k := rfl
@[simp] theorem State.takeCycle_rx (s : State) : s.takeCycle.rx = s.rx := rfl
@[simp] theorem State.takeCycle_waitCtr (s : State) : s.takeCycle.waitCtr = s.waitCtr := rfl
@[simp] theorem State.takeCycle_bus (s : State) : s.takeCycle.bus = s.bus := rfl
@[simp] theorem State.takeCycle_env (s : State) : s.takeCycle.env = { s.env with inputs := s.env.inputs.tail } := rfl

@[simp] theorem raise_ctrl (op : Instr) (lat : Latch) (e : ErrCode) (w : Nat) (t : BitVec 2) (s : State) :
    (raise op lat e w t s).ctrl = s.ctrl := rfl
@[simp] theorem raise_status (op : Instr) (lat : Latch) (e : ErrCode) (w : Nat) (t : BitVec 2) (s : State) :
    (raise op lat e w t s).status = s.status := rfl
@[simp] theorem raise_oper (op : Instr) (lat : Latch) (e : ErrCode) (w : Nat) (t : BitVec 2) (s : State) :
    (raise op lat e w t s).oper = s.oper := rfl
@[simp] theorem raise_res (op : Instr) (lat : Latch) (e : ErrCode) (w : Nat) (t : BitVec 2) (s : State) :
    (raise op lat e w t s).res = s.res := rfl
@[simp] theorem raise_buf (op : Instr) (lat : Latch) (e : ErrCode) (w : Nat) (t : BitVec 2) (s : State) :
    (raise op lat e w t s).buf = s.buf := rfl
@[simp] theorem raise_phase (op : Instr) (lat : Latch) (e : ErrCode) (w : Nat) (t : BitVec 2) (s : State) :
    (raise op lat e w t s).phase = .busy op [] lat := rfl
@[simp] theorem raise_stage (op : Instr) (lat : Latch) (e : ErrCode) (w : Nat) (t : BitVec 2) (s : State) :
    (raise op lat e w t s).stage = { s.stage with writes := [], err := e, failWord := BitVec.ofNat 3 w, tfail := t } := rfl
@[simp] theorem raise_k (op : Instr) (lat : Latch) (e : ErrCode) (w : Nat) (t : BitVec 2) (s : State) :
    (raise op lat e w t s).k = s.k := rfl
@[simp] theorem raise_rx (op : Instr) (lat : Latch) (e : ErrCode) (w : Nat) (t : BitVec 2) (s : State) :
    (raise op lat e w t s).rx = s.rx := rfl
@[simp] theorem raise_waitCtr (op : Instr) (lat : Latch) (e : ErrCode) (w : Nat) (t : BitVec 2) (s : State) :
    (raise op lat e w t s).waitCtr = s.waitCtr := rfl
@[simp] theorem raise_bus (op : Instr) (lat : Latch) (e : ErrCode) (w : Nat) (t : BitVec 2) (s : State) :
    (raise op lat e w t s).bus = s.bus := rfl
@[simp] theorem raise_env (op : Instr) (lat : Latch) (e : ErrCode) (w : Nat) (t : BitVec 2) (s : State) :
    (raise op lat e w t s).env = s.env := rfl

@[simp] theorem commit_ctrl (op : Instr) (lat : Latch) (s : State) : (commit op lat s).ctrl = s.ctrl := rfl
@[simp] theorem commit_status (op : Instr) (lat : Latch) (s : State) :
    (commit op lat s).status = commitStatus lat s.stage s.status := rfl
@[simp] theorem commit_oper (op : Instr) (lat : Latch) (s : State) : (commit op lat s).oper = s.oper := rfl
@[simp] theorem commit_res (op : Instr) (lat : Latch) (s : State) :
    (commit op lat s).res = commitResults op s.stage s.res := rfl
@[simp] theorem commit_buf (op : Instr) (lat : Latch) (s : State) :
    (commit op lat s).buf = commitBuf s.stage s.buf := rfl
@[simp] theorem commit_phase (op : Instr) (lat : Latch) (s : State) : (commit op lat s).phase = .idle := rfl
@[simp] theorem commit_stage (op : Instr) (lat : Latch) (s : State) : (commit op lat s).stage = .empty := rfl
@[simp] theorem commit_k (op : Instr) (lat : Latch) (s : State) : (commit op lat s).k = 0 := rfl
@[simp] theorem commit_rx (op : Instr) (lat : Latch) (s : State) : (commit op lat s).rx = [] := rfl
@[simp] theorem commit_waitCtr (op : Instr) (lat : Latch) (s : State) : (commit op lat s).waitCtr = 0 := rfl
@[simp] theorem commit_bus (op : Instr) (lat : Latch) (s : State) : (commit op lat s).bus = s.bus := rfl
@[simp] theorem commit_env (op : Instr) (lat : Latch) (s : State) : (commit op lat s).env = s.env := rfl

@[simp] theorem startOp_ctrl (i : Instr) (ls : Latch → List Line) (s : State) : (startOp i ls s).ctrl = s.ctrl := rfl
@[simp] theorem startOp_status (i : Instr) (ls : Latch → List Line) (s : State) :
    (startOp i ls s).status = { s.status with done := false } := rfl
@[simp] theorem startOp_oper (i : Instr) (ls : Latch → List Line) (s : State) : (startOp i ls s).oper = s.oper := rfl
@[simp] theorem startOp_res (i : Instr) (ls : Latch → List Line) (s : State) : (startOp i ls s).res = s.res := rfl
@[simp] theorem startOp_buf (i : Instr) (ls : Latch → List Line) (s : State) : (startOp i ls s).buf = s.buf := rfl
@[simp] theorem startOp_phase (i : Instr) (ls : Latch → List Line) (s : State) :
    (startOp i ls s).phase = .busy i (ls (latch i s)) (latch i s) := rfl
@[simp] theorem startOp_stage (i : Instr) (ls : Latch → List Line) (s : State) :
    (startOp i ls s).stage = .empty := rfl
@[simp] theorem startOp_k (i : Instr) (ls : Latch → List Line) (s : State) : (startOp i ls s).k = 0 := rfl
@[simp] theorem startOp_rx (i : Instr) (ls : Latch → List Line) (s : State) : (startOp i ls s).rx = [] := rfl
@[simp] theorem startOp_waitCtr (i : Instr) (ls : Latch → List Line) (s : State) : (startOp i ls s).waitCtr = 0 := rfl
@[simp] theorem startOp_bus (i : Instr) (ls : Latch → List Line) (s : State) : (startOp i ls s).bus = s.bus := rfl
@[simp] theorem startOp_env (i : Instr) (ls : Latch → List Line) (s : State) : (startOp i ls s).env = s.env := rfl

@[simp] theorem commitIllegal_ctrl (op : Byte) (e : ErrCode) (s : State) : (commitIllegal op e s).ctrl = s.ctrl := rfl
@[simp] theorem commitIllegal_status (op : Byte) (e : ErrCode) (s : State) :
    (commitIllegal op e s).status = illegalStatus op e s.status := rfl
@[simp] theorem commitIllegal_oper (op : Byte) (e : ErrCode) (s : State) : (commitIllegal op e s).oper = s.oper := rfl
@[simp] theorem commitIllegal_res (op : Byte) (e : ErrCode) (s : State) : (commitIllegal op e s).res = s.res := rfl
@[simp] theorem commitIllegal_buf (op : Byte) (e : ErrCode) (s : State) : (commitIllegal op e s).buf = s.buf := rfl
@[simp] theorem commitIllegal_phase (op : Byte) (e : ErrCode) (s : State) :
    (commitIllegal op e s).phase = s.phase := rfl
@[simp] theorem commitIllegal_stage (op : Byte) (e : ErrCode) (s : State) :
    (commitIllegal op e s).stage = s.stage := rfl
@[simp] theorem commitIllegal_k (op : Byte) (e : ErrCode) (s : State) : (commitIllegal op e s).k = s.k := rfl
@[simp] theorem commitIllegal_rx (op : Byte) (e : ErrCode) (s : State) : (commitIllegal op e s).rx = s.rx := rfl
@[simp] theorem commitIllegal_waitCtr (op : Byte) (e : ErrCode) (s : State) :
    (commitIllegal op e s).waitCtr = s.waitCtr := rfl
@[simp] theorem commitIllegal_bus (op : Byte) (e : ErrCode) (s : State) : (commitIllegal op e s).bus = s.bus := rfl
@[simp] theorem commitIllegal_env (op : Byte) (e : ErrCode) (s : State) : (commitIllegal op e s).env = s.env := rfl

/-! BUSY, HELD and the record of the environment follow the fields they are read off. -/

@[simp] theorem State.takeCycle_busy (s : State) : s.takeCycle.busy = s.busy := rfl
@[simp] theorem State.respond_busy (s : State) (r : Response) : (s.respond r).busy = s.busy := rfl
@[simp] theorem State.goto_busy (s : State) (op : Instr) (seq : List Line) (lat : Latch) :
    (s.goto op seq lat).busy = true := rfl
@[simp] theorem commit_busy (op : Instr) (lat : Latch) (s : State) : (commit op lat s).busy = false := rfl

theorem State.busy_of_phase {s : State} {op : Instr} {seq : List Line} {lat : Latch} (h : s.phase = .busy op seq lat) :
    s.busy = true := by simp [State.busy, h, Phase.isBusy]

theorem State.busy_iff (s : State) : s.busy = true ↔ ∃ op seq lat, s.phase = .busy op seq lat := by
  unfold State.busy
  cases s.phase <;> simp [Phase.isBusy]

theorem State.not_busy_iff (s : State) : s.busy = false ↔ s.phase = .idle := by
  unfold State.busy
  cases s.phase <;> simp [Phase.isBusy]

end Sys2Proof.Machine
end

