-- ==== Sys2Proof/Laws/Bus.lean ====
section
/-! SUPPORT. What a bus transaction can do: the state it leaves differs in the bus, the pins' record and the draw used. -/

namespace Sys2Proof.Machine

@[simp] theorem Env.useDraw_inputs (e : Env) : e.useDraw.inputs = e.inputs := by
  unfold Env.useDraw
  split <;> rfl

@[simp] theorem Env.useDraw_trace (e : Env) : e.useDraw.trace = e.trace := by
  unfold Env.useDraw
  split <;> rfl

@[simp] theorem Env.useDraw_responses (e : Env) : e.useDraw.responses = e.responses := by
  unfold Env.useDraw
  split <;> rfl

/-- A draw the environment has already made is the one used (41_transport.md R180). -/
theorem Env.draw_of_answers {e : Env} {d : Draw} {ds : List Draw} (h : e.answers = d :: ds) : e.draw = d := by
  simp [Env.draw, h]

theorem Env.useDraw_of_answers {e : Env} {d : Draw} {ds : List Draw} (h : e.answers = d :: ds) :
    e.useDraw = { e with answers := ds } := by
  simp [Env.useDraw, h]

/-- A transaction left Ok by its draw (R174, R180). -/
theorem drawFailure_ok {b : BusState} {d : Draw} (hi : d.busIdle = true) (hf : d.fail = none) : drawFailure b d = none := by
  simp [drawFailure, hi, hf]

/-- The state a transaction leaves: the draw used, events on the pins, and the bus set. -/
def State.afterTransaction (s : State) (evs : List BusEvent) (b : BusState) : State := (s.useDraw.emit evs).setBus b

@[simp] theorem State.afterTransaction_bus (s : State) (evs : List BusEvent) (b : BusState) :
    (s.afterTransaction evs b).bus = b := rfl

theorem State.emit_emit (s : State) (a b : List BusEvent) : (s.emit a).emit b = s.emit (a ++ b) := by
  simp [State.emit, List.append_assoc]

/-- I2CWrite when the draw is Ok. -/
theorem i2cWrite_ok {a : BitVec 7} {bytes : List Byte} {hold : Bool} {s : State} (h : drawFailure s.bus s.env.draw = none) :
    i2cWrite a bytes hold s = (none, s.afterTransaction (writeEvents s.bus s.env.draw a bytes hold) (endOfWrite hold)) := by
  simp only [i2cWrite, h, beginTransaction, State.afterTransaction, writeEvents]
  simp [State.setBus, State.emit, State.useDraw, List.append_assoc]

/-- I2CWrite when the draw is a failure: some events, and the bus free (R176). -/
theorem i2cWrite_fail {a : BitVec 7} {bytes : List Byte} {hold : Bool} {s : State} {f : FailKind}
    (h : drawFailure s.bus s.env.draw = some f) :
    i2cWrite a bytes hold s = (some f, s.afterTransaction (openEvents s.bus s.env.draw ++
      (failedWriteEvents s.bus (addrByte a false :: bytes) f s.env.draw ++ cleanupEvents s.bus f s.env.draw)) .free) := by
  simp only [i2cWrite, h, beginTransaction, State.afterTransaction]
  simp [State.setBus, State.emit, State.useDraw, List.append_assoc]

/-- I2CRead when the draw is Ok: exactly n bytes (R172). -/
theorem i2cRead_ok {a : BitVec 7} {n : Nat} {s : State} (h : drawFailure s.bus s.env.draw = none) :
    i2cRead a n s = (.ok (readBytes n s.env.draw), s.afterTransaction (readEvents s.bus s.env.draw a n) .free) := by
  simp only [i2cRead, h, beginTransaction, State.afterTransaction, readEvents]
  simp [State.setBus, State.emit, State.useDraw, List.append_assoc]

theorem i2cRead_fail {a : BitVec 7} {n : Nat} {s : State} {f : FailKind} (h : drawFailure s.bus s.env.draw = some f) :
    i2cRead a n s = (.error f, s.afterTransaction (openEvents s.bus s.env.draw ++
      (failedReadEvents s.bus a n f s.env.draw ++ cleanupEvents s.bus f s.env.draw)) .free) := by
  simp only [i2cRead, h, beginTransaction, State.afterTransaction]
  simp [State.setBus, State.emit, State.useDraw, List.append_assoc]

/-- Where a NACK falls, no byte follows it, and every byte before it was acknowledged (41_transport.md R171). -/
theorem failedWriteEvents_nack {b : BusState} {x : Byte} {s : List Byte} {d : Draw}
    (h : drawFailure b d = some .nack) : ∃ m < (x :: s).length,
      failedWriteEvents b (x :: s) .nack d = ackedBytes ((x :: s).take m) ++ [.sent ((x :: s).getD m 0) false] := by
  have hb : ¬ (b = .free ∧ d.busIdle = false) := by
    intro hb
    simp [drawFailure, hb] at h
  have hm : min d.after ((x :: s).length - 1) < (x :: s).length := by
    simp only [List.length_cons]
    omega
  refine ⟨_, hm, ?_⟩
  rw [failedWriteEvents, if_neg hb]
  simp only [List.append_cancel_left_eq]
  rw [List.drop_eq_getElem_cons hm, List.getD_eq_getElem _ _ hm]
  rfl

/-- A NACK fails a read at its address byte (41_transport.md R172; log 16). -/
theorem failedReadEvents_nack {b : BusState} {a : BitVec 7} {n : Nat} {d : Draw} (h : drawFailure b d = some .nack) :
    failedReadEvents b a n .nack d = [.sent (addrByte a true) false] := by
  have hb : ¬ (b = .free ∧ d.busIdle = false) := by
    intro hb
    simp [drawFailure, hb] at h
  rw [failedReadEvents, if_neg hb]

@[simp] theorem readBytes_length (n : Nat) (d : Draw) : (readBytes n d).length = n := by
  simp [readBytes]

/-- A slave that sends n bytes or more is read as its first n bytes. -/
theorem readBytes_of_length {n : Nat} {d : Draw} (h : d.bytes.length = n) : readBytes n d = d.bytes := by
  simp [readBytes, ← h]

end Sys2Proof.Machine
end

