-- ==== Sys2Proof/Laws/Bytes.lean ====
section
/-! SUPPORT. A word is its high and its low byte, and nothing else (20_memory.md R88). -/

namespace Sys2Proof.Machine

theorem getLsbD_word (a b : Byte) (i : Nat) : (word a b).getLsbD i = if i < 8 then b.getLsbD i else a.getLsbD (i - 8) :=
  BitVec.getLsbD_append

@[simp] theorem hi_word (a b : Byte) : hi (word a b) = a := by
  ext i h
  have : ¬ 8 + i < 8 := by omega
  simp [hi, getLsbD_word, this, BitVec.getLsbD_eq_getElem h]

@[simp] theorem lo_word (a b : Byte) : lo (word a b) = b := by
  ext i h
  simp [lo, getLsbD_word, h]

@[simp] theorem word_hi_lo (w : Half) : word (hi w) (lo w) = w := by
  ext i h
  rw [← BitVec.getLsbD_eq_getElem h, ← BitVec.getLsbD_eq_getElem h, getLsbD_word]
  by_cases h8 : i < 8
  · simp [h8, lo]
  · have h1 : i - 8 < 8 := by omega
    have h2 : 8 + (i - 8) = i := by omega
    simp [h8, hi, h1, h2]

end Sys2Proof.Machine
end

