-- ==== Sys2Proof/Laws/PerInstr.lean ====
section
/-! SUPPORT. A fact about every instruction as syntax, made per constructor: the form of its code. A CMD word keeps its
reserved bits 0 (30_encoding.md R114), and a frame has the length its format gives (R118, R119, R128). -/

namespace Sys2Proof.Laws.CodeForm

/-- The code of i has the form its layer gives it. -/
def Statement (i : Instr) : Prop :=
  match encode i with
  | .cmd v => cmdReservedZero v = true
  | .frame s => s.length = 2 ∨ s.length = 5

/-- The reserved bits of every CMD word made from its fields are 0. -/
theorem cmdword_reserved (op : Byte) (len : BitVec 5) (hold : Bool) : cmdReservedZero (cmdword op len hold) = true := by
  have h1 : (cmdword op len hold).extractLsb' 13 3 = 0#3 := by
    apply BitVec.eq_of_getLsbD_eq
    intro i hi
    have : (cmdword op len hold).getLsbD (13 + i) = false := by
      show ((0#15 ++ BitVec.ofBool hold ++ 0#3 ++ len ++ op : BitVec (15 + 1 + 3 + 5 + 8))).getLsbD (13 + i) = false
      simp only [BitVec.getLsbD_append]
      have a1 : ¬ 13 + i < 8 := by omega
      have a2 : ¬ 13 + i - 8 < 5 := by omega
      have a3 : 13 + i - 8 - 5 < 3 := by omega
      simp [a1, a2, a3]
    simp [BitVec.getLsbD_extractLsb', this]
  have h2 : (cmdword op len hold).extractLsb' 17 15 = 0#15 := by
    apply BitVec.eq_of_getLsbD_eq
    intro i hi
    have : (cmdword op len hold).getLsbD (17 + i) = false := by
      show ((0#15 ++ BitVec.ofBool hold ++ 0#3 ++ len ++ op : BitVec (15 + 1 + 3 + 5 + 8))).getLsbD (17 + i) = false
      simp only [BitVec.getLsbD_append]
      have a1 : ¬ 17 + i < 8 := by omega
      have a2 : ¬ 17 + i - 8 < 5 := by omega
      have a3 : ¬ 17 + i - 8 - 5 < 3 := by omega
      have a4 : ¬ 17 + i - 8 - 5 - 3 < 1 := by omega
      simp [a1, a2, a3, a4]
    simp [BitVec.getLsbD_extractLsb', this]
  simp [cmdReservedZero, h1, h2]

theorem crcCompute (len : BitVec 5) (hold : Bool) : Statement (.crcCompute len hold) := cmdword_reserved _ _ _

theorem crcCheck (len : BitVec 5) (hold : Bool) : Statement (.crcCheck len hold) := cmdword_reserved _ _ _

theorem busWrite (len : BitVec 5) (hold : Bool) : Statement (.busWrite len hold) := cmdword_reserved _ _ _

theorem busRead (len : BitVec 5) (hold : Bool) : Statement (.busRead len hold) := cmdword_reserved _ _ _

theorem triggerSs (len : BitVec 5) (hold : Bool) : Statement (.triggerSs len hold) := cmdword_reserved _ _ _

theorem readMeas (len : BitVec 5) (hold : Bool) : Statement (.readMeas len hold) := cmdword_reserved _ _ _

theorem measure (len : BitVec 5) (hold : Bool) : Statement (.measure len hold) := cmdword_reserved _ _ _

theorem convT (len : BitVec 5) (hold : Bool) : Statement (.convT len hold) := cmdword_reserved _ _ _

theorem convRhf (len : BitVec 5) (hold : Bool) : Statement (.convRhf len hold) := cmdword_reserved _ _ _

theorem convRhp (len : BitVec 5) (hold : Bool) : Statement (.convRhp len hold) := cmdword_reserved _ _ _

theorem ascSet (len : BitVec 5) (hold : Bool) : Statement (.ascSet len hold) := cmdword_reserved _ _ _

theorem ascGet (len : BitVec 5) (hold : Bool) : Statement (.ascGet len hold) := cmdword_reserved _ _ _

theorem ascDisableQuery (len : BitVec 5) (hold : Bool) : Statement (.ascDisableQuery len hold) := cmdword_reserved _ _ _

theorem frc (len : BitVec 5) (hold : Bool) : Statement (.frc len hold) := cmdword_reserved _ _ _

theorem readSerial (len : BitVec 5) (hold : Bool) : Statement (.readSerial len hold) := cmdword_reserved _ _ _

theorem readSerialNumber : Statement .readSerialNumber := .inl rfl

theorem setAscEnabled (payload : Half) (check : Byte) : Statement (.setAscEnabled payload check) := .inr rfl

theorem getAscEnabled : Statement .getAscEnabled := .inl rfl

theorem measureSingleShot : Statement .measureSingleShot := .inl rfl

theorem readMeasurement : Statement .readMeasurement := .inl rfl

theorem performFrc (ppm : Half) (check : Byte) : Statement (.performFrc ppm check) := .inr rfl

end Sys2Proof.Laws.CodeForm
end

