-- ==== Sys2Proof/Laws/Command.lean ====
section
/-! SUPPORT. A CMD word and the instruction it decodes to: what each says of the other (30_encoding.md R110 to R114). -/

namespace Sys2Proof

open Machine

/-- The op an assigned OP value gives has the fields it was made from. -/
theorem opAssigned_spec {op : Byte} {len : BitVec 5} {hold : Bool} {i : Instr} (h : opAssigned op len hold = some i) :
    isCommand i = true ∧ opOf i = op ∧ lenOf i = len ∧ holdOf i = hold := by
  have hb : ∀ n, op.toNat = n → op = BitVec.ofNat 8 n := fun n hn => by
    apply BitVec.eq_of_toNat_eq
    rw [BitVec.toNat_ofNat, ← hn]
    have := op.isLt
    omega
  unfold opAssigned at h
  split at h <;> cases h <;> (rename_i hn; exact ⟨rfl, (hb _ hn).symm, rfl, rfl⟩)

/-- Every host op is assigned to its own OP value. -/
theorem opAssigned_of_command {i : Instr} (h : isCommand i = true) :
    opAssigned (opOf i) (lenOf i) (holdOf i) = some i := by
  cases i <;> first | rfl | cases h

/-- A CMD word that decodes has the fields of its instruction, and its reserved bits are 0. -/
theorem decodeCmd_spec {v : Word} {i : Instr} (h : decodeCmd v = .ok i) :
    isCommand i = true ∧ opOf i = cmdOp v ∧ lenOf i = cmdLen v ∧ holdOf i = cmdHold v ∧ cmdReservedZero v = true := by
  unfold decodeCmd at h
  split at h
  · cases h
  · rename_i j hj
    split at h
    · cases h
      obtain ⟨a, b, c, d⟩ := opAssigned_spec hj
      exact ⟨a, b, c, d, ‹_›⟩
    · cases h

/-- The model's operand test is the table of R112 and R113. -/
theorem operandsLegal_iff {i : Instr} (h : isCommand i = true) :
    operandsLegal i = true ↔ legalFields (opOf i) (lenOf i) (holdOf i) := by
  cases i <;> cases h
  all_goals simp [operandsLegal, lenLegal, holdLegal, holdOf, opOf, lenOf, legalFields, BitVec.toNat_eq]

end Sys2Proof
end

