-- ==== Sys2Proof/Laws/Lines.lean ====
section
/-! SUPPORT. What each line of the pseudocode can do, said once: a bus line in its two outcomes, a Wait in its cases, and a
check in its two. -/

namespace Sys2Proof.Machine

variable {op : Instr} {lat : Latch} {rest : List Line} {s : State}

/-- `try I2CWrite` when the draw is Ok (00_scope.md R11). -/
theorem lineWrite_ok {bytes : List Byte} {hold : Bool} (h : drawFailure s.bus s.env.draw = none) :
    lineWrite bytes hold op lat rest s =
      (s.afterTransaction (writeEvents s.bus s.env.draw lat.addr bytes hold) (endOfWrite hold)).goto op rest lat := by
  simp only [lineWrite, i2cWrite_ok h]

/-- A write that fails, with what the pins carried of it and its clean-up (41_transport.md R171, R176). -/
theorem lineWrite_failed {bytes : List Byte} {hold : Bool} {f : FailKind} (h : drawFailure s.bus s.env.draw = some f) :
    lineWrite bytes hold op lat rest s = raiseTransport op lat f (s.afterTransaction (openEvents s.bus s.env.draw ++
      (failedWriteEvents s.bus (addrByte lat.addr false :: bytes) f s.env.draw ++ cleanupEvents s.bus f s.env.draw)) .free) := by
  simp only [lineWrite, i2cWrite_fail h]

theorem lineWrite_fail {bytes : List Byte} {hold : Bool} {f : FailKind} (h : drawFailure s.bus s.env.draw = some f) :
    ∃ evs, lineWrite bytes hold op lat rest s = raiseTransport op lat f (s.afterTransaction evs .free) :=
  ⟨_, lineWrite_failed h⟩

/-- `rx <- try I2CRead` when the draw is Ok. -/
theorem lineRead_ok {n : Nat} (h : drawFailure s.bus s.env.draw = none) :
    lineRead n op lat rest s =
      { s.afterTransaction (readEvents s.bus s.env.draw lat.addr n) .free with rx := readBytes n s.env.draw }.goto
        op rest lat := by
  simp only [lineRead, i2cRead_ok h]

/-- A read that fails, with what the pins carried of it and its clean-up (41_transport.md R172, R176). -/
theorem lineRead_failed {n : Nat} {f : FailKind} (h : drawFailure s.bus s.env.draw = some f) :
    lineRead n op lat rest s = raiseTransport op lat f { s.afterTransaction (openEvents s.bus s.env.draw ++
      (failedReadEvents s.bus lat.addr n f s.env.draw ++ cleanupEvents s.bus f s.env.draw)) .free with rx := [] } := by
  simp only [lineRead, i2cRead_fail h]

theorem lineRead_fail {n : Nat} {f : FailKind} (h : drawFailure s.bus s.env.draw = some f) :
    ∃ evs, lineRead n op lat rest s = raiseTransport op lat f { s.afterTransaction evs .free with rx := [] } :=
  ⟨_, lineRead_failed h⟩

/-- A Wait of 0 ms is over at once (41_transport.md R183). -/
theorem lineWait_zero {d : Delay} (h : delayMs lat d = 0) : lineWait d op lat rest s = s.goto op rest lat := by
  simp only [lineWait, if_pos h]

theorem lineWait_pos {d : Delay} (h : delayMs lat d ≠ 0) : lineWait d op lat rest s =
    { s with waitCtr := (delayMs lat d).toNat * Config.cyclesPerMs }.goto op (.waiting d :: rest) lat := by
  simp only [lineWait, if_neg h]

theorem lineWaiting_last {d : Delay} (h : s.waitCtr ≤ 1) :
    lineWaiting d op lat rest s = { s with waitCtr := 0 }.goto op rest lat := by
  simp only [lineWaiting, if_pos h]

theorem lineWaiting_more {d : Delay} (h : ¬ s.waitCtr ≤ 1) : lineWaiting d op lat rest s =
    { s with waitCtr := s.waitCtr - 1 }.goto op (.waiting d :: rest) lat := by
  simp only [lineWaiting, if_neg h]

/-- The lowest failing word is below the count, and fails; every word before it is good (42_measurement.md R203). -/
theorem firstBadWord_some {bs : List Byte} {n i : Nat} (h : firstBadWord bs n = some i) :
    i < n ∧ groupValid bs i = false ∧ ∀ j < i, groupValid bs j = true := by
  simp only [firstBadWord, List.find?_range_eq_some] at h
  obtain ⟨h1, h2, h3⟩ := h
  refine ⟨by simpa using h2, by simpa using h1, fun j hj => ?_⟩
  simpa using h3 j hj

theorem firstBadWord_none {bs : List Byte} {n : Nat} : firstBadWord bs n = none ↔ ∀ j < n, groupValid bs j = true := by
  simp [firstBadWord]

end Sys2Proof.Machine
end

