-- ==== Sys2Proof/Laws/Exec.lean ====
section
/-! SUPPORT. exec in one place: a host op is runCommand over its pseudocode, a wire command is sendWire; and the cases of
each. -/

namespace Sys2Proof.Machine

/-- Every host op's meaning is its pseudocode run by the sequencer. -/
theorem exec_command {i : Instr} (h : isCommand i = true) (s : State) : exec i s = runCommand i (linesOf i) s := by
  cases i <;> first | rfl | simp [isCommand] at h

/-- Every wire command's meaning is its frame sent by the sequencer's line. -/
theorem exec_wire {f : Instr} (h : isCommand f = false) (s : State) : exec f s = sendWire f s := by
  cases f <;> first | rfl | simp [isCommand] at h

theorem exec_idle {i : Instr} {s : State} (h : isCommand i = true) (hs : s.phase = .idle) :
    exec i s = .next (accept i (linesOf i) s) := by
  simp only [exec_command h, runCommand, hs]

theorem exec_running {op : Instr} {seq : List Line} {lat : Latch} {s : State} (h : isCommand op = true)
    (hs : s.phase = .busy op seq lat) : exec op s = .next (runSeq op seq lat s) := by
  simp only [exec_command h, runCommand, hs, if_true]

theorem exec_locked {i op : Instr} {seq : List Line} {lat : Latch} {s : State} (h : isCommand i = true)
    (hs : s.phase = .busy op seq lat) (hne : op ≠ i) : exec i s = .next s.dropWrite := by
  simp only [exec_command h, runCommand, hs, if_neg hne]

/-- A host op always answers a next state. -/
theorem exec_command_next {i : Instr} (h : isCommand i = true) (s : State) : ∃ t, exec i s = .next t := by
  rcases hs : s.phase with _ | ⟨op, seq, lat⟩
  · exact ⟨_, exec_idle h hs⟩
  · by_cases hne : op = i
    · subst hne
      exact ⟨_, exec_running h hs⟩
    · exact ⟨_, exec_locked h hs hne⟩

/-- A wire command at its own line is that line (30_encoding.md R122 to R127). -/
theorem exec_wire_at_line {f op : Instr} {rest : List Line} {lat : Latch} {s : State} (h : isCommand f = false)
    (hs : s.phase = .busy op (.write (encodeFrame f) (wireHold f) :: rest) lat) :
    exec f s = .next (lineWrite (encodeFrame f) (wireHold f) op lat rest s) := by
  simp [exec_wire h, sendWire, hs, lineSends]

/-- A frame that decodes is the frame of a wire command. -/
theorem decodeFrame_spec {bs : List Byte} {f : Instr} (h : decodeFrame bs = .ok f) :
    isCommand f = false ∧ encodeFrame f = bs := by
  have hword : ∀ (a b : Byte) (n : Nat), (word a b).toNat = n → a = (BitVec.ofNat 16 n).extractLsb' 8 8 ∧
      b = (BitVec.ofNat 16 n).extractLsb' 0 8 := by
    intro a b n hn
    have : word a b = BitVec.ofNat 16 n := by
      apply BitVec.eq_of_toNat_eq
      rw [hn, BitVec.toNat_ofNat, Nat.mod_eq_of_lt]
      rw [← hn]
      exact (word a b).isLt
    exact ⟨by rw [← this]; exact (hi_word a b).symm, by rw [← this]; exact (lo_word a b).symm⟩
  unfold decodeFrame at h
  match bs with
  | [] => simp [takeFrame] at h
  | [_] => simp [takeFrame] at h
  | a :: b :: rest =>
    simp only [takeFrame] at h
    split at h
    · rename_i i heq
      simp only [Except.ok.injEq] at h
      subst h
      split at heq
      all_goals first
        | (rename_i hn
           obtain ⟨ha, hb⟩ := hword a b _ hn
           simp only [Except.ok.injEq, Prod.mk.injEq] at heq
           obtain ⟨rfl, rfl⟩ := heq
           subst ha hb
           exact ⟨rfl, by decide⟩)
        | (rename_i hn
           obtain ⟨ha, hb⟩ := hword a b _ hn
           split at heq
           · rename_i ph pl c r'
             simp only [Except.ok.injEq, Prod.mk.injEq] at heq
             obtain ⟨rfl, rfl⟩ := heq
             subst ha hb
             refine ⟨rfl, ?_⟩
             simp only [encodeFrame, hi_word, lo_word]
             rfl
           all_goals simp at heq)
        | simp at heq
    · simp at h
    · simp at h

/-- The instruction the sequencer is at answers the line's own effect, whichever layer it is read in. -/
theorem exec_currentInstr {op : Instr} {seq : List Line} {lat : Latch} {s : State} (h : isCommand op = true)
    (hs : s.phase = .busy op seq lat) :
    ∃ i, currentInstr s = some i ∧ exec i s = .next (runSeq op seq lat s) := by
  cases seq with
  | nil => exact ⟨op, by simp [currentInstr, hs], exec_running h hs⟩
  | cons l rest =>
    cases hw : wireOfLine op l with
    | none => exact ⟨op, by simp [currentInstr, hs, hw], exec_running h hs⟩
    | some f =>
      refine ⟨f, by simp [currentInstr, hs, hw], ?_⟩
      cases l with
      | write bytes hold =>
        simp only [wireOfLine] at hw
        split at hw
        · rename_i g hg
          obtain ⟨hc, he⟩ := decodeFrame_spec hg
          split at hw
          · rename_i hcond
            simp only [Option.some.injEq] at hw
            subst hw
            simp only [Bool.and_eq_true, beq_iff_eq] at hcond
            obtain ⟨_, hh⟩ := hcond
            subst he hh
            rw [exec_wire_at_line hc hs]
            rfl
          · simp at hw
        · simp at hw
      | _ => simp [wireOfLine] at hw

/-- No line touches CTRL, STATUS, an operand or result register or BUF, and the op is still running after it: everything
an op does to them is in its completion (20_memory.md R93). -/
theorem runLine_keeps (l : Line) (op : Instr) (lat : Latch) (rest : List Line) (s : State) :
    (runLine l op lat rest s).ctrl = s.ctrl ∧ (runLine l op lat rest s).status = s.status ∧
      (runLine l op lat rest s).oper = s.oper ∧ (runLine l op lat rest s).res = s.res ∧
      (runLine l op lat rest s).buf = s.buf ∧ ∃ seq, (runLine l op lat rest s).phase = .busy op seq lat := by
  cases l with
  | write bs h =>
    simp only [runLine]
    cases hd : drawFailure s.bus s.env.draw with
    | none =>
      rw [lineWrite_ok hd]
      exact ⟨rfl, rfl, rfl, rfl, rfl, _, rfl⟩
    | some f =>
      obtain ⟨ev, he⟩ := lineWrite_fail (op := op) (lat := lat) (rest := rest) (bytes := bs) (hold := h) hd
      rw [he]
      exact ⟨rfl, rfl, rfl, rfl, rfl, _, rfl⟩
  | read n =>
    simp only [runLine]
    cases hd : drawFailure s.bus s.env.draw with
    | none =>
      rw [lineRead_ok hd]
      exact ⟨rfl, rfl, rfl, rfl, rfl, _, rfl⟩
    | some f =>
      obtain ⟨ev, he⟩ := lineRead_fail (op := op) (lat := lat) (rest := rest) (n := n) hd
      rw [he]
      exact ⟨rfl, rfl, rfl, rfl, rfl, _, rfl⟩
  | _ =>
    simp only [runLine, lineWait, lineWaiting, lineCrcCompute, lineCrcCheck, lineStoreRx, lineTriplet, stageConv,
      lineConvT, lineConvRhf, lineConvRhp, lineAscClear, lineCheckWord, lineAscResult, lineWarmupLoop,
      lineWarmupCheck, lineFrcResult, lineSerial]
    try split
    all_goals exact ⟨rfl, rfl, rfl, rfl, rfl, _, rfl⟩

/-- A line that makes no transaction leaves the bus and the pins alone (41_transport.md R173). -/
theorem runLine_off_bus {l : Line} (op : Instr) (lat : Latch) (rest : List Line) (s : State) (h : l.onBus = false) :
    (runLine l op lat rest s).bus = s.bus ∧ (runLine l op lat rest s).env = s.env := by
  cases l with
  | write bs h' => cases h
  | read n => cases h
  | _ =>
    simp only [runLine, lineWait, lineWaiting, lineCrcCompute, lineCrcCheck, lineStoreRx, lineTriplet, stageConv,
      lineConvT, lineConvRhf, lineConvRhp, lineAscClear, lineCheckWord, lineAscResult, lineWarmupLoop,
      lineWarmupCheck, lineFrcResult, lineSerial]
    try split
    all_goals exact ⟨rfl, rfl⟩

/-- n + 1 of an op's steps are one and then n. -/
theorem execTimes_succ {n : Nat} {i : Instr} {s t : State} (h : exec i s = .next t) :
    execTimes (n + 1) i s = execTimes n i t := by
  simp only [execTimes, h]

theorem execTimes_add {i : Instr} : ∀ {n m : Nat} {s t : State}, execTimes n i s = .next t →
    execTimes (n + m) i s = execTimes m i t := by
  intro n
  induction n with
  | zero =>
    intro m s t h
    simp only [execTimes, Host.Outcome.next.injEq] at h
    subst h
    simp
  | succ n ih =>
    intro m s t h
    rw [Nat.succ_add]
    simp only [execTimes] at h ⊢
    cases he : exec i s with
    | next u =>
      rw [he] at h
      exact ih h
    | fault f => simp [he] at h
    | refused r => simp [he] at h

/-- A Wait that is running ends after at most wait_ctr block cycles, whatever else stays as it is (41_transport.md
R183). -/
theorem execTimes_waiting {op : Instr} {d : Delay} {rest : List Line} {lat : Latch} (h : isCommand op = true) :
    ∀ (m : Nat) {s : State}, s.phase = .busy op (.waiting d :: rest) lat → s.waitCtr ≤ m →
      ∃ n, execTimes n op s = .next ({ s with waitCtr := 0 }.goto op rest lat) := by
  intro m
  induction m with
  | zero =>
    intro s hs hm
    refine ⟨1, ?_⟩
    rw [execTimes_succ (exec_running h hs)]
    simp only [execTimes, runSeq, runLine]
    rw [lineWaiting_last (by omega)]
  | succ m ih =>
    intro s hs hm
    by_cases h1 : s.waitCtr ≤ 1
    · refine ⟨1, ?_⟩
      rw [execTimes_succ (exec_running h hs)]
      simp only [execTimes, runSeq, runLine]
      rw [lineWaiting_last h1]
    · obtain ⟨n, hn⟩ := ih (s := { s with waitCtr := s.waitCtr - 1 }.goto op (.waiting d :: rest) lat) rfl
        (by simp only [State.goto_waitCtr]; omega)
      refine ⟨n + 1, ?_⟩
      rw [execTimes_succ (exec_running h hs)]
      simp only [runSeq, runLine]
      rw [lineWaiting_more h1, hn]
      rfl

/-- A whole Wait, of any length, changes nothing but the position of `seq` and leaves wait_ctr as it was, 0. -/
theorem execTimes_wait {op : Instr} {d : Delay} {rest : List Line} {lat : Latch} {s : State} (h : isCommand op = true)
    (hs : s.phase = .busy op (.wait d :: rest) lat) (hw : s.waitCtr = 0) :
    ∃ n, execTimes n op s = .next (s.goto op rest lat) := by
  by_cases h0 : delayMs lat d = 0
  · refine ⟨1, ?_⟩
    rw [execTimes_succ (exec_running h hs)]
    simp only [execTimes, runSeq, runLine]
    rw [lineWait_zero h0]
  · obtain ⟨n, hn⟩ := execTimes_waiting (d := d) (rest := rest) (lat := lat) h
      ((delayMs lat d).toNat * Config.cyclesPerMs)
      (s := { s with waitCtr := (delayMs lat d).toNat * Config.cyclesPerMs }.goto op (.waiting d :: rest) lat) rfl
      (le_refl _)
    refine ⟨n + 1, ?_⟩
    rw [execTimes_succ (exec_running h hs)]
    simp only [runSeq, runLine]
    rw [lineWait_pos h0, hn]
    have : ({ s with waitCtr := 0 } : State) = s := by rw [← hw]
    simp only [State.goto]
    rw [← hw]

end Sys2Proof.Machine
end

