-- ==== Sys2Proof/Laws/Cycle.lean ====
section
/-! SUPPORT. The step in its three cases: a reset cycle, a command written to an idle block, and any other cycle, in which
the host's access is served and then the sequencer goes one line on. -/

namespace Sys2Proof.Machine

/-- The access of a cycle leaves everything of the sequencer and the bus alone. -/
theorem serveAccess_hidden (a : Access) (s : State) :
    (serveAccess a s).phase = s.phase ∧ (serveAccess a s).stage = s.stage ∧ (serveAccess a s).k = s.k ∧
      (serveAccess a s).rx = s.rx ∧ (serveAccess a s).waitCtr = s.waitCtr ∧ (serveAccess a s).bus = s.bus ∧
      (serveAccess a s).res = s.res := by
  cases a with
  | read off size =>
    simp only [serveAccess]
    split <;> simp
  | write off size v =>
    simp only [serveAccess]
    split
    · simp
    · rename_i r hr
      cases r <;> simp only [writeReg, State.respond] <;> (try split) <;> simp [storeOperand]

theorem servePort_hidden (a : Option Access) (s : State) :
    (servePort a s).phase = s.phase ∧ (servePort a s).stage = s.stage ∧ (servePort a s).k = s.k ∧
      (servePort a s).rx = s.rx ∧ (servePort a s).waitCtr = s.waitCtr ∧ (servePort a s).bus = s.bus ∧
      (servePort a s).res = s.res := by
  cases a with
  | none => simp [servePort]
  | some a => exact serveAccess_hidden a s

@[simp] theorem servePort_phase (a : Option Access) (s : State) : (servePort a s).phase = s.phase :=
  (servePort_hidden a s).1

@[simp] theorem servePort_stage (a : Option Access) (s : State) : (servePort a s).stage = s.stage :=
  (servePort_hidden a s).2.1

@[simp] theorem servePort_k (a : Option Access) (s : State) : (servePort a s).k = s.k := (servePort_hidden a s).2.2.1

@[simp] theorem servePort_rx (a : Option Access) (s : State) : (servePort a s).rx = s.rx := (servePort_hidden a s).2.2.2.1

@[simp] theorem servePort_waitCtr (a : Option Access) (s : State) : (servePort a s).waitCtr = s.waitCtr :=
  (servePort_hidden a s).2.2.2.2.1

@[simp] theorem servePort_bus (a : Option Access) (s : State) : (servePort a s).bus = s.bus :=
  (servePort_hidden a s).2.2.2.2.2.1

@[simp] theorem servePort_res (a : Option Access) (s : State) : (servePort a s).res = s.res :=
  (servePort_hidden a s).2.2.2.2.2.2

@[simp] theorem servePort_busy (a : Option Access) (s : State) : (servePort a s).busy = s.busy := by
  simp [State.busy]

/-- While BUSY = 1 an access leaves the operand registers and BUF alone (20_memory.md R86). -/
theorem servePort_operands_busy (a : Option Access) {s : State} (h : s.busy = true) :
    (servePort a s).oper = s.oper ∧ (servePort a s).buf = s.buf := by
  cases a with
  | none => exact ⟨rfl, rfl⟩
  | some a =>
    cases a with
    | read off size =>
      simp only [servePort, serveAccess]
      split <;> simp
    | write off size v =>
      simp only [servePort, serveAccess]
      split
      · simp
      · rename_i r hr
        cases r <;> simp [writeReg, h]

/-- What an access can do to STATUS: its stored fields but DONE and OVERRUN stay (R83, R86). -/
theorem servePort_status (a : Option Access) (s : State) :
    ∃ dn ov, (servePort a s).status = { s.status with done := dn, overrun := ov } ∧ (dn = true → s.status.done = true) := by
  cases a with
  | none => exact ⟨_, _, rfl, id⟩
  | some a =>
    cases a with
    | read off size =>
      simp only [servePort, serveAccess]
      split <;> exact ⟨_, _, rfl, id⟩
    | write off size v =>
      simp only [servePort, serveAccess]
      split
      · exact ⟨_, _, rfl, id⟩
      · rename_i r hr
        cases r <;> simp only [writeReg]
        case status => exact ⟨_, _, rfl, by simp_all⟩
        all_goals first
          | exact ⟨_, _, rfl, id⟩
          | (split <;> exact ⟨_, _, rfl, id⟩)

/-- Two accesses in one cycle do what one does after the other, but for OVERRUN (20_memory.md R94, 60_exceptions.md R311). -/
theorem servePair_cases (b a : Option Access) (s : State) :
    servePair b a s = servePort a (servePort b s) ∨ servePair b a s = (servePort a (servePort b s)).dropWrite := by
  unfold servePair
  cases dropsWrite b s
  · exact .inl rfl
  · exact .inr rfl

/-- A dropped write does nothing but set OVERRUN (20_memory.md R86). -/
theorem servePort_dropped {a : Option Access} {s : State} (h : dropsWrite a s = true) :
    servePort a s = s.dropWrite.respond .ok := by
  unfold dropsWrite at h
  split at h
  · rename_i off size v
    simp only [Bool.and_eq_true, Option.any_eq_true] at h
    obtain ⟨hb, r, hr, hl⟩ := h
    simp only [servePort, serveAccess, hr]
    cases r <;> first | (cases hl; done) | simp only [writeReg, hb, if_true]
  · cases h
  · cases h

theorem dropsWrite_servePort (a b : Option Access) (s : State) : dropsWrite a (servePort b s) = dropsWrite a s := by
  unfold dropsWrite
  split <;> simp

/-- A dropped write leaves OVERRUN = 1, whether the other access of its cycle came after it or before (10_state.md R36). -/
theorem servePair_dropped {b a : Option Access} {s : State} (h : dropsWrite b s = true ∨ dropsWrite a s = true) :
    (servePair b a s).status.overrun = true := by
  unfold servePair
  cases hb : dropsWrite b s with
  | true => rfl
  | false =>
    have ha := h.resolve_left (by simp [hb])
    rw [servePort_dropped (by rwa [dropsWrite_servePort])]
    rfl

theorem servePair_hidden (b a : Option Access) (s : State) :
    (servePair b a s).phase = s.phase ∧ (servePair b a s).stage = s.stage ∧ (servePair b a s).k = s.k ∧
      (servePair b a s).rx = s.rx ∧ (servePair b a s).waitCtr = s.waitCtr ∧ (servePair b a s).bus = s.bus ∧
      (servePair b a s).res = s.res := by
  rcases servePair_cases b a s with h | h <;> simp [h]

theorem servePair_status (b a : Option Access) (s : State) :
    ∃ dn ov, (servePair b a s).status = { s.status with done := dn, overrun := ov } ∧ (dn = true → s.status.done = true) := by
  obtain ⟨dn, ov, h1, h2⟩ := servePort_status b s
  obtain ⟨dn', ov', h3, h4⟩ := servePort_status a (servePort b s)
  have h5 : dn' = true → s.status.done = true := fun h => h2 (by simpa [h1] using h4 h)
  rcases servePair_cases b a s with h | h
  · exact ⟨dn', ov', by rw [h, h3, h1], h5⟩
  · exact ⟨dn', true, by simp [h, State.dropWrite, h3, h1], h5⟩

theorem serveEarly_hidden (c : Cycle) (s : State) :
    (serveEarly c s).phase = s.phase ∧ (serveEarly c s).stage = s.stage ∧ (serveEarly c s).k = s.k ∧
      (serveEarly c s).rx = s.rx ∧ (serveEarly c s).waitCtr = s.waitCtr ∧ (serveEarly c s).bus = s.bus ∧
      (serveEarly c s).res = s.res :=
  servePair_hidden _ _ s

@[simp] theorem serveEarly_phase (c : Cycle) (s : State) : (serveEarly c s).phase = s.phase := (serveEarly_hidden c s).1

@[simp] theorem serveEarly_stage (c : Cycle) (s : State) : (serveEarly c s).stage = s.stage := (serveEarly_hidden c s).2.1

@[simp] theorem serveEarly_k (c : Cycle) (s : State) : (serveEarly c s).k = s.k := (serveEarly_hidden c s).2.2.1

@[simp] theorem serveEarly_rx (c : Cycle) (s : State) : (serveEarly c s).rx = s.rx := (serveEarly_hidden c s).2.2.2.1

@[simp] theorem serveEarly_waitCtr (c : Cycle) (s : State) : (serveEarly c s).waitCtr = s.waitCtr :=
  (serveEarly_hidden c s).2.2.2.2.1

@[simp] theorem serveEarly_bus (c : Cycle) (s : State) : (serveEarly c s).bus = s.bus := (serveEarly_hidden c s).2.2.2.2.2.1

@[simp] theorem serveEarly_res (c : Cycle) (s : State) : (serveEarly c s).res = s.res := (serveEarly_hidden c s).2.2.2.2.2.2

@[simp] theorem serveEarly_busy (c : Cycle) (s : State) : (serveEarly c s).busy = s.busy := by simp [State.busy]

theorem serveEarly_status (c : Cycle) (s : State) :
    ∃ dn ov, (serveEarly c s).status = { s.status with done := dn, overrun := ov } ∧ (dn = true → s.status.done = true) :=
  servePair_status _ _ s

theorem serveEarly_operands_busy (c : Cycle) {s : State} (h : s.busy = true) :
    (serveEarly c s).oper = s.oper ∧ (serveEarly c s).buf = s.buf := by
  obtain ⟨h1, h2⟩ := servePort_operands_busy (beforeAccess c s) h
  obtain ⟨h3, h4⟩ := servePort_operands_busy (earlyAccess c) (s := servePort (beforeAccess c s) s) (by simpa using h)
  unfold serveEarly
  rcases servePair_cases (beforeAccess c s) (earlyAccess c) s with h5 | h5 <;> simp [h5, h1, h2, h3, h4]

/-- An idle block drops no write. -/
theorem dropsWrite_idle (a : Option Access) {s : State} (h : s.busy = false) : dropsWrite a s = false := by
  unfold dropsWrite
  split <;> simp [h]

/-- An idle block serves a cycle's accesses one after the other. -/
theorem serveEarly_idle (c : Cycle) {s : State} (h : s.busy = false) :
    serveEarly c s = servePort (earlyAccess c) (servePort (beforeAccess c s) s) := by
  simp [serveEarly, servePair, dropsWrite_idle _ h]

/-- With one access in it, a cycle serves that one. -/
theorem serveEarly_single {c : Cycle} (h : c.before = none) (s : State) : serveEarly c s = servePort (earlyAccess c) s := by
  have hb : beforeAccess c s = none := by simp [beforeAccess, h]
  simp [serveEarly, servePair, hb, dropsWrite, servePort]

/-- An early access is the cycle's access, or none. -/
theorem earlyAccess_cases (c : Cycle) : earlyAccess c = c.access ∨ earlyAccess c = none := by
  unfold earlyAccess
  split
  · split
    · exact .inr rfl
    · rename_i h _
      exact .inl h.symm
  · rename_i h
    exact .inl h.symm
  · exact .inr rfl

/-- A late access only answers. -/
theorem servePort_late (c : Cycle) (t : State) :
    servePort (lateAccess c) t = t ∨ ∃ r, servePort (lateAccess c) t = t.respond r := by
  unfold lateAccess
  split
  · split
    · simp only [servePort, serveAccess]
      split <;> exact .inr ⟨_, rfl⟩
    · exact .inl rfl
  · exact .inl rfl
  · exact .inl rfl

theorem serveLate_next {c : Cycle} {o : Host.Outcome State Fault Refusal} {t : State} (h : serveLate c o = .next t) :
    ∃ u, o = .next u ∧ t = servePort (lateAccess c) u := by
  cases o <;> simp [serveLate] at h
  exact ⟨_, rfl, h.symm⟩

/-- With no access in it, a cycle is the sequencer's alone. -/
theorem activeCycle_quiet {c : Cycle} {s : State} (h : c.access = none) (hb : c.before = none) :
    activeCycle c s = runSequencer c.stall s := by
  have h1 : earlyAccess c = none := by simp [earlyAccess, h]
  have h2 : lateAccess c = none := by simp [lateAccess, h]
  have h3 : beforeAccess c s = none := by simp [beforeAccess, hb]
  simp only [activeCycle, hostCommand, h, commandOf, h3, serveEarly_single hb, h1, servePort]
  cases runSequencer c.stall s <;> simp [serveLate, h2, servePort]

theorem step_reset {s : State} (h : s.env.cycle.rstN = false) : step s = .next (resetCycle s.env.cycle s.takeCycle) := by
  simp [step, runCycle, h]

theorem step_active {s : State} (h : s.env.cycle.rstN = true) : step s = activeCycle s.env.cycle s.takeCycle := by
  simp [step, runCycle, h]

/-- A command is given only to an idle block. -/
theorem commandOf_idle {a : Option Access} {s : State} {v : Word} (h : commandOf a s = some v) : s.phase = .idle := by
  unfold commandOf at h
  split at h
  · split at h
    · rename_i hc
      exact (State.not_busy_iff s).mp hc.2
    · simp at h
  · simp at h
  · simp at h

theorem commandOf_busy {a : Option Access} {s : State} (h : s.busy = true) : commandOf a s = none := by
  cases hc : commandOf a s with
  | none => rfl
  | some v =>
    have := (State.not_busy_iff s).mpr (commandOf_idle hc)
    simp [h] at this

theorem hostCommand_busy {c : Cycle} {s : State} (h : s.busy = true) : hostCommand c s = none := by
  simp [hostCommand, commandOf_busy h]

theorem hostCommand_idle {c : Cycle} {s : State} {v : Word} (h : hostCommand c s = some v) : s.phase = .idle := by
  unfold hostCommand at h
  split at h
  · exact commandOf_idle ‹_›
  · exact commandOf_idle h

/-- CMD and STATUS stand at one offset each (10_state.md R32). -/
theorem accessReg_cmd {off : Int} {size : Nat} (h : accessReg off size = some .cmd) : off = 8 ∧ size = 4 := by
  unfold accessReg at h
  split at h
  · rename_i hc
    obtain ⟨rfl, h1, h2, h3⟩ := hc
    simp only [Option.some.injEq] at h
    have : off.toNat / 4 = 2 := by
      unfold regOfWord at h
      split at h <;> first | (cases h; done) | rfl | assumption | skip
      split at h <;> cases h
    omega
  · cases h

theorem accessReg_status {off : Int} {size : Nat} (h : accessReg off size = some .status) : off = 4 ∧ size = 4 := by
  unfold accessReg at h
  split at h
  · rename_i hc
    obtain ⟨rfl, h1, h2, h3⟩ := hc
    simp only [Option.some.injEq] at h
    have : off.toNat / 4 = 1 := by
      unfold regOfWord at h
      split at h <;> first | (cases h; done) | rfl | assumption | skip
      split at h <;> cases h
    omega
  · cases h

theorem isWriteTo_cmd {a : Option Access} (h : isWriteTo .cmd a = true) : ∃ v, a = some (.write 8 4 v) := by
  unfold isWriteTo at h
  split at h
  · obtain ⟨rfl, rfl⟩ := accessReg_cmd (by simpa using h)
    exact ⟨_, rfl⟩
  all_goals cases h

theorem isWriteTo_status {a : Option Access} (h : isWriteTo .status a = true) : ∃ v, a = some (.write 4 4 v) := by
  unfold isWriteTo at h
  split at h
  · obtain ⟨rfl, rfl⟩ := accessReg_status (by simpa using h)
    exact ⟨_, rfl⟩
  all_goals cases h

theorem commandOf_some {a : Option Access} {s : State} {v : Word} (h : commandOf a s = some v) :
    a = some (.write 8 4 v) := by
  unfold commandOf at h
  split at h
  · split at h
    · rename_i hc
      obtain ⟨rfl, rfl⟩ := accessReg_cmd hc.1
      simpa using h
    · cases h
  all_goals cases h

/-- What stands before the access of an idle block's cycle: nothing, or a STATUS write and a command, in either order. -/
theorem beforeAccess_idle (c : Cycle) {s : State} (h : s.busy = false) :
    beforeAccess c s = none ∨ beforeAccess c s = c.before ∧
      ∃ v x, (c.before = some (.write 4 4 x) ∧ c.access = some (.write 8 4 v) ∨
        c.before = some (.write 8 4 v) ∧ c.access = some (.write 4 4 x)) := by
  unfold beforeAccess
  cases hp : commandBesideStatus c.before c.access with
  | false => exact .inl (by simp [h])
  | true =>
    refine .inr ⟨by simp, ?_⟩
    simp only [commandBesideStatus, Bool.or_eq_true, Bool.and_eq_true] at hp
    rcases hp with ⟨h1, h2⟩ | ⟨h1, h2⟩
    · obtain ⟨v, hv⟩ := isWriteTo_cmd h1
      obtain ⟨x, hx⟩ := isWriteTo_status h2
      exact ⟨v, x, .inr ⟨hv, hx⟩⟩
    · obtain ⟨v, hv⟩ := isWriteTo_cmd h2
      obtain ⟨x, hx⟩ := isWriteTo_status h1
      exact ⟨v, x, .inl ⟨hx, hv⟩⟩

/-- A host write to CMD at an idle block does nothing but give its command. -/
theorem servePort_cmd_idle {s : State} (v : Word) (h : s.busy = false) :
    servePort (some (.write 8 4 v)) s = s.respond .ok := by
  have h1 : accessReg 8 4 = some .cmd := by decide
  simp [servePort, serveAccess, h1, writeReg, h]

theorem servePort_statusWrite (x : Word) (s : State) :
    servePort (some (.write 4 4 x)) s = State.respond { s with status := { s.status with
      done := s.status.done && !x.getLsbD 1, overrun := s.status.overrun && !x.getLsbD 2 } } .ok := by
  have h1 : accessReg 4 4 = some .status := by decide
  simp [servePort, serveAccess, h1, writeReg, statusWrite]

/-- A cycle that gives a command gives that one, with the host's other write done first. -/
theorem CommandWritten.served {s : State} {v : Word} {u : State} (hs : s.phase = .idle) (h : CommandWritten s v u) :
    hostCommand s.env.cycle s.takeCycle = some v ∧ serveEarly s.env.cycle s.takeCycle = u := by
  have hb : s.takeCycle.busy = false := (State.not_busy_iff _).mpr hs
  have h8 : accessReg 8 4 = some .cmd := by decide
  have h4 : accessReg 4 4 = some .status := by decide
  rw [serveEarly_idle _ hb]
  rcases h with ⟨ha, hn, rfl⟩ | ⟨x, ⟨h1, h2⟩ | ⟨h1, h2⟩, rfl⟩
  · have hbf : beforeAccess s.env.cycle s.takeCycle = none := by
      rcases beforeAccess_idle s.env.cycle hb with h | ⟨-, v', x, ⟨h, -⟩ | ⟨-, h⟩⟩
      · exact h
      · exact absurd h (hn x)
      · rw [ha] at h; simp at h
    rw [hbf, earlyAccess, ha]
    exact ⟨by simp [hostCommand, ha, commandOf, h8, hb], servePort_cmd_idle v hb⟩
  · have hbf : beforeAccess s.env.cycle s.takeCycle = some (.write 4 4 x) := by
      simp [beforeAccess, commandBesideStatus, isWriteTo, h1, h2, h8, h4]
    rw [hbf, earlyAccess, h2]
    refine ⟨by simp [hostCommand, h2, commandOf, h8, hb], ?_⟩
    simp only
    rw [servePort_cmd_idle v (by simpa using hb), servePort_statusWrite]
    rfl
  · have hbf : beforeAccess s.env.cycle s.takeCycle = some (.write 8 4 v) := by
      simp [beforeAccess, commandBesideStatus, isWriteTo, h1, h2, h8, h4]
    rw [hbf, earlyAccess, h2]
    refine ⟨by simp [hostCommand, hbf, h2, commandOf, h8, h4, hb], ?_⟩
    simp only
    rw [servePort_cmd_idle v hb, servePort_statusWrite]
    rfl

theorem CommandWritten.of_hostCommand {s : State} {v : Word} (h : hostCommand s.env.cycle s.takeCycle = some v) :
    CommandWritten s v (serveEarly s.env.cycle s.takeCycle) := by
  have hs : s.phase = .idle := hostCommand_idle h
  have hb : s.takeCycle.busy = false := (State.not_busy_iff _).mpr hs
  have key : ∀ u, CommandWritten s v u → CommandWritten s v (serveEarly s.env.cycle s.takeCycle) := fun u hu => by
    rw [(hu.served hs).2]; exact hu
  unfold hostCommand at h
  split at h
  · rename_i v' hv
    cases h
    have ha := commandOf_some hv
    by_cases hx : ∃ x, s.env.cycle.before = some (.write 4 4 x)
    · obtain ⟨x, hx⟩ := hx
      exact key _ (.inr ⟨x, .inl ⟨hx, ha⟩, rfl⟩)
    · exact key _ (.inl ⟨ha, fun x hx' => hx ⟨x, hx'⟩, rfl⟩)
  · have hc := commandOf_some h
    rcases beforeAccess_idle s.env.cycle hb with h1 | ⟨h1, v', x, ⟨h2, h3⟩ | ⟨h2, h3⟩⟩
    · rw [h1] at hc; cases hc
    · rw [h1, h2] at hc; simp at hc
    · rw [h1, h2] at hc
      cases hc
      exact key _ (.inr ⟨x, .inr ⟨h2, h3⟩, rfl⟩)

/-- An idle block that gets no command has one access in a cycle at most. -/
theorem serveEarly_no_command {c : Cycle} {s : State} (hb : s.busy = false) (h : hostCommand c s = none) :
    serveEarly c s = servePort (earlyAccess c) s := by
  have hbf : beforeAccess c s = none := by
    rcases beforeAccess_idle c hb with h1 | ⟨h1, v, x, ⟨h2, h3⟩ | ⟨h2, h3⟩⟩
    · exact h1
    all_goals
      have h8 : accessReg 8 4 = some .cmd := by decide
      have h4 : accessReg 4 4 = some .status := by decide
      exfalso
      simp [hostCommand, commandOf, h1, h2, h3, h8, h4, hb] at h
  rw [serveEarly_idle _ hb, hbf]
  rfl

/-- What the host's writes leave of an idle block when they give a command: all but DONE, OVERRUN and the answers. -/
theorem CommandWritten.keeps {s : State} {v : Word} {u : State} (h : CommandWritten s v u) :
    ∃ dn ov env, u = { s with status := { s.status with done := dn, overrun := ov }, env := env } ∧
      env.trace = s.env.trace ∧ env.inputs = s.env.inputs.tail := by
  rcases h with ⟨-, -, rfl⟩ | ⟨x, -, rfl⟩ <;> exact ⟨_, _, _, rfl, rfl, rfl⟩

/-- What the sequencer can do in a cycle: nothing, while idle or where the line takes longer, or one line. -/
theorem runSequencer_cases {s t : State} {stall : Bool} (hop : ∀ op seq lat, s.phase = .busy op seq lat → isCommand op = true)
    (h : runSequencer stall s = .next t) :
    t = s ∨ ∃ op seq lat, s.phase = .busy op seq lat ∧ t = runSeq op seq lat s := by
  unfold runSequencer at h
  split at h
  · cases h
    exact .inl rfl
  · rename_i i hi
    split at h
    · cases h
      exact .inl rfl
    · cases hp : s.phase with
      | idle => simp [currentInstr, hp] at hi
      | busy op seq lat =>
        obtain ⟨j, hj, he⟩ := exec_currentInstr (hop op seq lat hp) hp
        rw [hj] at hi
        cases hi
        rw [he] at h
        cases h
        exact .inr ⟨op, seq, lat, rfl, rfl⟩

/-- WHAT A STEP CAN DO with rst_n = 1, said once. A command given to an idle block is refused or starts its op. In any
other cycle the host's accesses are served, and the sequencer stays where it is or runs one line of its op. -/
theorem step_cases {s t : State} (hop : ∀ op seq lat, s.phase = .busy op seq lat → isCommand op = true)
    (hr : s.env.cycle.rstN = true) (h : step s = .next t) :
    (∃ v u, s.phase = .idle ∧ CommandWritten s v u ∧
      ((∃ e op, t = commitIllegal op e u ∧ (e = .illegalCommand ∨ e = .illegalOperand)) ∨
        ∃ i, decodeCmd v = .ok i ∧ isCommand i = true ∧ operandsLegal i = true ∧ t = startOp i (linesOf i) u)) ∨
    (hostCommand s.env.cycle s.takeCycle = none ∧ ∃ w, (t = w ∨ ∃ r, t = w.respond r) ∧
      (w = serveEarly s.env.cycle s.takeCycle ∨
        ∃ op seq lat, s.phase = .busy op seq lat ∧ isCommand op = true ∧
          w = runSeq op seq lat (serveEarly s.env.cycle s.takeCycle))) := by
  rw [step_active hr, activeCycle] at h
  split at h
  · rename_i v hv
    left
    have hid : s.phase = .idle := hostCommand_idle hv
    refine ⟨v, _, hid, CommandWritten.of_hostCommand hv, ?_⟩
    have hid' : (serveEarly s.env.cycle s.takeCycle).phase = .idle := by simpa using hid
    unfold runCommandWord at h
    split at h
    · rename_i i hi
      have hc : isCommand i = true := by
        unfold decodeCmd at hi
        split at hi
        · cases hi
        · rename_i j hj
          split at hi
          · cases hi
            unfold opAssigned at hj
            split at hj <;> cases hj <;> rfl
          · cases hi
      rw [exec_idle hc hid'] at h
      cases h
      unfold accept
      split
      · exact .inr ⟨i, hi, hc, ‹_›, rfl⟩
      · exact .inl ⟨_, _, rfl, .inr rfl⟩
    · cases h
      exact .inl ⟨_, _, rfl, .inl rfl⟩
  · rename_i hv
    right
    refine ⟨hv, ?_⟩
    obtain ⟨w, hw, rfl⟩ := serveLate_next h
    refine ⟨w, servePort_late _ _, ?_⟩
    rcases runSequencer_cases (by simpa using hop) hw with h1 | ⟨op, seq, lat, hp, h1⟩
    · exact .inl h1
    · exact .inr ⟨op, seq, lat, by simpa using hp, hop op seq lat (by simpa using hp), h1⟩

end Sys2Proof.Machine
end

