-- ==== Sys2Proof/Laws/Memory.lean ====
section
/-! SUPPORT. The laws of BUF: a read after a write, the canonical form kept by every write, and equal reads of canonical
memories as equal data. -/

namespace Sys2Proof.Machine

@[simp] theorem Memory.read_empty (a : Nat) : Memory.read [] a = 0 := rfl

/-- A key below the first key of a canonical memory is unlisted. -/
theorem Memory.read_below {m : Memory} : ∀ {lo a : Nat}, Memory.wfFrom lo m = true → a < lo → m.read a = 0 := by
  induction m with
  | nil => intros; rfl
  | cons c m ih =>
    obtain ⟨k, v⟩ := c
    intro lo a h ha
    simp only [Memory.wfFrom, Bool.and_eq_true, decide_eq_true_eq] at h
    obtain ⟨⟨⟨hk, _⟩, _⟩, hm⟩ := h
    have : k ≠ a := by omega
    simp only [Memory.read, this, if_false]
    exact ih hm (by omega)

theorem Memory.wfFrom_mono {m : Memory} {lo lo' : Nat} (h : Memory.wfFrom lo m = true) (hl : lo' ≤ lo) :
    Memory.wfFrom lo' m = true := by
  cases m with
  | nil => rfl
  | cons c m =>
    obtain ⟨k, v⟩ := c
    simp only [Memory.wfFrom, Bool.and_eq_true, decide_eq_true_eq] at h ⊢
    exact ⟨⟨⟨by omega, h.1.1.2⟩, h.1.2⟩, h.2⟩

/-- A read after a write, of a canonical memory. -/
theorem Memory.read_write {m : Memory} : ∀ {lo : Nat} (a b : Nat) (v : Byte), Memory.wfFrom lo m = true →
    (m.write a v).read b = if b = a then v else m.read b := by
  induction m with
  | nil =>
    intro lo a b v _
    by_cases hv : v = 0
    · simp [Memory.write, hv]
    · simp only [Memory.write, if_neg hv, Memory.read]
      by_cases hb : b = a
      · simp [hb]
      · have : a ≠ b := fun e => hb e.symm
        simp [hb, this]
  | cons c m ih =>
    obtain ⟨k, w⟩ := c
    intro lo a b v h
    have h' := h
    simp only [Memory.wfFrom, Bool.and_eq_true, decide_eq_true_eq] at h
    obtain ⟨⟨⟨hk, _⟩, _⟩, hm⟩ := h
    simp only [Memory.write]
    by_cases h1 : a < k
    · rw [if_pos h1]
      by_cases hv : v = 0
      · rw [if_pos hv]
        by_cases hb : b = a
        · have hz : Memory.read ((k, w) :: m) a = 0 := by
            have h2 : Memory.wfFrom k ((k, w) :: m) = true := by
              simp only [Memory.wfFrom, Bool.and_eq_true, decide_eq_true_eq] at h' ⊢
              exact ⟨⟨⟨le_refl k, h'.1.1.2⟩, h'.1.2⟩, h'.2⟩
            exact Memory.read_below h2 h1
          rw [if_pos hb, hb, hz, hv]
        · rw [if_neg hb]
      · rw [if_neg hv]
        by_cases hb : b = a
        · simp [Memory.read, hb]
        · have : a ≠ b := fun e => hb e.symm
          simp [Memory.read, hb, this]
    · rw [if_neg h1]
      by_cases h2 : a = k
      · rw [if_pos h2]
        subst h2
        by_cases hv : v = 0
        · rw [if_pos hv]
          by_cases hb : b = a
          · rw [if_pos hb, hb, hv]
            exact Memory.read_below hm (by omega)
          · have : a ≠ b := fun e => hb e.symm
            simp [Memory.read, hb, this]
        · rw [if_neg hv]
          by_cases hb : b = a
          · simp [Memory.read, hb]
          · have : a ≠ b := fun e => hb e.symm
            simp [Memory.read, hb, this]
      · rw [if_neg h2]
        by_cases hb : b = a
        · have : k ≠ b := by omega
          simp only [Memory.read, this, if_false]
          exact ih a b v hm
        · simp only [Memory.read]
          by_cases hkb : k = b
          · simp [hkb, hb]
          · simp only [hkb, if_false]
            exact ih a b v hm

/-- A write keeps the canonical form. -/
theorem Memory.write_wfFrom {m : Memory} : ∀ {lo : Nat} (a : Nat) (v : Byte), Memory.wfFrom lo m = true → lo ≤ a → a < 16 →
    Memory.wfFrom lo (m.write a v) = true := by
  induction m with
  | nil =>
    intro lo a v _ ha hl
    by_cases hv : v = 0
    · simp [Memory.write, hv, Memory.wfFrom]
    · simp only [Memory.write, if_neg hv, Memory.wfFrom, Bool.and_eq_true, decide_eq_true_eq]
      exact ⟨⟨⟨ha, hl⟩, by simpa using hv⟩, trivial⟩
  | cons c m ih =>
    obtain ⟨k, w⟩ := c
    intro lo a v h ha hl
    have h' := h
    simp only [Memory.wfFrom, Bool.and_eq_true, decide_eq_true_eq] at h
    obtain ⟨⟨⟨hk, hk16⟩, hw⟩, hm⟩ := h
    simp only [Memory.write]
    by_cases h1 : a < k
    · rw [if_pos h1]
      by_cases hv : v = 0
      · rw [if_pos hv]; exact h'
      · rw [if_neg hv]
        simp only [Memory.wfFrom, Bool.and_eq_true, decide_eq_true_eq]
        exact ⟨⟨⟨ha, hl⟩, by simpa using hv⟩, ⟨⟨by omega, hk16⟩, hw⟩, hm⟩
    · rw [if_neg h1]
      by_cases h2 : a = k
      · rw [if_pos h2]
        by_cases hv : v = 0
        · rw [if_pos hv]; exact Memory.wfFrom_mono hm (by omega)
        · rw [if_neg hv]
          simp only [Memory.wfFrom, Bool.and_eq_true, decide_eq_true_eq]
          exact ⟨⟨⟨ha, hl⟩, by simpa using hv⟩, by rw [h2]; exact hm⟩
      · rw [if_neg h2]
        simp only [Memory.wfFrom, Bool.and_eq_true, decide_eq_true_eq]
        exact ⟨⟨⟨hk, hk16⟩, hw⟩, ih a v hm (by omega) hl⟩

theorem Memory.write_wf {m : Memory} {a : Nat} (v : Byte) (h : m.wf = true) (ha : a < 16) : (m.write a v).wf = true :=
  Memory.write_wfFrom a v h (Nat.zero_le a) ha

/-- Two canonical memories that read alike are equal. -/
theorem Memory.ext_of_read : ∀ {m n : Memory} {lo : Nat}, Memory.wfFrom lo m = true → Memory.wfFrom lo n = true →
    (∀ a, m.read a = n.read a) → m = n := by
  intro m
  induction m with
  | nil =>
    intro n lo _ hn hr
    cases n with
    | nil => rfl
    | cons c n =>
      obtain ⟨k, v⟩ := c
      simp only [Memory.wfFrom, Bool.and_eq_true, decide_eq_true_eq] at hn
      have := hr k
      simp only [Memory.read, if_true] at this
      simp [← this] at hn
  | cons c m ih =>
    obtain ⟨k, v⟩ := c
    intro n lo hm hn hr
    have hm' := hm
    simp only [Memory.wfFrom, Bool.and_eq_true, decide_eq_true_eq] at hm
    cases n with
    | nil =>
      have := hr k
      simp only [Memory.read, if_true] at this
      simp [this] at hm
    | cons d n =>
      obtain ⟨k', v'⟩ := d
      have hn' := hn
      simp only [Memory.wfFrom, Bool.and_eq_true, decide_eq_true_eq] at hn
      have hkk : k = k' := by
        by_contra hne
        rcases Nat.lt_or_gt_of_ne hne with hlt | hgt
        · have h1 := hr k
          have hz : Memory.read ((k', v') :: n) k = 0 := by
            have : k' ≠ k := fun e => hne e.symm
            simp only [Memory.read, this, if_false]
            exact Memory.read_below hn.2 (by omega)
          rw [hz] at h1
          simp only [Memory.read, if_true] at h1
          simp [h1] at hm
        · have h1 := hr k'
          have hz : Memory.read ((k, v) :: m) k' = 0 := by
            have : k ≠ k' := hne
            simp only [Memory.read, this, if_false]
            exact Memory.read_below hm.2 (by omega)
          rw [hz] at h1
          simp only [Memory.read, if_true] at h1
          simp [← h1] at hn
      subst hkk
      have hv : v = v' := by
        have h1 := hr k
        simpa [Memory.read] using h1
      subst hv
      congr 1
      refine ih hm.2 hn.2 fun a => ?_
      by_cases ha : k = a
      · subst ha
        rw [Memory.read_below hm.2 (by omega), Memory.read_below hn.2 (by omega)]
      · have := hr a
        simpa [Memory.read, ha] using this

/-- BUF writes leave the result registers alone. -/
theorem foldl_bufWrites_res (bs : List Byte) : ∀ (i : Nat) (r : ResultRegs),
    (bufWritesFrom i bs).foldl ResultRegs.apply r = r := by
  induction bs with
  | nil => exact fun _ _ => rfl
  | cons b bs ih => exact fun i r => ih (i + 1) r

/-- The bytes a success of BUS_READ leaves in BUF (41_transport.md R182). -/
theorem foldl_bufWrites_wf (bs : List Byte) : ∀ (i : Nat) (m : Memory), m.wf = true → i + bs.length ≤ 16 →
    Memory.wf ((bufWritesFrom i bs).foldl bufApply m) = true := by
  induction bs with
  | nil => intro i m h _; exact h
  | cons b bs ih =>
    intro i m h hl
    simp only [List.length_cons] at hl
    exact ih (i + 1) (m.write i b) (Memory.write_wf b h (by omega)) (by omega)

theorem foldl_bufWrites_read (bs : List Byte) : ∀ (i a : Nat) (m : Memory), m.wf = true → i + bs.length ≤ 16 →
    Memory.read ((bufWritesFrom i bs).foldl bufApply m) a =
      if i ≤ a ∧ a < i + bs.length then bs.getD (a - i) 0 else m.read a := by
  induction bs with
  | nil =>
    intro i a m _ _
    have : ¬ (i ≤ a ∧ a < i + ([] : List Byte).length) := by simp
    rw [if_neg this]
    rfl
  | cons b bs ih =>
    intro i a m h hl
    simp only [List.length_cons] at hl ⊢
    have hstep := ih (i + 1) a (m.write i b) (Memory.write_wf b h (by omega)) (by omega)
    have hw : ∀ c, (m.write i b).read c = if c = i then b else m.read c := fun c => Memory.read_write i c b h
    simp only [bufWritesFrom, List.foldl_cons, bufApply]
    rw [hstep, hw]
    by_cases h1 : a = i
    · subst h1
      simp
    · by_cases h2 : i ≤ a ∧ a < i + (bs.length + 1)
      · have h3 : i + 1 ≤ a ∧ a < i + 1 + bs.length := by omega
        have h4 : a - i = (a - (i + 1)) + 1 := by omega
        rw [if_pos h3, if_pos h2, h4]
        simp
      · have h3 : ¬ (i + 1 ≤ a ∧ a < i + 1 + bs.length) := by omega
        rw [if_neg h3, if_neg h2, if_neg h1]

end Sys2Proof.Machine
end

