-- ==== Sys2Proof/Laws/Run.lean ====
section
/-! SUPPORT. How an op runs from its acceptance to its completion: every state between is `running`, and each kind of line
leads from one such state to the next. -/

namespace Sys2Proof.Machine

theorem Reaches.refl (i : Instr) (s : State) : Reaches i s s := ⟨0, rfl⟩

theorem Reaches.trans {i : Instr} {s t u : State} (h1 : Reaches i s t) (h2 : Reaches i t u) : Reaches i s u := by
  obtain ⟨n, hn⟩ := h1
  obtain ⟨m, hm⟩ := h2
  exact ⟨n + m, by rw [execTimes_add hn, hm]⟩

theorem Reaches.of_exec {i : Instr} {s t : State} (h : exec i s = .next t) : Reaches i s t :=
  ⟨1, by rw [execTimes_succ h]; rfl⟩

/-- s with the op at seq since its acceptance: n draws used, evs on the pins, the bus at b, g staged. -/
def running (op : Instr) (seq : List Line) (lat : Latch) (s : State) (n : Nat) (evs : List BusEvent) (b : BusState)
    (g : Stage) (k : Nat) (rx : List Byte) : State :=
  { s.afterBus n evs b with
    status := { s.status with done := false }
    phase := .busy op seq lat
    stage := g
    k := k
    rx := rx
    waitCtr := 0 }

@[simp] theorem State.afterBus_zero (s : State) : s.afterBus 0 [] s.bus = s := by
  simp [State.afterBus, Env.useDraws]

variable {op : Instr} {rest : List Line} {lat : Latch} {s : State} {n : Nat} {evs : List BusEvent} {b : BusState}
  {g : Stage} {k : Nat} {rx : List Byte}

/-- A legal command starts its op with nothing done yet (30_encoding.md R115). -/
theorem exec_start {i : Instr} (hc : isCommand i = true) (hs : s.phase = .idle) (hl : operandsLegal i = true) :
    exec i s = .next (running i (linesOf i (latch i s)) (latch i s) s 0 [] s.bus .empty 0 []) := by
  rw [exec_idle hc hs, accept, if_pos hl]
  simp [startOp, running, State.afterBus, Env.useDraws]

theorem RunsTo.of_start {i : Instr} {t : State} (hc : isCommand i = true) (hs : s.phase = .idle)
    (hl : operandsLegal i = true)
    (h : Reaches i (running i (linesOf i (latch i s)) (latch i s) s 0 [] s.bus .empty 0 []) t) : RunsTo i s t :=
  ⟨_, exec_start hc hs hl, h⟩

@[simp] theorem running_draw {seq : List Line} :
    (running op seq lat s n evs b g k rx).env.draw = s.env.drawAt n := by
  simp [running, State.afterBus, Env.drawAt, Env.draw]

@[simp] theorem running_bus {seq : List Line} : (running op seq lat s n evs b g k rx).bus = b := rfl

@[simp] theorem running_rx {seq : List Line} : (running op seq lat s n evs b g k rx).rx = rx := rfl

@[simp] theorem running_k {seq : List Line} : (running op seq lat s n evs b g k rx).k = k := rfl

@[simp] theorem running_stage {seq : List Line} : (running op seq lat s n evs b g k rx).stage = g := rfl

@[simp] theorem running_phase {seq : List Line} :
    (running op seq lat s n evs b g k rx).phase = .busy op seq lat := rfl

theorem Env.useDraw_trace_update (e : Env) (tr : List BusEvent) :
    ({ e with trace := tr } : Env).useDraw = { e.useDraw with trace := tr } := by
  unfold Env.useDraw
  cases e.answers <;> rfl

theorem running_afterTransaction {seq : List Line} {ev : List BusEvent} {b' : BusState} :
    (running op seq lat s n evs b g k rx).afterTransaction ev b' =
      running op seq lat s (n + 1) (evs ++ ev) b' g k rx := by
  simp only [running, State.afterTransaction, State.afterBus, State.useDraw, State.emit, State.setBus,
    Env.useDraw_trace_update, Env.useDraws, List.append_assoc]

/-- A line that is not at an end is run. -/
theorem reaches_line {l : Line} (hc : isCommand op = true) {t : State}
    (h : runLine l op lat rest (running op (l :: rest) lat s n evs b g k rx) = t) :
    Reaches op (running op (l :: rest) lat s n evs b g k rx) t := by
  refine Reaches.of_exec ?_
  rw [exec_running hc rfl]
  exact congrArg _ h

theorem reaches_write {bytes : List Byte} {hold : Bool} (hc : isCommand op = true) (hd : drawOk b (s.env.drawAt n)) :
    Reaches op (running op (.write bytes hold :: rest) lat s n evs b g k rx)
      (running op rest lat s (n + 1) (evs ++ writeEvents b (s.env.drawAt n) lat.addr bytes hold) (endOfWrite hold)
        g k rx) := by
  apply reaches_line hc
  rw [runLine, lineWrite_ok (by simpa [drawOk] using hd), running_afterTransaction]
  simp only [running_bus, running_draw]
  rfl

theorem reaches_read {m : Nat} (hc : isCommand op = true) (hd : drawOk b (s.env.drawAt n)) :
    Reaches op (running op (.read m :: rest) lat s n evs b g k rx)
      (running op rest lat s (n + 1) (evs ++ readEvents b (s.env.drawAt n) lat.addr m) .free g k
        (readBytes m (s.env.drawAt n))) := by
  apply reaches_line hc
  rw [runLine, lineRead_ok (by simpa [drawOk] using hd), running_afterTransaction]
  simp only [running_bus, running_draw]
  rfl

/-- A transaction that fails ends the op's lines (41_transport.md R176). -/
theorem reaches_write_fail {bytes : List Byte} {hold : Bool} {f : FailKind} (hc : isCommand op = true)
    (hd : drawFailure b (s.env.drawAt n) = some f) :
    ∃ ev, Reaches op (running op (.write bytes hold :: rest) lat s n evs b g k rx)
      (running op [] lat s (n + 1) (evs ++ ev) .free
        { g with writes := [], err := .transportFailure, failWord := 0, tfail := tfailCode f } k rx) := by
  obtain ⟨ev, he⟩ := lineWrite_fail (op := op) (lat := lat) (rest := rest) (bytes := bytes) (hold := hold)
    (s := running op (.write bytes hold :: rest) lat s n evs b g k rx) (f := f) (by simpa using hd)
  refine ⟨ev, reaches_line hc ?_⟩
  rw [runLine, he, running_afterTransaction]
  rfl

theorem reaches_read_fail {m : Nat} {f : FailKind} (hc : isCommand op = true)
    (hd : drawFailure b (s.env.drawAt n) = some f) :
    ∃ ev, Reaches op (running op (.read m :: rest) lat s n evs b g k rx)
      (running op [] lat s (n + 1) (evs ++ ev) .free
        { g with writes := [], err := .transportFailure, failWord := 0, tfail := tfailCode f } k []) := by
  obtain ⟨ev, he⟩ := lineRead_fail (op := op) (lat := lat) (rest := rest) (n := m)
    (s := running op (.read m :: rest) lat s n evs b g k rx) (f := f) (by simpa using hd)
  refine ⟨ev, reaches_line hc ?_⟩
  rw [runLine, he, running_afterTransaction]
  rfl

theorem reaches_wait {d : Delay} (hc : isCommand op = true) :
    Reaches op (running op (.wait d :: rest) lat s n evs b g k rx) (running op rest lat s n evs b g k rx) := by
  obtain ⟨m, hm⟩ := execTimes_wait (d := d) (rest := rest) (lat := lat) hc
    (s := running op (.wait d :: rest) lat s n evs b g k rx) rfl rfl
  exact ⟨m, hm⟩

/-- A line that only stages writes. -/
theorem reaches_stage {l : Line} {ws : List StagedWrite} (hc : isCommand op = true)
    (h : runLine l op lat rest (running op (l :: rest) lat s n evs b g k rx) =
      ((running op (l :: rest) lat s n evs b g k rx).stageWrites ws).goto op rest lat) :
    Reaches op (running op (l :: rest) lat s n evs b g k rx)
      (running op rest lat s n evs b { g with writes := g.writes ++ ws } k rx) :=
  reaches_line hc h

/-- A line that raises. -/
theorem reaches_raise {l : Line} {e : ErrCode} {fw : Nat} {tf : BitVec 2} (hc : isCommand op = true)
    (h : runLine l op lat rest (running op (l :: rest) lat s n evs b g k rx) =
      raise op lat e fw tf (running op (l :: rest) lat s n evs b g k rx)) :
    Reaches op (running op (l :: rest) lat s n evs b g k rx)
      (running op [] lat s n evs b
        { g with writes := [], err := e, failWord := BitVec.ofNat 3 fw, tfail := tf } k rx) :=
  reaches_line hc h

/-- A line that lets the op go on. -/
theorem reaches_goto {l : Line} (hc : isCommand op = true)
    (h : runLine l op lat rest (running op (l :: rest) lat s n evs b g k rx) =
      (running op (l :: rest) lat s n evs b g k rx).goto op rest lat) :
    Reaches op (running op (l :: rest) lat s n evs b g k rx) (running op rest lat s n evs b g k rx) :=
  reaches_line hc h

/-- The completion: STATUS, the results and BUF, and nothing else (60_exceptions.md R303, R304). -/
theorem reaches_commit (hc : isCommand op = true) :
    Reaches op (running op [] lat s n evs b g k rx)
      { (s.afterBus n evs b).completed lat.op g.err (failWordFor g.err g.failWord) (tfailFor g.err g.tfail)
          (warmupFor lat.op g.warmupDone) with
        res := commitResults op g s.res
        buf := commitBuf g s.buf } := by
  refine Reaches.of_exec ?_
  rw [exec_running hc rfl]
  rfl

end Sys2Proof.Machine
end

