-- ==== Sys2Proof/Laws/Invariant.lean ====
section
/-! SUPPORT. What each kind of line, an access and a completion do to the invariant of Safety.lean: one lemma for each,
from which a proof over an op's own lines is put together. -/

namespace Sys2Proof.Machine

theorem mem_self_linePositions : ∀ p : List Line, p ∈ linePositions p := by
  intro p
  cases p with
  | nil => simp [linePositions]
  | cons l r => cases l <;> simp [linePositions]

/-- A line that leaves the stage and the warm-up count as they are moves `seq` on. -/
theorem RunInv.move {op : Instr} {l : Line} {rest seq' : List Line} {lat : Latch} {s t : State}
    (h : RunInv op (l :: rest) lat s) (hst : t.status = s.status) (hk : t.k = s.k) (hg : t.stage = s.stage)
    (hpos : seq' ∈ opPositions op lat)
    (hbody : .warmupLoop ∈ seq' → seq'.head? ≠ some .warmupLoop → s.k < warmupN)
    (hpast : .frcResult ∈ seq' → .warmupLoop ∉ seq' → s.k = warmupN)
    (hend : seq' = [] → StagedBy op [] ∧ opOf op ≠ 0x43)
    (hbus : usesBus op = true → busDoneAt seq' = true → t.bus = .free ∨ (opOf op = 0x10 ∧ holdOf op = true)) :
    RunInv op seq' lat t := by
  have herr : s.stage.err = .success := by
    by_contra hc
    exact absurd (h.failed hc) (by simp)
  have hw : s.stage.writes = [] := h.unstaged (.inl (by simp))
  exact {
    isOp := h.isOp
    legal := h.legal
    latched := h.latched
    latchedBuf := h.latchedBuf
    position := hpos
    notDone := by rw [hst]; exact h.notDone
    warmups := by rw [hk, hg]; exact h.warmups
    inBody := by rw [hk]; exact hbody
    pastWarmup := by rw [hk]; exact hpast
    warmupsDone := fun h1 h2 _ => absurd h1 (hend h2).2
    code := by rw [hg]; exact h.code
    failed := by rw [hg]; exact fun hc => absurd herr hc
    staged := by rw [hg, hw]; exact fun h1 _ => (hend h1).1
    unstaged := by rw [hg]; exact fun _ => hw
    failWord := by rw [hg]; exact h.failWord
    tfail := by rw [hg]; exact h.tfail
    busDone := by
      rw [hg]
      intro h1 h2
      rcases hbus h1 h2 with h3 | ⟨h3, h4⟩
      · exact .inl h3
      · exact .inr ⟨h3, h4, herr⟩ }

/-- A last line that stages the op's results. -/
theorem RunInv.stageEnd {op : Instr} {l : Line} {lat : Latch} {s t : State} {ws : List StagedWrite}
    (h : RunInv op [l] lat s) (hst : t.status = s.status) (hk : t.k = s.k)
    (hg : t.stage = { s.stage with writes := s.stage.writes ++ ws })
    (hpos : [] ∈ opPositions op lat) (hS : StagedBy op ws) (hfrc : opOf op = 0x43 → s.k = warmupN)
    (hl : l.onBus = false) (hb : t.bus = s.bus) : RunInv op [] lat t := by
  have herr : s.stage.err = .success := by
    by_contra hc
    exact absurd (h.failed hc) (by simp)
  have hw : s.stage.writes = [] := h.unstaged (.inl (by simp))
  exact {
    isOp := h.isOp
    legal := h.legal
    latched := h.latched
    latchedBuf := h.latchedBuf
    position := hpos
    notDone := by rw [hst]; exact h.notDone
    warmups := by rw [hk, hg]; exact h.warmups
    inBody := by simp
    pastWarmup := by simp
    warmupsDone := fun h1 _ _ => by rw [hk]; exact hfrc h1
    code := by rw [hg]; exact h.code
    failed := fun _ => rfl
    staged := by rw [hg, hw]; exact fun _ _ => by simpa using hS
    unstaged := by rw [hg]; simp [herr]
    failWord := by rw [hg]; exact h.failWord
    tfail := by rw [hg]; exact h.tfail
    busDone := by
      rw [hb, hg]
      intro h1 _
      exact h.busDone h1 (by simp [busDoneAt, hl]) }

/-- A line that raises. -/
theorem RunInv.fail {op : Instr} {l : Line} {rest : List Line} {lat : Latch} {s t : State} {e : ErrCode} {w : Nat}
    {tf : BitVec 2}
    (h : RunInv op (l :: rest) lat s) (hst : t.status = s.status) (hk : t.k = s.k) (hw : t.stage.warmupDone = s.k)
    (hpos : [] ∈ opPositions op lat) (he : e ∈ codesOf op lat.ascCheck) (hes : e ≠ .success) (hwl : w ≤ 4)
    (htf : e = .transportFailure → tf ≠ 0) (hb : usesBus op = true → t.bus = .free) :
    RunInv op [] lat (raise op lat e w tf t) := by
  exact {
    isOp := h.isOp
    legal := h.legal
    latched := h.latched
    latchedBuf := h.latchedBuf
    position := hpos
    notDone := by rw [raise_status, hst]; exact h.notDone
    warmups := by simp [hk, hw, h.warmups.1]
    inBody := by simp
    pastWarmup := by simp
    warmupsDone := fun _ _ h3 => by simp at h3; exact absurd h3 hes
    code := by simpa using he
    failed := fun _ => rfl
    staged := fun _ h3 => by simp at h3; exact absurd h3 hes
    unstaged := fun _ => by simp
    failWord := by simp; omega
    tfail := by simpa using htf
    busDone := fun h1 _ => .inl (by simpa using hb h1) }

/-- The part of Inv that does not look at the sequencer. -/
structure Base (s : State) : Prop where
  bufWf : Memory.wf s.buf = true
  busNotOwned : s.bus ≠ .owned
  statusInv : StatusInv s.status
  rxLength : s.rx.length ≤ 16
  measured : s.res.valid.meas = true →
    s.res.tQ16 = convT s.res.tRaw ∧ s.res.rhFracQ16 = convRHF s.res.rhRaw ∧ s.res.rhPctQ16 = convRHP s.res.rhRaw

theorem Base.mk' {s t : State} (h : Base s) (h1 : t.buf = s.buf) (h2 : t.bus = s.bus ∨ t.bus ≠ .owned)
    (h3 : t.status = s.status) (h4 : t.rx.length ≤ 16) (h5 : t.res = s.res) : Base t := by
  refine ⟨by rw [h1]; exact h.bufWf, ?_, by rw [h3]; exact h.statusInv, h4, by rw [h5]; exact h.measured⟩
  rcases h2 with h2 | h2
  · rw [h2]; exact h.busNotOwned
  · exact h2

theorem Inv.ofBusy {s : State} {op : Instr} {seq : List Line} {lat : Latch} (hb : Base s)
    (hp : s.phase = .busy op seq lat) (hr : RunInv op seq lat s) : Inv s := by
  refine ⟨hb.bufWf, hb.busNotOwned, hb.statusInv, hb.rxLength, hb.measured, ?_⟩
  rw [hp]; exact hr

theorem Inv.base {s : State} (h : Inv s) : Base s :=
  ⟨h.bufWf, h.busNotOwned, h.statusInv, h.rxLength, h.measured⟩

theorem tfailCode_ne (f : FailKind) : tfailCode f ≠ 0 := by cases f <;> decide

variable {op : Instr} {lat : Latch} {rest : List Line} {s : State}

theorem endOfWrite_ne (h : Bool) : endOfWrite h ≠ .owned := by cases h <;> simp [endOfWrite]

/-- A write keeps the invariant, Ok or not. -/
theorem keep_write {bytes : List Byte} {hold : Bool} (hb : Base s) (h : RunInv op (.write bytes hold :: rest) lat s)
    (hpos : rest ∈ opPositions op lat) (hpos0 : [] ∈ opPositions op lat)
    (hbody : .warmupLoop ∈ rest → rest.head? ≠ some .warmupLoop → s.k < warmupN)
    (hpast : .frcResult ∈ rest → .warmupLoop ∉ rest → s.k = warmupN)
    (hend : rest = [] → StagedBy op [] ∧ opOf op ≠ 0x43)
    (hcode : .transportFailure ∈ codesOf op lat.ascCheck)
    (hbus : busDoneAt rest = true → hold = false ∨ (opOf op = 0x10 ∧ holdOf op = true)) :
    Inv (lineWrite bytes hold op lat rest s) := by
  cases hd : drawFailure s.bus s.env.draw with
  | none =>
    rw [lineWrite_ok hd]
    refine Inv.ofBusy (hb.mk' rfl (.inr (by simpa using endOfWrite_ne hold)) rfl hb.rxLength rfl) rfl
      (h.move rfl rfl rfl hpos hbody hpast hend fun _ h2 => ?_)
    rcases hbus h2 with h3 | h3
    · left; subst h3; rfl
    · exact .inr h3
  | some f =>
    obtain ⟨evs, he⟩ := lineWrite_fail (op := op) (lat := lat) (rest := rest) (bytes := bytes) (hold := hold) hd
    rw [he]
    refine Inv.ofBusy (hb.mk' rfl (.inr (by simp [raiseTransport])) rfl hb.rxLength rfl) rfl
      (h.fail rfl rfl ?_ hpos0 hcode (by simp) (by omega) (fun _ => tfailCode_ne f) (fun _ => rfl))
    exact h.warmups.2

/-- A read keeps the invariant, Ok or not. -/
theorem keep_read {n : Nat} (hb : Base s) (h : RunInv op (.read n :: rest) lat s) (hn : n ≤ 16)
    (hpos : rest ∈ opPositions op lat) (hpos0 : [] ∈ opPositions op lat)
    (hbody : .warmupLoop ∈ rest → rest.head? ≠ some .warmupLoop → s.k < warmupN)
    (hpast : .frcResult ∈ rest → .warmupLoop ∉ rest → s.k = warmupN)
    (hend : rest = [] → StagedBy op [] ∧ opOf op ≠ 0x43)
    (hcode : .transportFailure ∈ codesOf op lat.ascCheck) :
    Inv (lineRead n op lat rest s) := by
  cases hd : drawFailure s.bus s.env.draw with
  | none =>
    rw [lineRead_ok hd]
    exact Inv.ofBusy (hb.mk' rfl (.inr (by simp)) rfl (by simpa using hn) rfl) rfl
      (h.move rfl rfl rfl hpos hbody hpast hend fun _ _ => .inl rfl)
  | some f =>
    obtain ⟨evs, he⟩ := lineRead_fail (op := op) (lat := lat) (rest := rest) (n := n) hd
    rw [he]
    exact Inv.ofBusy (hb.mk' rfl (.inr (by simp [raiseTransport])) rfl (by simp [raiseTransport]) rfl) rfl
      (h.fail rfl rfl h.warmups.2 hpos0 hcode (by simp) (by omega) (fun _ => tfailCode_ne f) (fun _ => rfl))

/-- The start of a Wait keeps the invariant. -/
theorem keep_wait {d : Delay} (hb : Base s) (h : RunInv op (.wait d :: rest) lat s)
    (hpos : rest ∈ opPositions op lat) (hpos1 : (.waiting d :: rest) ∈ opPositions op lat)
    (hbody : .warmupLoop ∈ rest → s.k < warmupN)
    (hpast : .frcResult ∈ rest → .warmupLoop ∉ rest → s.k = warmupN)
    (hend : rest = [] → StagedBy op [] ∧ opOf op ≠ 0x43)
    (hbus : rest.head? ≠ some .warmupCheck) :
    Inv (lineWait d op lat rest s) := by
  have hbd : busDoneAt rest = true → busDoneAt (.wait d :: rest) = true := by
    simp [busDoneAt, hbus, Line.onBus]
  have hbd2 : busDoneAt (.waiting d :: rest) = true → busDoneAt (.wait d :: rest) = true := by
    simp [busDoneAt, Line.onBus]
  have key : ∀ q, busDoneAt q = true → (busDoneAt q = true → busDoneAt (.wait d :: rest) = true) →
      usesBus op = true →
      s.bus = .free ∨ (opOf op = 0x10 ∧ holdOf op = true) := by
    intro q h1 h2 h3
    rcases h.busDone h3 (h2 h1) with h4 | ⟨h4, h5, _⟩
    · exact .inl h4
    · exact .inr ⟨h4, h5⟩
  by_cases h0 : delayMs lat d = 0
  · rw [lineWait_zero h0]
    exact Inv.ofBusy (hb.mk' rfl (.inl rfl) rfl hb.rxLength rfl) rfl
      (h.move rfl rfl rfl hpos (fun h1 _ => hbody h1) hpast hend fun h1 h2 => key _ h2 hbd h1)
  · rw [lineWait_pos h0]
    exact Inv.ofBusy (hb.mk' rfl (.inl rfl) rfl hb.rxLength rfl) rfl
      (h.move rfl rfl rfl hpos1 (fun h1 _ => hbody (by simpa using h1))
        (fun h1 h2 => hpast (by simpa using h1) (by simpa using h2)) (by simp) fun h1 h2 => key _ h2 hbd2 h1)

/-- A cycle of a running Wait keeps the invariant. -/
theorem keep_waiting {d : Delay} (hb : Base s) (h : RunInv op (.waiting d :: rest) lat s)
    (hpos : rest ∈ opPositions op lat)
    (hbody : .warmupLoop ∈ rest → s.k < warmupN)
    (hpast : .frcResult ∈ rest → .warmupLoop ∉ rest → s.k = warmupN)
    (hend : rest = [] → StagedBy op [] ∧ opOf op ≠ 0x43)
    (hbus : rest.head? ≠ some .warmupCheck) :
    Inv (lineWaiting d op lat rest s) := by
  have hbd : busDoneAt rest = true → busDoneAt (.waiting d :: rest) = true := by
    simp [busDoneAt, hbus, Line.onBus]
  have key : ∀ q, busDoneAt q = true → (busDoneAt q = true → busDoneAt (.waiting d :: rest) = true) →
      usesBus op = true →
      s.bus = .free ∨ (opOf op = 0x10 ∧ holdOf op = true) := by
    intro q h1 h2 h3
    rcases h.busDone h3 (h2 h1) with h4 | ⟨h4, h5, _⟩
    · exact .inl h4
    · exact .inr ⟨h4, h5⟩
  by_cases h0 : s.waitCtr ≤ 1
  · rw [lineWaiting_last h0]
    exact Inv.ofBusy (hb.mk' rfl (.inl rfl) rfl hb.rxLength rfl) rfl
      (h.move rfl rfl rfl hpos (fun h1 _ => hbody h1) hpast hend fun h1 h2 => key _ h2 hbd h1)
  · rw [lineWaiting_more h0]
    exact Inv.ofBusy (hb.mk' rfl (.inl rfl) rfl hb.rxLength rfl) rfl
      (h.move rfl rfl rfl h.position (fun h1 _ => hbody (by simpa using h1))
        (fun h1 h2 => hpast (by simpa using h1) (by simpa using h2)) (by simp) fun h1 h2 => key _ h2 id h1)

/-- A last line that stages the op's results keeps the invariant. -/
theorem keep_stage {l : Line} {ws : List StagedWrite} (hb : Base s) (h : RunInv op [l] lat s)
    (hpos : [] ∈ opPositions op lat) (hS : StagedBy op ws) (hfrc : opOf op = 0x43 → s.k = warmupN) (hl : l.onBus = false) : Inv ((s.stageWrites ws).goto op [] lat) :=
  Inv.ofBusy (hb.mk' rfl (.inl rfl) rfl hb.rxLength rfl) rfl (h.stageEnd rfl rfl rfl hpos hS hfrc hl rfl)

/-- A check that raises keeps the invariant. -/
theorem keep_raise {l : Line} {e : ErrCode} {w : Nat} (hb : Base s) (h : RunInv op (l :: rest) lat s)
    (hpos : [] ∈ opPositions op lat) (he : e ∈ codesOf op lat.ascCheck) (hes : e ≠ .success) (het : e ≠ .transportFailure) (hw : w ≤ 4)
    (hbd : busDoneAt (l :: rest) = true) (h10 : opOf op ≠ 0x10) : Inv (raise op lat e w 0 s) := by
  refine Inv.ofBusy (hb.mk' rfl (.inl rfl) rfl hb.rxLength rfl) rfl
    (h.fail rfl rfl h.warmups.2 hpos he hes hw (fun h => absurd h het) fun hu => ?_)
  rcases h.busDone hu hbd with h1 | ⟨h1, _⟩
  · exact h1
  · exact absurd h1 h10

/-- The completion keeps the invariant: what it commits is the op's own. -/
theorem inv_commit (hb : Base s) (h : RunInv op [] lat s) : Inv (commit op lat s) := by
  have hcode := h.code
  refine ⟨?_, hb.busNotOwned, ?_, by simp, ?_, ?_⟩
  · simp only [commit_buf, commitBuf]
    split
    · rename_i he
      have hS := h.staged rfl he
      cases op <;> simp only [StagedBy] at hS
      case busRead =>
        obtain ⟨bs, hl, hS⟩ := hS
        rw [hS]
        exact foldl_bufWrites_wf bs 0 _ hb.bufWf (by omega)
      all_goals first
        | exact hS.elim
        | (rw [hS]; exact hb.bufWf)
        | (obtain ⟨v, hS⟩ := hS; rw [hS]; exact hb.bufWf)
        | (obtain ⟨v, w, x, hS⟩ := hS; rw [hS]; exact hb.bufWf)
    · exact hb.bufWf
  · have hwd : s.stage.warmupDone ≤ 36 := by have := h.warmups; unfold warmupN at this; omega
    refine ⟨?_, ?_, ?_, ?_, ?_⟩
    · simp only [commit_status, commitStatus, failWordFor]
      split <;> first | exact h.failWord | simp
    · simp only [commit_status, commitStatus, failWordFor]
      split <;> simp_all
    · simp only [commit_status, commitStatus, tfailFor]
      have := h.tfail
      split <;> simp_all
    · simp only [commit_status, commitStatus, warmupFor, warmupN]
      split
      · rw [BitVec.toNat_ofNat]; omega
      · simp
    · simp only [commit_status, commitStatus, warmupFor]
      split <;> simp_all
  · simp only [commit_res, commitResults]
    split
    · rename_i he
      have hS := h.staged rfl he
      have hm := hb.measured
      cases op <;> simp only [StagedBy] at hS
      case busRead =>
        obtain ⟨bs, hl, hS⟩ := hS
        rw [hS]
        rw [foldl_bufWrites_res]
        exact hm
      all_goals first
        | exact hS.elim
        | (rw [hS]; exact hm)
        | (obtain ⟨v, hS⟩ := hS; rw [hS]; exact hm)
        | (obtain ⟨v, w, x, hS⟩ := hS; rw [hS]; exact hm)
        | (obtain ⟨v, w, x, hS⟩ := hS; rw [hS]; exact fun _ => ⟨rfl, rfl, rfl⟩)
    · have hm := hb.measured
      cases op <;> simp_all [clearOnFailure, Valid.set]
  · exact ⟨rfl, rfl, rfl, rfl⟩

/-- An update of CTRL, the operand registers, BUF in canonical form, DONE, OVERRUN or the environment keeps the
invariant. -/
theorem Inv.congr {s t : State} (h : Inv s) (hbuf : Memory.wf t.buf = true) (hbus : t.bus = s.bus) (hrx : t.rx = s.rx)
    (hres : t.res = s.res) (hph : t.phase = s.phase) (hstage : t.stage = s.stage) (hk : t.k = s.k)
    (hw : t.waitCtr = s.waitCtr)
    (hst : ∃ dn ov, t.status = { s.status with done := dn, overrun := ov } ∧ (dn = true → s.status.done = true)) : Inv t := by
  obtain ⟨dn, ov, hst, hdn⟩ := hst
  refine ⟨hbuf, by rw [hbus]; exact h.busNotOwned, ?_, by rw [hrx]; exact h.rxLength, by rw [hres]; exact h.measured, ?_⟩
  · rw [hst]
    have h1 := h.statusInv
    exact ⟨h1.1, h1.2, h1.3, h1.4, h1.5⟩
  · have hr := h.running
    rw [hph]
    cases hp : s.phase with
    | idle =>
      rw [hp] at hr
      exact ⟨by rw [hstage]; exact hr.1, by rw [hk]; exact hr.2, by rw [hrx]; exact hr.3, by rw [hw]; exact hr.4⟩
    | busy op seq lat =>
      rw [hp] at hr
      exact {
        isOp := hr.isOp
        legal := hr.legal
        latched := hr.latched
        latchedBuf := hr.latchedBuf
        position := hr.position
        notDone := by
          rw [hst]
          have := hr.notDone
          cases dn with
          | false => rfl
          | true => simp [hdn rfl] at this
        warmups := by rw [hk, hstage]; exact hr.warmups
        inBody := by rw [hk]; exact hr.inBody
        pastWarmup := by rw [hk]; exact hr.pastWarmup
        warmupsDone := by rw [hk, hstage]; exact hr.warmupsDone
        code := by rw [hstage]; exact hr.code
        failed := by rw [hstage]; exact hr.failed
        staged := by rw [hstage]; exact hr.staged
        unstaged := by rw [hstage]; exact hr.unstaged
        failWord := by rw [hstage]; exact hr.failWord
        tfail := by rw [hstage]; exact hr.tfail
        busDone := by rw [hbus, hstage]; exact hr.busDone }

/-- An access keeps BUF's canonical form. -/
theorem servePort_bufWf (a : Option Access) {s : State} (h : Memory.wf s.buf = true) :
    Memory.wf (servePort a s).buf = true := by
  cases a with
  | none => exact h
  | some a =>
    cases a with
    | read off size => simp only [servePort, serveAccess]; split <;> exact h
    | write off size v =>
      simp only [servePort, serveAccess]
      split
      · exact h
      · rename_i r hr
        cases r <;> simp only [writeReg, State.respond, storeOperand] <;> (try split) <;> (try exact h)
        rename_i i hb
        apply Memory.write_wf _ h
        simp only [accessReg] at hr
        split at hr
        · simp only [Option.some.injEq] at hr
          unfold regOfWord at hr
          split at hr <;> first | cases hr | skip
          split at hr
          · cases hr; omega
          · cases hr
        · simp at hr

theorem servePair_bufWf (b a : Option Access) {s : State} (h : Memory.wf s.buf = true) :
    Memory.wf (servePair b a s).buf = true := by
  rcases servePair_cases b a s with h1 | h1 <;> simpa [h1] using servePort_bufWf a (servePort_bufWf b h)

/-- The accesses of a cycle keep the invariant. -/
theorem inv_serveEarly (c : Cycle) {s : State} (h : Inv s) : Inv (serveEarly c s) :=
  h.congr (servePair_bufWf _ _ h.bufWf) (by simp) (by simp) (by simp) (by simp) (by simp) (by simp) (by simp)
    (serveEarly_status c s)

/-- An access keeps the invariant. -/
theorem inv_servePort (a : Option Access) {s : State} (h : Inv s) : Inv (servePort a s) :=
  h.congr (servePort_bufWf a h.bufWf) (by simp) (by simp) (by simp) (by simp) (by simp) (by simp) (by simp)
    (servePort_status a s)

end Sys2Proof.Machine
end

