-- ==== Sys2Proof/Tests/Slice0.lean ====
section
/-! SUPPORT. Tests and witnesses. Every expected value is the spec's own: the encodings of 30_encoding.md, the examples of
the op rules and the known-answer vectors of 95_test_vectors.md. -/

namespace Sys2Proof.Tests

open Sys2Proof Sys2Proof.Machine

/-! ### WellFormed: each check refuses an ill-formed term -/

theorem test_wellFormed_lenZero : (Instr.crcCompute 0 false).wellFormed = false := by decide
theorem test_wellFormed_lenSeventeen : (Instr.busWrite 17 false).wellFormed = false := by decide
theorem test_wellFormed_readLenSeventeen : (Instr.busRead 17 false).wellFormed = false := by decide
theorem test_wellFormed_sixWords : (Instr.crcCheck 6 false).wellFormed = false := by decide
theorem test_wellFormed_lenOnOther : (Instr.triggerSs 1 false).wellFormed = false := by decide
theorem test_wellFormed_holdOnRead : (Instr.busRead 9 true).wellFormed = false := by decide
theorem test_wellFormed_badCheckByte : (Instr.setAscEnabled 0x0000 0x80).wellFormed = false := by decide +kernel
theorem test_wellFormed_badPpmCheck : (Instr.performFrc 0x019F 0x63).wellFormed = false := by decide +kernel
theorem test_wellFormed_accepts : (Instr.busWrite 16 true).wellFormed = true ∧
    (Instr.performFrc 0x019F 0x62).wellFormed = true := by decide +kernel

/-! ### Decode: every constructor from a word of the spec (30_encoding.md R110, R111, R122 to R127), and the rejects -/

theorem test_decode_crcCompute : decodeCmd 0x00000201 = .ok (.crcCompute 2 false) := by decide
theorem test_decode_crcCheck : decodeCmd 0x00000102 = .ok (.crcCheck 1 false) := by decide
theorem test_decode_busWrite : decodeCmd 0x00010210 = .ok (.busWrite 2 true) := by decide
theorem test_decode_busRead : decodeCmd 0x00000911 = .ok (.busRead 9 false) := by decide
theorem test_decode_triggerSs : decodeCmd 0x00000020 = .ok (.triggerSs 0 false) := by decide
theorem test_decode_readMeas : decodeCmd 0x00000021 = .ok (.readMeas 0 false) := by decide
theorem test_decode_measure : decodeCmd 0x00000022 = .ok (.measure 0 false) := by decide
theorem test_decode_convT : decodeCmd 0x00000030 = .ok (.convT 0 false) := by decide
theorem test_decode_convRhf : decodeCmd 0x00000031 = .ok (.convRhf 0 false) := by decide
theorem test_decode_convRhp : decodeCmd 0x00000032 = .ok (.convRhp 0 false) := by decide
theorem test_decode_ascSet : decodeCmd 0x00000040 = .ok (.ascSet 0 false) := by decide
theorem test_decode_ascGet : decodeCmd 0x00000041 = .ok (.ascGet 0 false) := by decide
theorem test_decode_ascDisableQuery : decodeCmd 0x00000042 = .ok (.ascDisableQuery 0 false) := by decide
theorem test_decode_frc : decodeCmd 0x00000043 = .ok (.frc 0 false) := by decide
theorem test_decode_readSerial : decodeCmd 0x00000050 = .ok (.readSerial 0 false) := by decide
theorem test_decode_readSerialNumber : decodeFrame [0x36, 0x82] = .ok .readSerialNumber := by decide
theorem test_decode_setAscEnabled :
    decodeFrame [0x24, 0x16, 0x00, 0x01, 0xB0] = .ok (.setAscEnabled 0x0001 0xB0) := by decide
theorem test_decode_getAscEnabled : decodeFrame [0x23, 0x13] = .ok .getAscEnabled := by decide
theorem test_decode_measureSingleShot : decodeFrame [0x21, 0x9D] = .ok .measureSingleShot := by decide
theorem test_decode_readMeasurement : decodeFrame [0xEC, 0x05] = .ok .readMeasurement := by decide
theorem test_decode_performFrc :
    decodeFrame [0x36, 0x2F, 0x01, 0x9F, 0x62] = .ok (.performFrc 0x019F 0x62) := by decide

theorem test_decode_opZero : decodeCmd 0x00000000 = .error .unassignedOp := by decide
theorem test_decode_opUnassigned : decodeCmd 0x000000FF = .error .unassignedOp := by decide
theorem test_decode_reservedLow : decodeCmd 0x00002201 = .error .reservedBits := by decide
theorem test_decode_reservedHigh : decodeCmd 0x80000201 = .error .reservedBits := by decide
theorem test_decode_unknownFrame : decodeFrame [0x21, 0x9E] = .error .unknownOpcode := by decide
theorem test_decode_longFrame : decodeFrame [0x21, 0x9D, 0x00] = .error .wrongLength := by decide
theorem test_decode_shortFrame : decodeFrame [0x36, 0x2F, 0x01] = .error .shortFrame := by decide
theorem test_decode_tableWord : decodeTableWord 32 0x50 = some (.readSerial 0 false) ∧
    decodeTableWord 16 0xEC05 = some .readMeasurement := by decide

/-! ### The CRC and the conversions: known answers of the spec -/

theorem test_crc_beef : crc8 [0xBE, 0xEF] = 0x92 := by decide +kernel
/-- 40_checksum.md R151: the check value over the ASCII string "123456789". -/
theorem test_crc_check : crc8 [0x31, 0x32, 0x33, 0x34, 0x35, 0x36, 0x37, 0x38, 0x39] = 0xF7 := by decide +kernel
theorem test_crc_zeroWord : crc8 [0x00, 0x00] = 0x81 := by decide +kernel
theorem test_crc_ones : crc8 [0xFF, 0xFF] = 0xAC := by decide +kernel
theorem test_convT_low : convT 0x0000 = 0xFFD30000 := by decide
theorem test_convT_high : convT 0xFFFF = 0x0081FF51 := by decide
theorem test_convRHP_high : convRHP 0xFFFF = 0x0063FF9C := by decide
theorem test_offset_low : (offset16 0x0000).toInt = -32768 := by decide

/-! ### States and readers of the tests -/

/-- The state after reset, with the draws `ds` already made by the environment. -/
def drawing (ds : List Draw) : State := { State.reset with env := { State.reset.env with answers := ds } }

/-- The state after reset, with the block cycles `cs` to come. -/
def receiving (cs : List Cycle) : State := { State.reset with env := { State.reset.env with inputs := cs } }

/-- A transaction that is Ok, reading bs. -/
def reads (bs : List Byte) : Draw := { bytes := bs }

/-- A transaction the device does not acknowledge. -/
def nacks : Draw := { fail := some .nack }

/-- s with the op at seq, its operands latched from s. -/
def atLine (op : Instr) (seq : List Line) (s : State) : State := { s with phase := .busy op seq (latch op s) }

/-- What f reads of the next state. -/
def after {α : Type} (o : Host.Outcome State Fault Refusal) (f : State → α) : Option α :=
  match o with
  | .next t => some (f t)
  | .fault _ | .refused _ => none

/-- BUF holding the bytes bs from index 0. -/
def bufOf (bs : List Byte) : Memory := (bufWritesFrom 0 bs).foldl bufApply []

/-! ### One step of each instruction -/

/-- 40_checksum.md R155's example. -/
theorem test_crcCompute_beef :
    after (exec (.crcCompute 2 false) (atLine (.crcCompute 2 false) [.crcCompute]
      { State.reset with buf := bufOf [0xBE, 0xEF] })) (·.stage.writes) =
      some [.crcResult 0x92, .valid .crc true] := by decide +kernel

/-- 40_checksum.md R156's example, with the wrong checksum 0x93. -/
theorem test_crcCheck_mismatch :
    after (exec (.crcCheck 1 false) (atLine (.crcCheck 1 false) [.crcCheck]
      { State.reset with buf := bufOf [0xBE, 0xEF, 0x93] })) (fun t => (t.stage.err, t.stage.failWord)) =
      some (.checksumMismatch, 0) := by decide +kernel

/-- The second of two words is the bad one. -/
theorem test_crcCheck_secondWord :
    after (exec (.crcCheck 2 false) (atLine (.crcCheck 2 false) [.crcCheck]
      { State.reset with buf := bufOf [0xBE, 0xEF, 0x92, 0x00, 0x00, 0x80] })) (·.stage.failWord) = some 1 := by
  decide +kernel

/-- 41_transport.md R181's example: S, 0xC4, 0x21, 0x9D, P. -/
theorem test_busWrite_trace :
    after (exec (.busWrite 2 false) (atLine (.busWrite 2 false) [.write [0x21, 0x9D] false] (drawing [{}])))
      (·.env.trace) =
      some [.start, .sent 0xC4 true, .sent 0x21 true, .sent 0x9D true, .stop] := by decide

/-- With HOLD the bus stays held (41_transport.md R173). -/
theorem test_busWrite_held :
    after (exec (.busWrite 2 true) (atLine (.busWrite 2 true) [.write [0xEC, 0x05] true] (drawing [{}])))
      (fun t => (t.held, t.env.trace.contains .stop)) = some (true, false) := by decide

/-- On a held bus: Sr, 0xC5, the bytes with the master's ACKs and its last NACK, P (41_transport.md R172). -/
theorem test_busRead_trace :
    after (exec (.busRead 2 false)
      (atLine (.busRead 2 false) [.read 2, .storeRx] { drawing [reads [0xAA, 0x55]] with bus := .held }))
      (·.env.trace) =
      some [.restart, .sent 0xC5 true, .received 0xAA true, .received 0x55 false, .stop] := by decide

/-- A slave that sends nothing is read as 0xFF (41_transport.md R172). -/
theorem test_busRead_silent :
    after (exec (.busRead 2 false) (atLine (.busRead 2 false) [.read 2, .storeRx] (drawing [{}]))) (·.rx) =
      some [0xFF, 0xFF] := by decide

/-- A failed trigger skips its Wait (42_measurement.md R200). -/
theorem test_triggerSs_nack :
    after (exec (.triggerSs 0 false) (atLine (.triggerSs 0 false) triggerSteps (drawing [nacks])))
      (fun t => (t.stage.err, t.stage.tfail, currentInstr t)) =
      some (.transportFailure, 1, some (.triggerSs 0 false)) := by decide

/-- 42_measurement.md R201's example. -/
theorem test_readMeas_triplet :
    after (exec (.readMeas 0 false) (atLine (.readMeas 0 false) [.triplet]
      { State.reset with rx := [0x01, 0xF4, 0x33, 0x66, 0x67, 0xA2, 0x5E, 0xB9, 0x3C] })) (·.stage.writes) =
      some [.co2 500, .tRaw 0x6667, .rhRaw 0x5EB9, .tQ16 1638505, .rhFracQ16 0x5EB9, .rhPctQ16 2424900,
        .valid .meas true] := by decide +kernel

/-- The lowest failing word is the one reported (42_measurement.md R203). -/
theorem test_readMeas_lowestWord :
    after (exec (.readMeas 0 false) (atLine (.readMeas 0 false) [.triplet]
      { State.reset with rx := [0x01, 0xF4, 0x33, 0x66, 0x67, 0xA3, 0x5E, 0xB9, 0x3D] })) (·.stage.failWord) =
      some 1 := by decide +kernel

/-- MEASURE's own last line commits the same values (42_measurement.md R202). -/
theorem test_measure_triplet :
    after (exec (.measure 0 false) (atLine (.measure 0 false) []
      { State.reset with
        stage := ⟨commitTriplet 500 0x6667 0x5EB9, .success, 0, 0, 0⟩ }))
      (fun t => (t.res.co2, t.res.tQ16, t.res.valid.meas, t.status.lastOp)) =
      some (500, 1638505, true, 0x22) := by decide +kernel

/-- 42_measurement.md R209 to R211: the examples. -/
theorem test_convT_example :
    after (exec (.convT 0 false) (atLine (.convT 0 false) [.convT]
      { State.reset with oper := { State.reset.oper with wdata := 0x8000 } })) (·.stage.writes) =
      some [.convOut 0x002A8000, .valid .conv true] := by decide
theorem test_convRhf_example :
    after (exec (.convRhf 0 false) (atLine (.convRhf 0 false) [.convRhf]
      { State.reset with oper := { State.reset.oper with wdata := 0x4000 } })) (·.stage.writes) =
      some [.convOut 0x00004000, .valid .conv true] := by decide
theorem test_convRhp_example :
    after (exec (.convRhp 0 false) (atLine (.convRhp 0 false) [.convRhp]
      { State.reset with oper := { State.reset.oper with wdata := 0x8000 } })) (·.stage.writes) =
      some [.convOut 0x00320000, .valid .conv true] := by decide

/-- 43_calibration.md R230: WDATA = 0x0001 sends S C4 24 16 00 01 B0 P. -/
theorem test_ascSet_trace :
    after (exec (.ascSet 0 false) (atLine (.ascSet 0 false) [.write (frameB 0x2416 0x0001) false] (drawing [{}])))
      (·.env.trace) =
      some [.start, .sent 0xC4 true, .sent 0x24 true, .sent 0x16 true, .sent 0x00 true, .sent 0x01 true,
        .sent 0xB0 true, .stop] := by decide +kernel

/-- 43_calibration.md R231: with ASC_CHECK, [0x00, 0x00, 0x80] is a mismatch, and [0x00, 0x00, 0x81] is not. -/
theorem test_ascGet_checked :
    after (exec (.ascGet 0 false) (atLine (.ascGet 0 false) [.checkWord, .ascResult]
      { State.reset with rx := [0x00, 0x00, 0x80] })) (·.stage.err) = some .checksumMismatch ∧
    after (exec (.ascGet 0 false) (atLine (.ascGet 0 false) [.checkWord, .ascResult]
      { State.reset with rx := [0x00, 0x00, 0x81] })) (·.stage.err) = some .success := by decide +kernel

/-- 43_calibration.md R232: byte 1 of the response is the state. -/
theorem test_ascDisableQuery_byteOne :
    after (exec (.ascDisableQuery 0 false) (atLine (.ascDisableQuery 0 false) [.ascResult]
      { State.reset with rx := [0x12, 0x34] })) (·.stage.writes) =
      some [.ascState 0x34, .valid .asc true] := by decide

/-- 43_calibration.md R233's example: the answer 0x8032 is the offset 50. -/
theorem test_frc_offset :
    after (exec (.frc 0 false) (atLine (.frc 0 false) [.frcResult]
      { State.reset with rx := [0x80, 0x32, 0x05], k := 36 })) (·.stage.writes) =
      some [.frcOffset 0x00000032, .valid .frc true] := by decide

/-- 43_calibration.md R233 step 5: the sentinel. -/
theorem test_frc_sentinel :
    after (exec (.frc 0 false) (atLine (.frc 0 false) [.frcResult]
      { State.reset with rx := [0xFF, 0xFF, 0xAC], k := 36 })) (·.stage.err) =
      some .deviceReportedFailure := by decide

/-- 44_serial.md R260's example. -/
theorem test_readSerial_words :
    after (exec (.readSerial 0 false) (atLine (.readSerial 0 false) [.serial]
      { State.reset with rx := [0x12, 0x34, 0x37, 0x56, 0x78, 0x7D, 0x9A, 0xBC, 0xE0] })) (·.stage.writes) =
      some [.serialHi 0x1234, .serialLo 0x56789ABC, .valid .ser true] := by decide +kernel

/-- Each wire command's bytes and its end (30_encoding.md R122 to R127). -/
theorem test_readSerialNumber_sent :
    after (exec .readSerialNumber (atLine (.readSerial 0 false) [.write [0x36, 0x82] true] (drawing [{}])))
      (·.env.trace) = some [.start, .sent 0xC4 true, .sent 0x36 true, .sent 0x82 true] := by decide
theorem test_setAscEnabled_sent :
    after (exec (.setAscEnabled 0x0000 0x81)
      (atLine (.ascDisableQuery 0 false) [.write [0x24, 0x16, 0x00, 0x00, 0x81] false] (drawing [{}])))
      (·.env.trace) =
      some [.start, .sent 0xC4 true, .sent 0x24 true, .sent 0x16 true, .sent 0x00 true, .sent 0x00 true,
        .sent 0x81 true, .stop] := by decide
theorem test_getAscEnabled_sent :
    after (exec .getAscEnabled (atLine (.ascGet 0 false) [.write [0x23, 0x13] true] (drawing [{}])))
      (·.env.trace) = some [.start, .sent 0xC4 true, .sent 0x23 true, .sent 0x13 true] := by decide
theorem test_measureSingleShot_sent :
    after (exec .measureSingleShot (atLine (.triggerSs 0 false) [.write [0x21, 0x9D] false] (drawing [{}])))
      (·.env.trace) = some [.start, .sent 0xC4 true, .sent 0x21 true, .sent 0x9D true, .stop] := by decide
theorem test_readMeasurement_sent :
    after (exec .readMeasurement (atLine (.readMeas 0 false) [.write [0xEC, 0x05] true] (drawing [{}])))
      (·.env.trace) = some [.start, .sent 0xC4 true, .sent 0xEC true, .sent 0x05 true] := by decide
theorem test_performFrc_sent :
    after (exec (.performFrc 0x019F 0x62)
      (atLine (.frc 0 false) [.write [0x36, 0x2F, 0x01, 0x9F, 0x62] false] (drawing [{}]))) (·.env.trace) =
      some [.start, .sent 0xC4 true, .sent 0x36 true, .sent 0x2F true, .sent 0x01 true, .sent 0x9F true,
        .sent 0x62 true, .stop] := by decide

/-! ### The host port and the step -/

/-- A NACK on the address byte, then STOP (41_transport.md R171, R176). -/
theorem test_nack_address :
    after (exec (.busWrite 1 false) (atLine (.busWrite 1 false) [.write [0x55] false] (drawing [nacks])))
      (·.env.trace) = some [.start, .sent 0xC4 false, .stop] := by decide

/-- Reset values through the port (10_state.md R71). -/
theorem test_read_targetPpm :
    after (step (receiving [{ access := some (.read 0x14 4) }])) (·.env.responses) = some [.data 0x0000019F] := by
  decide

/-- A halfword access is refused (20_memory.md R81). -/
theorem test_halfword_refused :
    after (step (receiving [{ access := some (.write 0x10 2 0xFFFFFFFF) }]))
      (fun t => (t.env.responses, t.oper.wdata)) = some ([.busError], 0x0000) := by decide

/-- CMD = 0 completes with ILLEGAL_COMMAND (30_encoding.md R117): STATUS = 0x00000052. -/
theorem test_command_zero :
    after (step (receiving [{ access := some (.write 0x08 4 0) }])) statusWord = some 0x00000052 := by decide

/-- CRC_COMPUTE with LEN = 17 completes with ILLEGAL_OPERAND: STATUS = 0x01000062. -/
theorem test_command_lenSeventeen :
    after (step (receiving [{ access := some (.write 0x08 4 0x00001101) }])) statusWord = some 0x01000062 := by decide

/-- The host's check runs both layers as the first instruction after reset. -/
theorem test_withFetchWord_command :
    after (step (State.reset.withFetchWord 32 0x30)) (·.busy) = some true := by decide

/-! ### Witnesses: the hypotheses of every statement that has any are met together -/

theorem witness_EncodeOfDecode : decode (.cmd 0x00010210) = .ok (.busWrite 2 true) ∧
    decode (.frame [0x23, 0x13]) = .ok .getAscEnabled := by decide

theorem witness_LegalWordsAreEighty : State.reset.phase = .idle ∧
    (0x10 : Byte) ∈ assignedOps ∧ (∃ i, decodeCmd 0x00011010 = .ok i ∧ operandsLegal i = true) ∧
    (∃ e, decodeCmd 0x00000000 = .error e) :=
  ⟨rfl, by decide, ⟨.busWrite 16 true, by decide⟩, ⟨.unassignedOp, by decide⟩⟩

theorem witness_CrcResidueIsZero : ([0xBE, 0xEF] : List Byte) ≠ [] := by decide

theorem witness_ConversionsIncrease : (0xFFFE : Half).toNat < (0xFFFF : Half).toNat := by decide

theorem witness_OffsetIsExact : (0xFFFE : Half) ≠ 0xFFFF := by decide

/-- The last word of the window, and the access beside it that is no word. -/
theorem witness_AccessesAreWholeWords :
    (4 = 4 ∧ (Config.sibBase + 252) % 4 = 0 ∧ Config.sibBase ≤ Config.sibBase + 252 ∧
      Config.sibBase + 252 < Config.sibBase + 256) ∧
    ¬ (4 = 4 ∧ (Config.sibBase + 254) % 4 = 0 ∧ Config.sibBase ≤ Config.sibBase + 254 ∧
      Config.sibBase + 254 < Config.sibBase + 256) ∧
    ¬ (4 = 4 ∧ (Config.sibBase + 256) % 4 = 0 ∧ Config.sibBase ≤ Config.sibBase + 256 ∧
      Config.sibBase + 256 < Config.sibBase + 256) := by
  have : Config.sibBase % 4 = 0 := by simp [Config.sibBase]; omega
  omega

/-- The four edges of the two reserved ranges, and a register that is not CMD. -/
theorem witness_ReservedReadsZero :
    (22 ≤ 22 ∧ 22 ≤ 31 ∨ 48 ≤ 22 ∧ 22 ≤ 63) ∧ (22 ≤ 31 ∧ 31 ≤ 31 ∨ 48 ≤ 31 ∧ 31 ≤ 63) ∧
    (22 ≤ 48 ∧ 48 ≤ 31 ∨ 48 ≤ 48 ∧ 48 ≤ 63) ∧ (22 ≤ 63 ∧ 63 ≤ 31 ∨ 48 ≤ 63 ∧ 63 ≤ 63) ∧ Reg.status ≠ .cmd := by
  decide

theorem witness_ReadsHaveNoSideEffect : (0x08 : Int) = 0x08 ∧ 4 = 4 := by decide

/-- A command alone in its cycle. -/
theorem written_alone (v : Word) : CommandWritten (receiving [{ access := some (.write 0x08 4 v) }]) v
    ((receiving [{ access := some (.write 0x08 4 v) }]).takeCycle.respond .ok) :=
  .inl ⟨rfl, fun _ => by simp [receiving, Env.cycle], rfl⟩

/-- A command and a write of 1 to DONE in one cycle, in the order the flag says. -/
def besideAck (first : Bool) (v : Word) : State :=
  receiving [if first then { before := some (.write 0x08 4 v), access := some (.write 0x04 4 0x2) }
    else { before := some (.write 0x04 4 0x2), access := some (.write 0x08 4 v) }]

theorem written_beside (first : Bool) (v : Word) : ∃ u, CommandWritten (besideAck first v) v u :=
  ⟨_, .inr ⟨0x2, by cases first <;> simp [besideAck, receiving, Env.cycle], rfl⟩⟩

/-- An illegal command and a W1C of DONE in one cycle: DONE = 1, whichever comes first (10_state.md R35). -/
theorem test_illegal_beats_ack : ∀ first ∈ [true, false],
    after (step (besideAck first 0x00)) (·.status.done) = some true ∧
      after (step (besideAck first 0x1101)) (·.status.done) = some true := by decide

/-- A legal command beside it starts its op, with DONE = 0. -/
theorem test_legal_beside_ack : ∀ first ∈ [true, false],
    after (step (besideAck first 0x30)) (fun t => (t.busy, t.status.done)) = some (true, false) := by decide

/-- CMD written while idle, and the first and the last operand register, the first and the last byte of BUF. -/
theorem witness_HostWritesHaveTheirEffect :
    ((receiving [{ access := some (.write 0x08 4 0x30) }]).busy = false ∧
      (receiving [{ access := some (.write 0x08 4 0x30) }]).env.cycle.rstN = true ∧
      ∃ u, CommandWritten (receiving [{ access := some (.write 0x08 4 0x30) }]) 0x30 u) ∧
    State.reset.busy = false ∧ Memory.wf State.reset.buf = true ∧
    (3 < 64 ∧ operandReg (regOfWord 3) = true) ∧ (8 < 64 ∧ operandReg (regOfWord 8) = true) ∧
    (32 < 64 ∧ operandReg (regOfWord 32) = true) ∧ (47 < 64 ∧ operandReg (regOfWord 47) = true) :=
  ⟨⟨rfl, rfl, _, written_alone _⟩, by decide⟩

theorem witness_ReadOnlyWritesAreIgnored : readOnlyReg .valid = true ∧ readOnlyReg .frcOffset = true ∧
    (writeReg .status 0 { State.reset with status := { State.reset.status with overrun := true } }).status.overrun =
      true := by decide

/-- An op about to complete with g staged, the bus at b, rx read, and the cycles cs to come. -/
def ending (op : Instr) (g : Stage) (b : BusState) (rx : List Byte) (cs : List Cycle) : State :=
  { atLine op [] (receiving cs) with stage := g, bus := b, rx := rx }

/-- A CRC_COMPUTE about to complete. -/
def endingCrc : List Cycle → State := ending (.crcCompute 1 false) ⟨[.crcResult 0x07, .valid .crc true], .success, 0, 0, 0⟩ .free []

/-- A BUS_WRITE with HOLD about to complete, the bus held. -/
def endingHeld : List Cycle → State := ending (.busWrite 16 true) .empty .held []

/-- A BUS_READ about to complete. -/
def endingRead : List Cycle → State := ending (.busRead 1 false) ⟨[.buf 0 0x5A], .success, 0, 0, 0⟩ .free [0x5A]

/-- An ASC_SET whose write was not acknowledged, about to complete. -/
def endingFailed : List Cycle → State := ending (.ascSet 0 false) ⟨[], .transportFailure, 0, 1, 0⟩ .free []

/-- A CRC_COMPUTE at its line, which makes no transaction. -/
def computing (cs : List Cycle) : State := atLine (.crcCompute 1 false) [.crcCompute] (receiving cs)

/-- An idle block after reset meets the invariant, whatever is to come. -/
theorem inv_receiving (cs : List Cycle) : Inv (receiving cs) where
  bufWf := rfl
  busNotOwned := by simp [receiving, State.reset]
  statusInv := by constructor <;> simp [receiving, State.reset]
  rxLength := by simp [receiving, State.reset]
  measured := by simp [receiving, State.reset]
  running := ⟨rfl, rfl, rfl, rfl⟩

theorem inv_ending {op : Instr} {g : Stage} {b : BusState} {rx : List Byte} {cs : List Cycle} (hb : b ≠ .owned)
    (hr : rx.length ≤ 16) (h : RunInv op [] (latch op (receiving cs)) (ending op g b rx cs)) :
    Inv (ending op g b rx cs) where
  bufWf := rfl
  busNotOwned := hb
  statusInv := by constructor <;> simp [ending, atLine, receiving, State.reset]
  rxLength := hr
  measured := by simp [ending, atLine, receiving, State.reset]
  running := h

theorem inv_endingCrc (cs : List Cycle) : Inv (endingCrc cs) := by
  refine inv_ending (by decide) (by decide) ?_
  constructor <;> simp [ending, atLine, receiving, State.reset, isCommand, operandsLegal, lenLegal, holdLegal, holdOf,
    latch, opOf, lenOf, latchesBuf, Memory.wf, Memory.wfFrom, opPositions, linesOf, crcComputeLines, linePositions,
    codesOf, StagedBy, usesBus]

theorem inv_endingHeld (cs : List Cycle) : Inv (endingHeld cs) := by
  refine inv_ending (by decide) (by decide) ?_
  constructor <;> simp [ending, atLine, receiving, State.reset, isCommand, operandsLegal, lenLegal, holdLegal, holdOf,
    latch, opOf, lenOf, latchesBuf, Memory.wf, Memory.wfFrom, opPositions, linesOf, busWriteLines, linePositions,
    codesOf, StagedBy, usesBus, Stage.empty]

theorem inv_endingRead (cs : List Cycle) : Inv (endingRead cs) := by
  refine inv_ending (by decide) (by decide) ?_
  constructor <;> simp [ending, atLine, receiving, State.reset, isCommand, operandsLegal, lenLegal, holdLegal, holdOf,
    latch, opOf, lenOf, latchesBuf, Memory.wf, Memory.wfFrom, opPositions, linesOf, busReadLines, linePositions,
    codesOf, StagedBy, usesBus]
  exact ⟨[0x5A], by decide, rfl⟩

theorem inv_endingFailed (cs : List Cycle) : Inv (endingFailed cs) := by
  refine inv_ending (by decide) (by decide) ?_
  constructor <;> simp [ending, atLine, receiving, State.reset, isCommand, operandsLegal, lenLegal, holdLegal, holdOf,
    latch, opOf, lenOf, latchesBuf, Memory.wf, Memory.wfFrom, opPositions, linesOf, ascSetLines, linePositions,
    codesOf, StagedBy, usesBus]

theorem inv_computing (cs : List Cycle) : Inv (computing cs) where
  bufWf := rfl
  busNotOwned := by simp [computing, atLine, receiving, State.reset]
  statusInv := by constructor <;> simp [computing, atLine, receiving, State.reset]
  rxLength := by simp [computing, atLine, receiving, State.reset]
  measured := by simp [computing, atLine, receiving, State.reset]
  running := by
    show RunInv _ _ (latch (.crcCompute 1 false) (receiving cs)) (computing cs)
    constructor <;> simp [computing, atLine, receiving, State.reset, isCommand, operandsLegal, lenLegal, holdLegal, holdOf,
      latch, opOf, lenOf, latchesBuf, Memory.wf, Memory.wfFrom, opPositions, linesOf, crcComputeLines, linePositions,
      codesOf, StagedBy, usesBus, Stage.empty]

theorem witness_BusyWritesAreDropped :
    (endingCrc []).busy = true ∧ operandReg (.buf 15) = true ∧ readOnlyReg .serialLo = true ∧
    (∃ t, (endingCrc []).phase = .busy (.crcCompute 1 false) [] (latch (.crcCompute 1 false) State.reset) ∧
      isCommand (.crcCompute 1 false) = true ∧ exec (.crcCompute 1 false) (endingCrc []) = .next t) :=
  ⟨rfl, rfl, rfl, _, rfl, rfl, rfl⟩

/-- The first and the last word of the window, in the cycle of a completion, alone and after another access. -/
theorem witness_ReadsAreSingleCopyAtomic :
    (Inv (endingCrc [{ access := some (.read (4 * 0 : Nat) 4) }]) ∧ 0 < 64 ∧
      (endingCrc [{ access := some (.read (4 * 0 : Nat) 4) }]).env.cycle.rstN = true ∧
      (endingCrc [{ access := some (.read (4 * 0 : Nat) 4) }]).env.cycle.access = some (.read (4 * 0 : Nat) 4) ∧
      beforeAccess (endingCrc [{ access := some (.read (4 * 0 : Nat) 4) }]).env.cycle
        (endingCrc [{ access := some (.read (4 * 0 : Nat) 4) }]) = none) ∧
    (Inv (receiving [{ access := some (.read (4 * 63 : Nat) 4), late := true }]) ∧ 63 < 64 ∧
      (receiving [{ access := some (.read (4 * 63 : Nat) 4), late := true }]).env.cycle.rstN = true ∧
      (receiving [{ access := some (.read (4 * 63 : Nat) 4), late := true }]).env.cycle.access =
        some (.read (4 * 63 : Nat) 4)) ∧
    (Inv (endingCrc [{ before := some (.read (4 * 63 : Nat) 4) }]) ∧
      (endingCrc [{ before := some (.read (4 * 63 : Nat) 4) }]).env.cycle.rstN = true ∧
      beforeAccess (endingCrc [{ before := some (.read (4 * 63 : Nat) 4) }]).env.cycle
        (endingCrc [{ before := some (.read (4 * 63 : Nat) 4) }]) = some (.read (4 * 63 : Nat) 4)) :=
  ⟨⟨inv_endingCrc _, by decide, rfl, rfl, rfl⟩, ⟨inv_receiving _, by decide, rfl, rfl⟩, inv_endingCrc _, rfl, rfl⟩

/-- A dropped write and a W1C of OVERRUN in one cycle: OVERRUN = 1, whichever comes first (60_exceptions.md R311). -/
theorem test_overrun_beats_w1c :
    ∀ c ∈ [({ before := some (.write 0x08 4 0x30), access := some (.write 0x04 4 0x4) } : Cycle),
      { before := some (.write 0x04 4 0x4), access := some (.write 0x08 4 0x30) }],
      after (step (computing [c])) (·.status.overrun) = some true := by decide

/-- Alone, or beside a write that is not dropped, the W1C clears OVERRUN (20_memory.md R83). -/
theorem test_overrun_w1c : ∀ b ∈ [none, some (Access.write 0x00 4 0x1)],
    after (step { computing [{ before := b, access := some (.write 0x04 4 0x4) }] with
      status := { State.reset.status with overrun := true } }) (·.status.overrun) = some false := by decide

/-- A completion; an illegal command; and a dropped write of the lowest, the highest and either middle register, in both orders. -/
theorem witness_CompletionBeatsAcknowledge :
    ((endingCrc [{ access := some (.write 0x04 4 0x2) }]).phase =
        .busy (.crcCompute 1 false) [] (latch (.crcCompute 1 false) State.reset) ∧
      isCommand (.crcCompute 1 false) = true ∧
      (endingCrc [{ access := some (.write 0x04 4 0x2) }]).env.cycle.rstN = true ∧
      (endingCrc [{ access := some (.write 0x04 4 0x2) }]).env.cycle.stall = false ∧
      (endingCrc [{ access := some (.write 0x04 4 0x2) }]).env.cycle.access = some (.write 0x04 4 0x2)) ∧
    (∀ first ∈ [true, false], (besideAck first 0x00).phase = .idle ∧ (besideAck first 0x00).env.cycle.rstN = true ∧
      decodeCmd 0x00 = .error .unassignedOp ∧
      ((besideAck first 0x00).env.cycle.before = some (.write 0x08 4 0x00) ∧
          (besideAck first 0x00).env.cycle.access = some (.write 0x04 4 0x2) ∨
        (besideAck first 0x00).env.cycle.before = some (.write 0x04 4 0x2) ∧
          (besideAck first 0x00).env.cycle.access = some (.write 0x08 4 0x00))) ∧
    ∀ w ∈ [2, 8, 32, 47],
      (2 ≤ w ∧ w ≤ 8 ∨ 32 ≤ w ∧ w ≤ 47) ∧
      ∀ c ∈ [({ before := some (.write (4 * w : Nat) 4 0), access := some (.write 0x04 4 0x4) } : Cycle),
        { before := some (.write 0x04 4 0x4), access := some (.write (4 * w : Nat) 4 0) }],
        (computing [c]).phase = .busy (.crcCompute 1 false) [.crcCompute] (latch (.crcCompute 1 false) State.reset) ∧
        (computing [c]).env.cycle.rstN = true ∧
        ((computing [c]).env.cycle.before = some (.write (4 * w : Nat) 4 0) ∧
            (computing [c]).env.cycle.access = some (.write 0x04 4 0x4) ∨
          (computing [c]).env.cycle.before = some (.write 0x04 4 0x4) ∧
            (computing [c]).env.cycle.access = some (.write (4 * w : Nat) 4 0)) := by
  decide

/-- A completion, a legal and an illegal command, and an acknowledge. -/
theorem witness_IrqFollowsDone :
    (∃ t, Inv (endingCrc []) ∧ (endingCrc []).env.cycle.rstN = true ∧ step (endingCrc []) = .next t ∧
      (endingCrc []).busy = true ∧ t.busy = false) ∧
    (∃ s t, Inv s ∧ s.env.cycle.rstN = true ∧ step s = .next t ∧ s.busy = false ∧
      (∃ u, CommandWritten s 0x30 u) ∧ t.busy = true) ∧
    (∃ s t, Inv s ∧ s.env.cycle.rstN = true ∧ step s = .next t ∧ s.busy = false ∧
      (∃ u, CommandWritten s 0xFF u) ∧ t.busy = false) ∧
    (∃ s t, Inv s ∧ s.env.cycle.rstN = true ∧ step s = .next t ∧ s.busy = false ∧
      s.env.cycle.access = some (.write 0x04 4 0x2) ∧ (0x2 : Word).getLsbD 1 = true ∧
      ∀ x, s.env.cycle.before ≠ some (.write 0x08 4 x)) :=
  ⟨⟨_, inv_endingCrc _, rfl, rfl, rfl, rfl⟩,
    ⟨receiving [{ access := some (.write 0x08 4 0x30) }], _, inv_receiving _, rfl, rfl, rfl, ⟨_, written_alone _⟩, rfl⟩,
    ⟨receiving [{ access := some (.write 0x08 4 0xFF) }], _, inv_receiving _, rfl, rfl, rfl, ⟨_, written_alone _⟩, rfl⟩,
    ⟨receiving [{ access := some (.write 0x04 4 0x2) }], _, inv_receiving _, rfl, rfl, rfl, rfl, rfl,
      fun _ => by simp [receiving, Env.cycle]⟩⟩

/-- The fields of a value v, as the clauses of CommandAcceptance test them. -/
theorem witness_CommandAcceptance :
    (∀ v : Word, (receiving [{ access := some (.write 0x08 4 v) }]).phase = .idle ∧
      (receiving [{ access := some (.write 0x08 4 v) }]).env.cycle.rstN = true ∧
      ∃ u, CommandWritten (receiving [{ access := some (.write 0x08 4 v) }]) v u) ∧
    (∀ first v, (besideAck first v).phase = .idle ∧ (besideAck first v).env.cycle.rstN = true ∧
      ∃ u, CommandWritten (besideAck first v) v u) ∧
    ((0x51 : Word).extractLsb' 0 8 ∉ assignedOps) ∧ ((0x00002201 : Word).extractLsb' 13 3 ≠ 0) ∧
    ((0x00020201 : Word).extractLsb' 17 15 ≠ 0) ∧
    ((0x00001101 : Word).extractLsb' 0 8 ∈ assignedOps ∧ (0x00001101 : Word).extractLsb' 13 3 = 0 ∧
      (0x00001101 : Word).extractLsb' 17 15 = 0 ∧
      ¬ legalFields ((0x00001101 : Word).extractLsb' 0 8) ((0x00001101 : Word).extractLsb' 8 5)
        ((0x00001101 : Word).getLsbD 16)) ∧
    ((0x00011010 : Word).extractLsb' 0 8 ∈ assignedOps ∧ (0x00011010 : Word).extractLsb' 13 3 = 0 ∧
      (0x00011010 : Word).extractLsb' 17 15 = 0 ∧
      legalFields ((0x00011010 : Word).extractLsb' 0 8) ((0x00011010 : Word).extractLsb' 8 5)
        ((0x00011010 : Word).getLsbD 16)) := by
  refine ⟨fun v => ⟨rfl, rfl, _, written_alone v⟩, fun first v => ⟨rfl, by cases first <;> rfl, written_beside first v⟩, ?_⟩
  unfold legalFields
  decide

theorem witness_LegalCommandLatchesOperands :
    isCommand (.busWrite 16 true) = true ∧
      legalFields (opOf (.busWrite 16 true)) (lenOf (.busWrite 16 true)) (holdOf (.busWrite 16 true)) ∧
      State.reset.phase = .idle := by
  unfold legalFields
  decide

/-- LEN one past each bound, and HOLD where it is illegal. -/
theorem witness_IllegalOperandIsRefused :
    State.reset.phase = .idle ∧ ∀ i ∈ [Instr.crcCompute 0 false, .crcCompute 17 false, .crcCheck 0 false,
      .crcCheck 6 false, .busRead 17 false, .convT 1 false, .busRead 1 true],
      isCommand i = true ∧ ¬ legalFields (opOf i) (lenOf i) (holdOf i) := by
  unfold legalFields
  decide

theorem witness_RunningOpReadsOnlyLatch : ∃ t, isCommand (.crcCompute 1 false) = true ∧
    (computing []).phase = .busy (.crcCompute 1 false) [.crcCompute] (latch (.crcCompute 1 false) State.reset) ∧
    exec (.crcCompute 1 false) (computing []) = .next t ∧ [Line.crcCompute] ≠ [] := ⟨_, rfl, rfl, rfl, by decide⟩

/-- A command; another write to an idle and to a busy block; the sequencer at a line, in a running Wait, and held up; and a line that sends a wire command. -/
theorem witness_StepRunsTheInstruction :
    (∃ s : State, s.phase = .idle ∧ s.env.cycle.rstN = true ∧ (∃ u, CommandWritten s 0x201 u) ∧
      decodeCmd 0x201 = .ok (.crcCompute 2 false)) ∧
    (∃ s : State, s.phase = .idle ∧ s.env.cycle.rstN = true ∧ s.env.cycle.access = some (.write 0xBC 4 0x5A) ∧
      ∀ v u, ¬ CommandWritten s v u) ∧
    (∃ (s : State) (i : Instr), s.env.cycle.rstN = true ∧ currentInstr s = some i ∧ s.env.cycle.before = none ∧
      s.env.cycle.access = some (.write 0x00 4 0x2)) ∧
    (∃ (s : State) (i : Instr), s.env.cycle.rstN = true ∧ currentInstr s = some i ∧ s.env.cycle.stall = false) ∧
    (∃ (s : State) (i : Instr), s.env.cycle.rstN = true ∧ currentInstr s = some i ∧ s.env.cycle.stall = true ∧
      s.inWait = true) ∧
    (∃ (s : State) (i : Instr), s.env.cycle.rstN = true ∧ currentInstr s = some i ∧ s.env.cycle.stall = true ∧
      s.inWait = false) ∧
    (∃ (s : State) (lat : Latch), s.phase = .busy (.ascGet 0 false) (.write [0x23, 0x13] true :: []) lat ∧
      decodeFrame [0x23, 0x13] = .ok .getAscEnabled ∧ opOf (.ascGet 0 false) ≠ 0x10 ∧ true = wireHold .getAscEnabled) :=
  ⟨⟨receiving [{ access := some (.write 0x08 4 0x201) }], rfl, rfl, ⟨_, written_alone _⟩, by decide⟩,
    ⟨receiving [{ access := some (.write 0xBC 4 0x5A) }], rfl, rfl, rfl, fun v u h => by
      rcases h with ⟨h, -⟩ | ⟨x, ⟨h, -⟩ | ⟨h, -⟩, -⟩ <;> simp [receiving, Env.cycle] at h⟩,
    ⟨computing [{ access := some (.write 0x00 4 0x2) }], _, rfl, rfl, rfl, rfl⟩,
    ⟨computing [], _, rfl, rfl, rfl⟩,
    ⟨atLine (.ascSet 0 false) [.waiting .cmd, .ascClear] (receiving [{ stall := true }]), _, rfl, rfl, rfl, rfl⟩,
    ⟨computing [{ stall := true }], _, rfl, rfl, rfl, rfl⟩,
    ⟨atLine (.ascGet 0 false) [.write [0x23, 0x13] true] State.reset, _, rfl, by decide, by decide, rfl⟩⟩

theorem witness_QuietStepRunsTheOp : isCommand (.crcCompute 1 false) = true ∧
    (computing []).phase = .busy (.crcCompute 1 false) [.crcCompute] (latch (.crcCompute 1 false) State.reset) ∧
    (computing []).env.cycle = {} := ⟨rfl, rfl, rfl⟩

theorem witness_StepNeverStops : Inv (computing []) ∧ Inv (endingHeld []) := ⟨inv_computing _, inv_endingHeld _⟩

theorem witness_StepKeepsInv : ∃ t, Inv (endingHeld []) ∧ step (endingHeld []) = .next t :=
  ⟨_, inv_endingHeld _, rfl⟩

/-- A reset with n bytes of an ASC_SET write carried, the transaction answered by d. -/
def cutting (d : Draw) (n : Nat) : State :=
  let s := drawing [d]
  atLine (.ascSet 0 false) [.write [0x24, 0x16, 0x00, 0x00, 0x81] false]
    { s with env := { s.env with inputs := [{ rstN := false, cut := some n }] } }

/-- A reset after a byte the device did not acknowledge: the NACK is on the pins, no byte follows it, and no STOP. -/
theorem test_reset_afterNack : after (step (cutting nacks 1)) (·.env.trace) =
    some [.start, .sent 0xC4 false, .release] := by decide

/-- On a bus that never goes idle the block puts nothing (41_transport.md R174). -/
theorem test_reset_neverIdle : after (step (cutting { busIdle := false } 3)) (·.env.trace) = some [] := by decide

/-- A held bus with an access in the same cycle, an idle block on a Free bus, and a write and a read cut short. -/
theorem witness_ResetOverridesEverything :
    ((endingHeld [{ rstN := false, access := some (.write 0x08 4 0x30) }]).env.cycle.rstN = false ∧
      (endingHeld [{ rstN := false, access := some (.write 0x08 4 0x30) }]).bus ≠ .free) ∧
    ((receiving [{ rstN := false }]).env.cycle.rstN = false ∧
      ∀ op l rest lat, (receiving [{ rstN := false }]).phase = .busy op (l :: rest) lat → l.onBus = true →
        (receiving [{ rstN := false }]).env.cycle.cut = none) ∧
    (∃ op bytes hold rest lat, (cutting nacks 1).phase = .busy op (.write bytes hold :: rest) lat ∧
      (cutting nacks 1).env.cycle.rstN = false ∧ (cutting nacks 1).env.cycle.cut = some 1) ∧
    ∃ (s : State) (op : Instr) (n : Nat) (rest : List Line) (lat : Latch), s.phase = .busy op (.read n :: rest) lat ∧
      s.env.cycle.rstN = false ∧ s.env.cycle.cut = some 0 :=
  ⟨by decide, ⟨rfl, fun _ _ _ _ h => by cases h⟩, ⟨_, _, _, _, _, rfl, rfl, rfl⟩,
    atLine (.busRead 1 false) [.read 1, .storeRx] (receiving [{ rstN := false, cut := some 0 }]), _, _, _, _, rfl, rfl, rfl⟩

/-- A Wait of 0 ms and of 1 ms, and a running Wait in its last cycle and in the one before. -/
theorem witness_WaitRunsToItsEnd :
    isCommand (.ascSet 0 false) = true ∧
    (∃ (s : State) (lat : Latch), s.phase = .busy (.ascSet 0 false) (.wait .cmd :: [.ascClear]) lat ∧ delayMs lat .cmd = 0) ∧
    (∃ (s : State) (lat : Latch), s.phase = .busy (.ascSet 0 false) (.wait .cmd :: [.ascClear]) lat ∧ delayMs lat .cmd ≠ 0) ∧
    ∀ n ∈ [0, 1], ∃ (s : State) (lat : Latch), s.phase = .busy (.ascSet 0 false) (.waiting .cmd :: [.ascClear]) lat ∧
      s.waitCtr = n + 1 ∧ ∀ c ∈ s.env.inputs.take (n + 1), c.rstN = true := by
  refine ⟨rfl, ⟨atLine (.ascSet 0 false) [.wait .cmd, .ascClear]
    { State.reset with oper := { State.reset.oper with tCmdMs := 0 } }, _, rfl, by decide⟩,
    ⟨atLine (.ascSet 0 false) [.wait .cmd, .ascClear] State.reset, _, rfl, by decide⟩, ?_⟩
  intro n _
  exact ⟨{ atLine (.ascSet 0 false) [.waiting .cmd, .ascClear]
    (receiving [{ access := some (.write 0x10 4 0) }]) with waitCtr := n + 1 }, _, rfl, rfl, by simp [atLine, receiving]⟩

theorem witness_OnlyTransactionsChangeTheBus : ∃ t, Inv (endingHeld []) ∧ (endingHeld []).env.cycle.rstN = true ∧
    step (endingHeld []) = .next t ∧
    ∀ op l rest lat, (endingHeld []).phase = .busy op (l :: rest) lat → l.onBus = false :=
  ⟨_, inv_endingHeld _, rfl, rfl, fun _ _ _ _ h => by cases h⟩

/-- Every one of the six wire commands, at a line of an op that sends it. -/
theorem witness_WireCommandIsSent : ∀ p ∈ [
      (Instr.readSerialNumber, Instr.readSerial 0 false, ([0x36, 0x82] : List Byte), true),
      (.setAscEnabled 0x0001 0xB0, .ascSet 0 false, [0x24, 0x16, 0x00, 0x01, 0xB0], false),
      (.getAscEnabled, .ascGet 0 false, [0x23, 0x13], true),
      (.measureSingleShot, .triggerSs 0 false, [0x21, 0x9D], false),
      (.readMeasurement, .readMeas 0 false, [0xEC, 0x05], true),
      (.performFrc 0x019F 0x62, .frc 0 false, [0x36, 0x2F, 0x01, 0x9F, 0x62], false)],
    wireForm p.1 p.2.2.1 p.2.2.2 ∧
      (atLine p.2.1 [.write p.2.2.1 p.2.2.2] (drawing [{}])).phase =
        .busy p.2.1 (.write p.2.2.1 p.2.2.2 :: []) (latch p.2.1 (drawing [{}])) ∧
      drawOk (drawing [{}]).bus (drawing [{}]).env.draw := by
  intro p hp
  fin_cases hp <;> exact ⟨⟨rfl, rfl⟩, rfl, rfl⟩

theorem witness_WireCommandFails :
    wireForm .getAscEnabled [0x23, 0x13] true ∧
      (atLine (.ascGet 0 false) [.write [0x23, 0x13] true] (drawing [nacks])).phase =
        .busy (.ascGet 0 false) (.write [0x23, 0x13] true :: []) (latch (.ascGet 0 false) (drawing [nacks])) ∧
      drawFailure (drawing [nacks]).bus (drawing [nacks]).env.draw = some .nack := ⟨⟨rfl, rfl⟩, rfl, rfl⟩

theorem witness_WireCommandNeedsItsOp : isCommand .getAscEnabled = false ∧ ∀ op rest lat,
    State.reset.phase ≠ .busy op (.write (encodeFrame .getAscEnabled) (wireHold .getAscEnabled) :: rest) lat :=
  ⟨rfl, fun _ _ _ h => by cases h⟩

/-- LEN at both ends of its range. -/
theorem witness_CrcComputeResult : State.reset.phase = .idle ∧ ∀ len ∈ [(1 : BitVec 5), 16],
    1 ≤ len.toNat ∧ len.toNat ≤ 16 := by decide

/-- One word, valid; five words, the last of them bad. -/
theorem witness_CrcCheckResult :
    (∃ s : State, s.phase = .idle ∧ 1 ≤ (1 : BitVec 5).toNat ∧ (1 : BitVec 5).toNat ≤ 5 ∧
      ∀ i < (1 : BitVec 5).toNat, validWord (s.buf.read (3 * i)) (s.buf.read (3 * i + 1)) (s.buf.read (3 * i + 2)) = true) ∧
    (∃ s : State, s.phase = .idle ∧ 1 ≤ (5 : BitVec 5).toNat ∧ (5 : BitVec 5).toNat ≤ 5 ∧ 4 < (5 : BitVec 5).toNat ∧
      validWord (s.buf.read (3 * 4)) (s.buf.read (3 * 4 + 1)) (s.buf.read (3 * 4 + 2)) = false ∧
      ∀ j < 4, validWord (s.buf.read (3 * j)) (s.buf.read (3 * j + 1)) (s.buf.read (3 * j + 2)) = true) :=
  ⟨⟨{ State.reset with buf := bufOf [0xBE, 0xEF, 0x92] }, by decide +kernel⟩,
    ⟨{ State.reset with buf := bufOf [0xBE, 0xEF, 0x92, 0xBE, 0xEF, 0x92, 0xBE, 0xEF, 0x92, 0xBE, 0xEF, 0x92] },
      by decide +kernel⟩⟩

theorem witness_ConverterResults : State.reset.phase = .idle := rfl

/-- LEN at both ends, on a free and on a held bus. -/
theorem witness_BusWriteResult : ∀ len ∈ [(1 : BitVec 5), 16], ∀ b ∈ [BusState.free, .held],
    (drawing [{}]).phase = .idle ∧ 1 ≤ len.toNat ∧ len.toNat ≤ 16 ∧ drawOk b ((drawing [{}]).env.drawAt 0) := by
  unfold drawOk
  decide

theorem witness_BusReadResult : ∀ len ∈ [(1 : BitVec 5), 16],
    (drawing [reads [0xAA]]).phase = .idle ∧ 1 ≤ len.toNat ∧ len.toNat ≤ 16 ∧
      Memory.wf (drawing [reads [0xAA]]).buf = true ∧
      drawOk (drawing [reads [0xAA]]).bus ((drawing [reads [0xAA]]).env.drawAt 0) := by
  unfold drawOk
  decide

theorem witness_TriggerSsResult : (drawing [{}]).phase = .idle ∧
    drawOk (drawing [{}]).bus ((drawing [{}]).env.drawAt 0) := ⟨rfl, rfl⟩

/-- The measurement of 42_measurement.md R201's example. -/
def triplet : List Byte := [0x01, 0xF4, 0x33, 0x66, 0x67, 0xA2, 0x5E, 0xB9, 0x3C]

/-- The same with its last word's checksum wrong. -/
def badTriplet : List Byte := [0x01, 0xF4, 0x33, 0x66, 0x67, 0xA2, 0x5E, 0xB9, 0x3D]

/-- A query answered with bs. -/
def answering (bs : List Byte) : State := drawing [{}, reads bs]

theorem answering_ok (bs : List Byte) : (answering bs).phase = .idle ∧
    drawOk (answering bs).bus ((answering bs).env.drawAt 0) ∧ drawOk .held ((answering bs).env.drawAt 1) :=
  ⟨rfl, rfl, rfl⟩

theorem witness_ReadMeasResult :
    (∀ bs, (answering bs).phase = .idle ∧ drawOk (answering bs).bus ((answering bs).env.drawAt 0) ∧
      drawOk .held ((answering bs).env.drawAt 1)) ∧
    (∀ i < 3, groupValid (readBytes 9 ((answering triplet).env.drawAt 1)) i = true) ∧
    (2 < 3 ∧ firstBad (readBytes 9 ((answering badTriplet).env.drawAt 1)) 2) := by
  refine ⟨answering_ok, ?_⟩
  unfold firstBad
  decide +kernel

/-- A trigger, and a query answered with bs. -/
def measuring (bs : List Byte) : State := drawing [{}, {}, reads bs]

theorem witness_MeasureResult :
    (∀ bs, (measuring bs).phase = .idle ∧ measureOk (measuring bs).bus (measuring bs).env 0) ∧
    (∀ i < 3, groupValid (readBytes 9 ((measuring triplet).env.drawAt 2)) i = true) ∧
    (2 < 3 ∧ firstBad (readBytes 9 ((measuring badTriplet).env.drawAt 2)) 2) := by
  refine ⟨fun _ => ⟨rfl, rfl, rfl, rfl⟩, ?_⟩
  unfold firstBad
  decide +kernel

theorem witness_AscSetResult : (drawing [{}]).phase = .idle ∧
    drawOk (drawing [{}]).bus ((drawing [{}]).env.drawAt 0) := ⟨rfl, rfl⟩

/-- s with ASC_CHECK set. -/
def checking (s : State) : State := { s with ctrl := { s.ctrl with ascCheck := true } }

/-- Unchecked, checked and valid, checked and not valid: 43_calibration.md R231's examples. -/
theorem witness_AscGetResult :
    (∀ bs, (answering bs).phase = .idle ∧ 2 = (if (answering bs).ctrl.ascCheck then 3 else 2) ∧
      drawOk (answering bs).bus ((answering bs).env.drawAt 0) ∧ drawOk .held ((answering bs).env.drawAt 1) ∧
      ((answering bs).ctrl.ascCheck = true → groupValid (readBytes 2 ((answering bs).env.drawAt 1)) 0 = true)) ∧
    (∀ bs, (checking (answering bs)).phase = .idle ∧ 3 = (if (checking (answering bs)).ctrl.ascCheck then 3 else 2) ∧
      drawOk (checking (answering bs)).bus ((checking (answering bs)).env.drawAt 0) ∧
      drawOk .held ((checking (answering bs)).env.drawAt 1)) ∧
    groupValid (readBytes 3 ((checking (answering [0x00, 0x00, 0x81])).env.drawAt 1)) 0 = true ∧
    groupValid (readBytes 3 ((checking (answering [0x00, 0x00, 0x80])).env.drawAt 1)) 0 = false :=
  ⟨fun _ => ⟨rfl, rfl, rfl, rfl, fun h => by cases h⟩, fun _ => ⟨rfl, rfl, rfl, rfl⟩, by decide +kernel, by decide +kernel⟩

theorem witness_AscDisableQueryResult :
    (∀ bs, (measuring bs).phase = .idle ∧ 2 = (if (measuring bs).ctrl.ascCheck then 3 else 2) ∧
      drawOk (measuring bs).bus ((measuring bs).env.drawAt 0) ∧ drawOk .free ((measuring bs).env.drawAt 1) ∧
      drawOk .held ((measuring bs).env.drawAt 2) ∧
      ((measuring bs).ctrl.ascCheck = true → groupValid (readBytes 2 ((measuring bs).env.drawAt 2)) 0 = true)) ∧
    (∀ bs, (checking (measuring bs)).phase = .idle ∧ 3 = (if (checking (measuring bs)).ctrl.ascCheck then 3 else 2) ∧
      drawOk (checking (measuring bs)).bus ((checking (measuring bs)).env.drawAt 0) ∧
      drawOk .free ((checking (measuring bs)).env.drawAt 1) ∧ drawOk .held ((checking (measuring bs)).env.drawAt 2)) ∧
    groupValid (readBytes 3 ((checking (measuring [0x00, 0x00, 0x81])).env.drawAt 2)) 0 = true ∧
    groupValid (readBytes 3 ((checking (measuring [0x00, 0x00, 0x80])).env.drawAt 2)) 0 = false :=
  ⟨fun _ => ⟨rfl, rfl, rfl, rfl, rfl, fun h => by cases h⟩, fun _ => ⟨rfl, rfl, rfl, rfl, rfl⟩, by decide +kernel,
    by decide +kernel⟩

theorem witness_ReadSerialResult :
    (∀ bs, (answering bs).phase = .idle ∧ drawOk (answering bs).bus ((answering bs).env.drawAt 0) ∧
      drawOk .held ((answering bs).env.drawAt 1)) ∧
    (∀ i < 3, groupValid (readBytes 9 ((answering [0x12, 0x34, 0x37, 0x56, 0x78, 0x7D, 0x9A, 0xBC, 0xE0]).env.drawAt 1)) i =
      true) ∧
    (2 < 3 ∧ firstBad (readBytes 9 ((answering badTriplet).env.drawAt 1)) 2) := by
  refine ⟨answering_ok, ?_⟩
  unfold firstBad
  decide +kernel

/-- n transactions of a warm-up whose reads are valid, and then the draws ds. -/
def warmed (n : Nat) (ds : List Draw) : State := drawing (List.replicate n (reads triplet) ++ ds)

theorem useDraws_warmed (ds : List Draw) : ∀ j n, j ≤ n →
    ((warmed n ds).env.useDraws j) = (warmed (n - j) ds).env := by
  intro j
  induction j with
  | zero => intro n _; rfl
  | succ j ih =>
    intro n h
    rw [Env.useDraws, ih n (by omega)]
    obtain ⟨m, hm⟩ : ∃ m, n - j = m + 1 := ⟨n - j - 1, by omega⟩
    rw [hm, show n - (j + 1) = m by omega]
    rfl

theorem drawAt_warmed (ds : List Draw) {j n : Nat} (h : j < n) : (warmed n ds).env.drawAt j = reads triplet := by
  rw [Env.drawAt, useDraws_warmed ds j n (by omega)]
  obtain ⟨m, hm⟩ : ∃ m, n - j = m + 1 := ⟨n - j - 1, by omega⟩
  rw [hm]
  rfl

theorem warmed_measures (ds : List Draw) {j n : Nat} (h : 3 * j + 2 < n) :
    measureOk (busAfterMeasures (warmed n ds).bus j) (warmed n ds).env (3 * j) ∧
      ∀ i < 3, groupValid (readBytes 9 ((warmed n ds).env.drawAt (3 * j + 2))) i = true := by
  have hd : ∀ b, drawOk b (reads triplet) := fun b => by simp [drawOk, drawFailure, reads]
  refine ⟨⟨?_, ?_, ?_⟩, ?_⟩
  · rw [drawAt_warmed ds (by omega)]; exact hd _
  · rw [drawAt_warmed ds (by omega)]; exact hd _
  · rw [drawAt_warmed ds (by omega)]; exact hd _
  · rw [drawAt_warmed ds (by omega)]; decide +kernel

/-- After 36 valid warm-up reads, an answer bs to PERFORM_FRC. -/
theorem witness_FrcAnswerResult : ∀ bs : List Byte,
    (warmed 108 [{}, reads bs]).phase = .idle ∧
    (∀ j < 36, measureOk (busAfterMeasures (warmed 108 [{}, reads bs]).bus j) (warmed 108 [{}, reads bs]).env (3 * j) ∧
      ∀ i < 3, groupValid (readBytes 9 ((warmed 108 [{}, reads bs]).env.drawAt (3 * j + 2))) i = true) ∧
    drawOk .free ((warmed 108 [{}, reads bs]).env.drawAt 108) ∧
    drawOk .free ((warmed 108 [{}, reads bs]).env.drawAt 109) ∧
    readBytes 3 ((warmed 108 [{}, reads bs]).env.drawAt 109) = (bs ++ [0xFF, 0xFF, 0xFF]).take 3 := by
  intro bs
  have h8 := useDraws_warmed [{}, reads bs] 108 108 (le_refl _)
  refine ⟨rfl, fun j hj => warmed_measures _ (by omega), ?_, ?_, ?_⟩
  · rw [Env.drawAt, h8]; rfl
  · rw [Env.drawAt, Env.useDraws, h8]; rfl
  · rw [Env.drawAt, Env.useDraws, h8]; rfl

/-- The three answers of 43_calibration.md R233: a bad checksum, the sentinel, and the offset 50. -/
theorem witness_FrcAnswerResult_answers :
    groupValid [0xFF, 0xFF, 0xAD] 0 = false ∧
    (groupValid [0xFF, 0xFF, 0xAC] 0 = true ∧ groupWord [0xFF, 0xFF, 0xAC] 0 = 0xFFFF) ∧
    (groupValid [0x80, 0x32, 0x05] 0 = true ∧ groupWord [0x80, 0x32, 0x05] 0 ≠ 0xFFFF) := by decide +kernel

/-- The last warm-up read fails in its last word. -/
theorem witness_FrcWarmupFailure :
    (warmed 107 [reads badTriplet]).phase = .idle ∧ 35 < 36 ∧ 2 < 3 ∧
    (∀ j < 35, measureOk (busAfterMeasures (warmed 107 [reads badTriplet]).bus j) (warmed 107 [reads badTriplet]).env
        (3 * j) ∧
      ∀ i < 3, groupValid (readBytes 9 ((warmed 107 [reads badTriplet]).env.drawAt (3 * j + 2))) i = true) ∧
    measureOk (busAfterMeasures (warmed 107 [reads badTriplet]).bus 35) (warmed 107 [reads badTriplet]).env (3 * 35) ∧
    firstBad (readBytes 9 ((warmed 107 [reads badTriplet]).env.drawAt (3 * 35 + 2))) 2 := by
  have h7 := useDraws_warmed [reads badTriplet] 107 107 (le_refl _)
  have hd : ∀ b, drawOk b (reads triplet) := fun b => by simp [drawOk, drawFailure, reads]
  refine ⟨rfl, by decide, by decide, fun j hj => warmed_measures _ (by omega), ⟨?_, ?_, ?_⟩, ?_⟩
  · rw [drawAt_warmed _ (by omega)]; exact hd _
  · rw [drawAt_warmed _ (by omega)]; exact hd _
  · rw [Env.drawAt, h7]; rfl
  · rw [Env.drawAt, h7]
    unfold firstBad
    decide +kernel

/-- A timeout on a bus that never goes idle: neither START nor STOP, only the lines let go (41_transport.md R174, R176). -/
theorem test_neverIdle_noStop : ∀ l ∈ [Line.write [0x23, 0x13] true, .read 9],
    after (exec (.ascGet 0 false) (atLine (.ascGet 0 false) [l] (drawing [{ busIdle := false }]))) (·.env.trace) =
      some [.release] := by decide

/-- A timeout inside a transaction, SCL not held: the master drives the bus and sends the STOP (R176). -/
theorem test_timeout_stop :
    after (exec (.ascGet 0 false) (atLine (.ascGet 0 false) [.write [0x23, 0x13] true] (drawing [{ fail := some .timeout }])))
      (·.env.trace) = some [.start, .stop] := by decide

/-- A write that is not acknowledged, and a bus that never goes idle. -/
theorem witness_TransportFailureEndsTheOp : ∀ d ∈ [nacks, { busIdle := false }],
    isCommand (.ascSet 0 false) = true ∧
    (atLine (.ascSet 0 false) [.write [0x24, 0x16, 0x00, 0x00, 0x81] false] (drawing [d])).phase =
      .busy (.ascSet 0 false) (.write [0x24, 0x16, 0x00, 0x00, 0x81] false :: []) (latch (.ascSet 0 false) (drawing [d])) ∧
    (Line.write [0x24, 0x16, 0x00, 0x00, 0x81] false).onBus = true ∧
    ∃ f, drawFailure (drawing [d]).bus (drawing [d]).env.draw = some f := by
  intro d hd
  fin_cases hd <;> exact ⟨rfl, rfl, rfl, _, rfl⟩

/-- A read whose address byte is not acknowledged. -/
theorem witness_TransportFailureEndsTheOp_read :
    isCommand (.busRead 1 false) = true ∧
    (atLine (.busRead 1 false) [.read 1, .storeRx] (drawing [nacks])).phase =
      .busy (.busRead 1 false) (.read 1 :: [.storeRx]) (latch (.busRead 1 false) (drawing [nacks])) ∧
    (Line.read 1).onBus = true ∧ drawFailure (drawing [nacks]).bus (drawing [nacks]).env.draw = some .nack := by decide

theorem witness_CompletionCommitsAtOnce :
    (isCommand (.ascSet 0 false) = true ∧
      (endingFailed []).phase = .busy (.ascSet 0 false) [] (latch (.ascSet 0 false) State.reset) ∧
      (endingFailed []).stage.err ≠ .success) ∧
    (isCommand (.crcCompute 1 false) = true ∧
      (endingCrc []).phase = .busy (.crcCompute 1 false) [] (latch (.crcCompute 1 false) State.reset) ∧
      (endingCrc []).stage.err = .success) := by decide

/-- An op that goes on, and one that completes. -/
theorem witness_CommitIsAtomic :
    (∃ t, Inv (computing []) ∧ (computing []).env.cycle.rstN = true ∧ step (computing []) = .next t ∧ t.busy = true) ∧
    (∃ t, Inv (endingFailed []) ∧ (endingFailed []).env.cycle.rstN = true ∧ step (endingFailed []) = .next t ∧
      (endingFailed []).busy = true ∧ t.busy = false) :=
  ⟨⟨_, inv_computing _, rfl, rfl, rfl⟩, ⟨_, inv_endingFailed _, rfl, rfl, rfl, rfl⟩⟩

/-- Steps that change a result register, BUF by an op, BUF by the host, and an operand register. -/
theorem witness_OnlyOwnersWriteResults :
    (∃ t, Inv (endingCrc []) ∧ (endingCrc []).env.cycle.rstN = true ∧ step (endingCrc []) = .next t ∧
      t.res ≠ (endingCrc []).res) ∧
    (∃ t, Inv (endingRead []) ∧ (endingRead []).env.cycle.rstN = true ∧ step (endingRead []) = .next t ∧
      t.buf ≠ (endingRead []).buf) ∧
    (∃ s t, Inv s ∧ s.env.cycle.rstN = true ∧ step s = .next t ∧ t.buf ≠ s.buf ∧ s.busy = false) ∧
    (∃ s t, Inv s ∧ s.env.cycle.rstN = true ∧ step s = .next t ∧ t.oper ≠ s.oper) :=
  ⟨⟨_, inv_endingCrc _, rfl, rfl, by decide⟩, ⟨_, inv_endingRead _, rfl, rfl, by decide⟩,
    ⟨receiving [{ access := some (.write 0xBC 4 0x5A) }], _, inv_receiving _, rfl, rfl, by decide, rfl⟩,
    ⟨receiving [{ access := some (.write 0x20 4 0) }], _, inv_receiving _, rfl, rfl, by decide⟩⟩

theorem witness_CompletionCodesOfEachOp : ∃ t, Inv (endingFailed []) ∧ (endingFailed []).env.cycle.rstN = true ∧
    step (endingFailed []) = .next t ∧
    (endingFailed []).phase = .busy (.ascSet 0 false) [] (latch (.ascSet 0 false) State.reset) ∧ t.busy = false :=
  ⟨_, inv_endingFailed _, rfl, rfl, rfl, rfl⟩

/-- A held BUS_WRITE, and an op that does not use the bus. -/
theorem witness_BusAtCompletion :
    (∃ t, Inv (endingHeld []) ∧ (endingHeld []).env.cycle.rstN = true ∧ step (endingHeld []) = .next t ∧
      (endingHeld []).phase = .busy (.busWrite 16 true) [] (latch (.busWrite 16 true) State.reset) ∧
      usesBus (.busWrite 16 true) = true ∧ t.busy = false) ∧
    (∃ t, Inv (computing []) ∧ (computing []).env.cycle.rstN = true ∧ step (computing []) = .next t ∧
      (computing []).phase = .busy (.crcCompute 1 false) [.crcCompute] (latch (.crcCompute 1 false) State.reset) ∧
      usesBus (.crcCompute 1 false) = false) :=
  ⟨⟨_, inv_endingHeld _, rfl, rfl, rfl, rfl, rfl⟩, ⟨_, inv_computing _, rfl, rfl, rfl, rfl⟩⟩

theorem witness_EveryCommandCompletes :
    (receiving [{ access := some (.write 0x08 4 0x43) }]).phase = .idle ∧
    (receiving [{ access := some (.write 0x08 4 0x43) }]).env.inputs = [{ access := some (.write 0x08 4 0x43) }] ∧
    decodeCmd 0x43 = .ok (.frc 0 false) ∧ operandsLegal (.frc 0 false) = true := by decide

/-- LEN at the ends of its ranges, and FRC's loop line with the last warm-up due and with none due. -/
theorem witness_OpsAreTheirPseudocode :
    State.reset.phase = .idle ∧
    (∀ len ∈ [(1 : BitVec 5), 16], 1 ≤ len.toNat ∧ len.toNat ≤ 16) ∧
    (∀ len ∈ [(1 : BitVec 5), 5], 1 ≤ len.toNat ∧ len.toNat ≤ 5) ∧
    isCommand (.frc 0 false) = true ∧
    ∀ k ∈ [35, 36], ∃ (s : State) (rest : List Line) (lat : Latch),
      s.phase = .busy (.frc 0 false) (.warmupLoop :: rest) lat ∧ s.k = k :=
  ⟨rfl, by decide, by decide, rfl,
    fun k _ => ⟨{ atLine (.frc 0 false) [.warmupLoop] State.reset with k := k }, _, _, rfl, rfl⟩⟩

/-- An op without a Wait, and one whose Wait is 0 ms, each to its completion. -/
theorem witness_OpsTakeAtLeastTheirWaits :
    (∃ t, isCommand (.convT 0 false) = true ∧ operandsLegal (.convT 0 false) = true ∧ State.reset.phase = .idle ∧
      execTimes 3 (.convT 0 false) State.reset = .next t ∧ t.phase = .idle ∧ t.status.err = .success) ∧
    ∃ s t, isCommand (.triggerSs 0 false) = true ∧ operandsLegal (.triggerSs 0 false) = true ∧ s.phase = .idle ∧
      execTimes 4 (.triggerSs 0 false) s = .next t ∧ t.phase = .idle ∧ t.status.err = .success :=
  ⟨⟨_, rfl, rfl, rfl, rfl, rfl, rfl⟩,
    { drawing [{}] with oper := { State.reset.oper with tSsMs := 0 } }, _, rfl, rfl, rfl, rfl, rfl, rfl⟩

/-- An idle block, and both ends of BUF. -/
theorem witness_RegisterMap : State.reset.busy = false ∧ Memory.wf State.reset.buf = true ∧
    ∀ i ∈ [0, 15], i < 16 := by decide

end Sys2Proof.Tests
end

section
/-! The invariant of the whole block (O28, O29): every line of an op's own pseudocode keeps it, and so does a step. -/

namespace Sys2Proof.Machine

/-! What stands in the pseudocode: the positions of `seq` are closed under going one line on. -/

/-- A pseudocode's positions are its own start, a begun Wait there, and the positions of the lines after. -/
theorem mem_linePositions_cons {q : List Line} {m : Line} {p : List Line} : q ∈ linePositions (m :: p) ↔
    q = m :: p ∨ (∃ d, m = .wait d ∧ q = .waiting d :: p) ∨ q ∈ linePositions p := by
  cases m <;> simp [linePositions]

theorem nil_mem_linePositions : ∀ p : List Line, [] ∈ linePositions p
  | [] => List.mem_cons_self
  | _ :: p => mem_linePositions_cons.mpr (.inr (.inr (nil_mem_linePositions p)))

theorem suffix_mem_linePositions (q : List Line) : ∀ p : List Line, q ∈ linePositions (p ++ q)
  | [] => mem_self_linePositions q
  | _ :: p => mem_linePositions_cons.mpr (.inr (.inr (suffix_mem_linePositions q p)))

theorem rest_mem_linePositions {l : Line} {rest : List Line} :
    ∀ {p : List Line}, l :: rest ∈ linePositions p → rest ∈ linePositions p
  | [], h => by simp [linePositions] at h
  | m :: p, h => by
    rw [mem_linePositions_cons] at h ⊢
    refine .inr (.inr ?_)
    rcases h with h | ⟨d, -, h⟩ | h
    · rw [(List.cons.inj h).2]
      exact mem_self_linePositions p
    · rw [(List.cons.inj h).2]
      exact mem_self_linePositions p
    · exact rest_mem_linePositions h

theorem waiting_mem_linePositions {d : Delay} {rest : List Line} :
    ∀ {p : List Line}, .wait d :: rest ∈ linePositions p → .waiting d :: rest ∈ linePositions p
  | [], h => by simp [linePositions] at h
  | m :: p, h => by
    rw [mem_linePositions_cons] at h ⊢
    rcases h with h | ⟨e, -, h⟩ | h
    · obtain ⟨rfl, rfl⟩ := List.cons.inj h
      exact .inr (.inl ⟨d, rfl, rfl⟩)
    · cases (List.cons.inj h).1
    · exact .inr (.inr (waiting_mem_linePositions h))

/-- The lines whose positions `seq` takes: FRC's warm-up body stands before its loop line. -/
def opLines (op : Instr) (lat : Latch) : List Line :=
  if opOf op = 0x43 then warmupBody ++ frcLines lat else linesOf op lat

theorem opPositions_eq (op : Instr) (lat : Latch) : opPositions op lat = linePositions (opLines op lat) := by
  unfold opPositions opLines
  split <;> rfl

/-! What a line needs of its op and of the lines after it, so that running it keeps the invariant. -/

/-- The op may end with nothing staged. -/
def EndsBare (op : Instr) : Prop := StagedBy op [] ∧ opOf op ≠ 0x43

/-- The op may raise e at a line that makes no transaction. -/
def RaisesOffBus (op : Instr) (lat : Latch) (e : ErrCode) : Prop := e ∈ codesOf op lat.ascCheck ∧ opOf op ≠ 0x10

/-- The line l, with rest after it, is in its place in the op (60_exceptions.md R302, R307; 10_state.md R50 to R63). -/
def LineFits (op : Instr) (lat : Latch) (l : Line) (rest : List Line) : Prop :=
  match l with
  | .write _ hold => .transportFailure ∈ codesOf op lat.ascCheck ∧ (rest = [] → EndsBare op) ∧
      (busDoneAt rest = true → hold = false ∨ (opOf op = 0x10 ∧ holdOf op = true))
  | .read n => .transportFailure ∈ codesOf op lat.ascCheck ∧ rest ≠ [] ∧ n ≤ 16
  | .wait _ | .waiting _ => rest.head? ≠ some .warmupCheck ∧ (rest = [] → EndsBare op)
  | .crcCompute => rest = [] ∧ opOf op ≠ 0x43 ∧ ∀ v, StagedBy op [.crcResult v, .valid .crc true]
  | .crcCheck => rest = [] ∧ EndsBare op ∧ RaisesOffBus op lat .checksumMismatch ∧ lat.len.toNat ≤ 5
  | .storeRx => rest = [] ∧ opOf op ≠ 0x43 ∧ ∀ bs : List Byte, bs.length ≤ 16 → StagedBy op (bufWritesFrom 0 bs)
  | .triplet => rest = [] ∧ opOf op ≠ 0x43 ∧ (∀ w0 w1 w2, StagedBy op (commitTriplet w0 w1 w2)) ∧
      RaisesOffBus op lat .checksumMismatch
  | .convT | .convRhf | .convRhp => rest = [] ∧ opOf op ≠ 0x43 ∧ ∀ v, StagedBy op [.convOut v, .valid .conv true]
  | .ascClear => rest = [] ∧ opOf op ≠ 0x43 ∧ StagedBy op [.valid .asc false]
  | .checkWord => rest ≠ [] ∧ rest.any Line.onBus = false ∧ RaisesOffBus op lat .checksumMismatch
  | .ascResult => rest = [] ∧ opOf op ≠ 0x43 ∧ ∀ v, StagedBy op [.ascState v, .valid .asc true]
  | .warmupLoop => rest = frcTail lat ∧ opOf op = 0x43
  | .warmupCheck => rest = frcLines lat ∧ RaisesOffBus op lat .calibrationPreconditionFailed
  | .frcResult => rest = [] ∧ (∀ v, StagedBy op [.frcOffset v, .valid .frc true]) ∧
      RaisesOffBus op lat .deviceReportedFailure
  | .serial => rest = [] ∧ opOf op ≠ 0x43 ∧ (∀ w0 w1 w2, StagedBy op (serialWrites w0 w1 w2)) ∧
      RaisesOffBus op lat .checksumMismatch

/-- Every line of a pseudocode is in its place. -/
def LinesFit (op : Instr) (lat : Latch) : List Line → Prop
  | [] => True
  | l :: rest => LineFits op lat l rest ∧ LinesFit op lat rest

/-- A begun Wait needs what the Wait needs, so every position begins with a line in its place. -/
theorem LinesFit.lineFits {op : Instr} {lat : Latch} {l : Line} {rest : List Line} :
    ∀ {p : List Line}, LinesFit op lat p → l :: rest ∈ linePositions p → LineFits op lat l rest
  | [], _, h => by simp [linePositions] at h
  | m :: p, ⟨hm, hp⟩, h => by
    rw [mem_linePositions_cons] at h
    rcases h with h | ⟨d, rfl, h⟩ | h
    · obtain ⟨rfl, rfl⟩ := List.cons.inj h
      exact hm
    · obtain ⟨rfl, rfl⟩ := List.cons.inj h
      exact hm
    · exact hp.lineFits h

/-- The pseudocode of every op is made of lines in their places. -/
theorem linesFit_opLines {op : Instr} {lat : Latch} (hc : isCommand op = true) (hl : operandsLegal op = true)
    (hlen : lat.len = lenOf op) (hhold : lat.hold = holdOf op) : LinesFit op lat (opLines op lat) := by
  have hlegal := (operandsLegal_iff hc).mp hl
  cases op with
  | crcCompute n h => simp [LinesFit, opLines, opOf, linesOf, crcComputeLines, LineFits, StagedBy]
  | crcCheck n h =>
    have : n.toNat ≤ 5 := by simpa [legalFields, opOf, lenOf] using hlegal.1.2
    simpa [LinesFit, opLines, opOf, linesOf, crcCheckLines, LineFits, EndsBare, RaisesOffBus, StagedBy, codesOf, hlen, lenOf]
  | busWrite n h =>
    simp [LinesFit, opLines, opOf, linesOf, busWriteLines, LineFits, EndsBare, StagedBy, codesOf, hhold, holdOf]
  | busRead n h =>
    have : n.toNat ≤ 16 := by simpa [legalFields, opOf, lenOf] using hlegal.1.2
    simp [LinesFit, opLines, opOf, linesOf, busReadLines, LineFits, StagedBy, codesOf, hlen, lenOf, this]
    exact fun bs hbs => ⟨bs, hbs, rfl⟩
  | convT n h | convRhf n h | convRhp n h =>
    simp [LinesFit, opLines, opOf, linesOf, convTLines, convRhfLines, convRhpLines, LineFits, StagedBy]
  | triggerSs n h =>
    simp [LinesFit, opLines, opOf, linesOf, triggerSsLines, triggerSteps, LineFits, EndsBare, StagedBy, codesOf]
  | readMeas n h | measure n h =>
    simp [LinesFit, opLines, opOf, linesOf, readMeasLines, measureLines, triggerSteps, readMeasSteps, LineFits,
      RaisesOffBus, StagedBy, codesOf, busDoneAt, Line.onBus]
  | ascSet n h =>
    simp [LinesFit, opLines, opOf, linesOf, ascSetLines, LineFits, StagedBy, codesOf, busDoneAt]
  | ascGet n h | ascDisableQuery n h =>
    cases ha : lat.ascCheck <;>
      simp [LinesFit, opLines, opOf, linesOf, ascGetLines, ascDisableQueryLines, ascGetSteps, ascReadSteps, LineFits,
        RaisesOffBus, StagedBy, codesOf, busDoneAt, Line.onBus, ha]
  | frc n h =>
    simp [LinesFit, opLines, opOf, frcLines, frcTail, warmupBody, triggerSteps, readMeasSteps, LineFits, 
      RaisesOffBus, StagedBy, codesOf, busDoneAt, Line.onBus]
  | readSerial n h =>
    simp [LinesFit, opLines, opOf, linesOf, readSerialLines, LineFits, RaisesOffBus, StagedBy, codesOf, busDoneAt,
      Line.onBus]
  | _ => cases hc

theorem RunInv.lineFits {op : Instr} {l : Line} {rest : List Line} {lat : Latch} {s : State}
    (h : RunInv op (l :: rest) lat s) : LineFits op lat l rest := by
  obtain ⟨-, hlen, hhold⟩ := h.latched
  refine (linesFit_opLines h.isOp h.legal hlen hhold).lineFits ?_
  rw [← opPositions_eq]
  exact h.position

/-! The invariant after each kind of line. -/

section
variable {op : Instr} {lat : Latch} {l : Line} {rest : List Line} {s : State}

theorem nil_mem_opPositions (op : Instr) (lat : Latch) : [] ∈ opPositions op lat := by
  rw [opPositions_eq]
  exact nil_mem_linePositions _

theorem RunInv.rest_mem (h : RunInv op (l :: rest) lat s) : rest ∈ opPositions op lat := by
  have hp := h.position
  rw [opPositions_eq] at hp ⊢
  exact rest_mem_linePositions hp

theorem RunInv.waiting_mem {d : Delay} (h : RunInv op (.wait d :: rest) lat s) :
    .waiting d :: rest ∈ opPositions op lat := by
  have hp := h.position
  rw [opPositions_eq] at hp ⊢
  exact waiting_mem_linePositions hp

theorem RunInv.warmup_due (h : RunInv op (l :: rest) lat s) (hl : l ≠ .warmupLoop) (hr : .warmupLoop ∈ rest) :
    s.k < warmupN :=
  h.inBody (List.mem_cons_of_mem _ hr) (by simpa using hl)

theorem RunInv.warmups_over (h : RunInv op (l :: rest) lat s) (hl : l ≠ .warmupLoop) (hf : .frcResult ∈ rest)
    (hr : .warmupLoop ∉ rest) : s.k = warmupN :=
  h.pastWarmup (List.mem_cons_of_mem _ hf) (by simp [hr, hl.symm])

/-- A check that is passed keeps the invariant. -/
theorem keep_pass (hb : Base s) (h : RunInv op (l :: rest) lat s) (hl : l ≠ .warmupLoop)
    (hd : busDoneAt (l :: rest) = true) (hend : rest = [] → EndsBare op) : Inv (s.goto op rest lat) :=
  Inv.ofBusy (hb.mk' rfl (.inl rfl) rfl hb.rxLength rfl) rfl
    (h.move rfl rfl rfl h.rest_mem (fun hr _ => h.warmup_due hl hr) (h.warmups_over hl) hend fun hu _ => by
      rcases h.busDone hu hd with hb | ⟨h10, hh, -⟩
      · exact .inl hb
      · exact .inr ⟨h10, hh⟩)

/-- The loop line puts a warm-up before itself while one is due, and leaves the loop after the last (R233, R234). -/
theorem keep_warmupLoop (hb : Base s) (h : RunInv op (.warmupLoop :: rest) lat s) (hrest : rest = frcTail lat)
    (hop : opOf op = 0x43) : Inv (lineWarmupLoop op lat rest s) := by
  subst hrest
  have hbase : ∀ q, Base (s.goto op q lat) := fun q => hb.mk' rfl (.inl rfl) rfl hb.rxLength rfl
  unfold lineWarmupLoop
  split
  · rename_i hk
    have hpos : warmupBody ++ .warmupLoop :: frcTail lat ∈ opPositions op lat := by
      rw [opPositions_eq, opLines, if_pos hop]
      exact mem_self_linePositions _
    exact Inv.ofBusy (hbase _) rfl (h.move rfl rfl rfl hpos (fun _ _ => hk) (by simp) (by simp)
      (by simp [busDoneAt, warmupBody, triggerSteps, Line.onBus]))
  · rename_i hk
    have hk36 : s.k = warmupN := Nat.le_antisymm h.warmups.1 (Nat.le_of_not_lt hk)
    exact Inv.ofBusy (hbase _) rfl (h.move rfl rfl rfl h.rest_mem (by simp [frcTail]) (fun _ _ => hk36)
      (by simp [frcTail]) (by simp [frcTail, busDoneAt, Line.onBus]))

/-- The check of a warm-up triplet counts it, or raises with the count so far (R233). -/
theorem keep_warmupCheck (hb : Base s) (h : RunInv op (.warmupCheck :: rest) lat s) (hrest : rest = frcLines lat)
    (hr : RaisesOffBus op lat .calibrationPreconditionFailed) : Inv (lineWarmupCheck op lat rest s) := by
  subst hrest
  have hdue : s.k < warmupN := h.warmup_due (by simp) (by simp [frcLines])
  have herr : s.stage.err = .success := by
    by_contra hc
    exact absurd (h.failed hc) (by simp)
  unfold lineWarmupCheck
  split
  · refine Inv.ofBusy (hb.mk' rfl (.inl rfl) rfl hb.rxLength rfl) rfl {
      isOp := h.isOp
      legal := h.legal
      latched := h.latched
      latchedBuf := h.latchedBuf
      position := h.rest_mem
      notDone := h.notDone
      warmups := ⟨hdue, rfl⟩
      inBody := by simp [frcLines]
      pastWarmup := by simp [frcLines]
      warmupsDone := by simp [frcLines]
      code := h.code
      failed := fun hc => absurd herr hc
      staged := by simp [frcLines]
      unstaged := fun _ => h.unstaged (.inl (by simp))
      failWord := h.failWord
      tfail := h.tfail
      busDone := by simp [frcLines, frcTail, busDoneAt, Line.onBus] }
  · rename_i i hi
    have hi3 := (firstBadWord_some hi).1
    refine Inv.ofBusy (hb.mk' rfl (.inl rfl) rfl hb.rxLength rfl) rfl
      (h.fail rfl rfl rfl (nil_mem_opPositions _ _) hr.1 (by simp) (by omega) (by simp) fun hu => ?_)
    rcases h.busDone hu (by simp [busDoneAt]) with hf | ⟨h10, -⟩
    · exact hf
    · exact absurd h10 hr.2

/-- A last line that stages the op's results; only FRC has to show its warm-ups (R234). -/
theorem keep_result {ws : List StagedWrite} (hb : Base s) (h : RunInv op (l :: rest) lat s) (hrest : rest = [])
    (hl : l.onBus = false) (hop : opOf op = 0x43 → s.k = warmupN) (hS : StagedBy op ws) :
    Inv ((s.stageWrites ws).goto op rest lat) := by
  subst hrest
  exact keep_stage hb h (nil_mem_opPositions _ _) hS hop hl

/-- A check that fails at one of its words. -/
theorem keep_check_fail {e : ErrCode} {w : Nat} (hb : Base s) (h : RunInv op (l :: rest) lat s)
    (hr : RaisesOffBus op lat e) (hes : e ≠ .success) (het : e ≠ .transportFailure) (hw : w ≤ 4)
    (hd : busDoneAt (l :: rest) = true) : Inv (raise op lat e w 0 s) :=
  keep_raise hb h (nil_mem_opPositions _ _) hr.1 hes het hw hd hr.2

/-- EVERY LINE OF AN OP'S OWN KEEPS THE INVARIANT. -/
theorem keep_line (hb : Base s) (h : RunInv op (l :: rest) lat s) : Inv (runLine l op lat rest s) := by
  have hf := h.lineFits
  have h0 := nil_mem_opPositions op lat
  cases l with
  | write bytes hold =>
    obtain ⟨hcode, hend, hbus⟩ := hf
    exact keep_write hb h h.rest_mem h0 (fun hr _ => h.warmup_due (by simp) hr) (h.warmups_over (by simp)) hend hcode hbus
  | read n =>
    obtain ⟨hcode, hne, hn⟩ := hf
    exact keep_read hb h hn h.rest_mem h0 (fun hr _ => h.warmup_due (by simp) hr) (h.warmups_over (by simp))
      (fun he => absurd he hne) hcode
  | wait d =>
    obtain ⟨hhead, hend⟩ := hf
    exact keep_wait hb h h.rest_mem h.waiting_mem (h.warmup_due (by simp)) (h.warmups_over (by simp)) hend hhead
  | waiting d =>
    obtain ⟨hhead, hend⟩ := hf
    exact keep_waiting hb h h.rest_mem (h.warmup_due (by simp)) (h.warmups_over (by simp)) hend hhead
  | crcCompute =>
    obtain ⟨hrest, hop, hS⟩ := hf
    exact keep_result hb h hrest rfl (absurd · hop) (hS _)
  | crcCheck =>
    obtain ⟨rfl, hend, hr, hlen⟩ := hf
    simp only [runLine, lineCrcCheck]
    split
    · exact keep_pass hb h (by simp) rfl fun _ => hend
    · rename_i i hi
      have hi' := (firstBadWord_some hi).1
      exact keep_check_fail hb h hr (by simp) (by simp) (by omega) rfl
  | storeRx =>
    obtain ⟨hrest, hop, hS⟩ := hf
    exact keep_result hb h hrest rfl (absurd · hop) (hS _ hb.rxLength)
  | triplet =>
    obtain ⟨rfl, hop, hS, hr⟩ := hf
    simp only [runLine, lineTriplet]
    split
    · exact keep_result hb h rfl rfl (absurd · hop) (hS _ _ _)
    · rename_i i hi
      have hi' := (firstBadWord_some hi).1
      exact keep_check_fail hb h hr (by simp) (by simp) (by omega) rfl
  | convT | convRhf | convRhp =>
    obtain ⟨hrest, hop, hS⟩ := hf
    exact keep_result hb h hrest rfl (absurd · hop) (hS _)
  | ascClear =>
    obtain ⟨hrest, hop, hS⟩ := hf
    exact keep_result hb h hrest rfl (absurd · hop) hS
  | checkWord =>
    obtain ⟨hne, hoff, hr⟩ := hf
    have hd : busDoneAt (.checkWord :: rest) = true := by simp [busDoneAt, Line.onBus, hoff]
    simp only [runLine, lineCheckWord]
    split
    · exact keep_pass hb h (by simp) hd fun he => absurd he hne
    · exact keep_check_fail hb h hr (by simp) (by simp) (by omega) hd
  | ascResult =>
    obtain ⟨hrest, hop, hS⟩ := hf
    exact keep_result hb h hrest rfl (absurd · hop) (hS _)
  | warmupLoop => exact keep_warmupLoop hb h hf.1 hf.2
  | warmupCheck => exact keep_warmupCheck hb h hf.1 hf.2
  | frcResult =>
    obtain ⟨rfl, hS, hr⟩ := hf
    simp only [runLine, lineFrcResult]
    split
    · exact keep_check_fail hb h hr (by simp) (by simp) (by omega) rfl
    · exact keep_result hb h rfl rfl (fun _ => h.pastWarmup (by simp) (by simp)) (hS _)
  | serial =>
    obtain ⟨rfl, hop, hS, hr⟩ := hf
    simp only [runLine, lineSerial]
    split
    · exact keep_result hb h rfl rfl (absurd · hop) (hS _ _ _)
    · rename_i i hi
      have hi' := (firstBadWord_some hi).1
      exact keep_check_fail hb h hr (by simp) (by simp) (by omega) rfl

end

/-! The invariant after a completion, a command and a reset, and so after every step. -/

/-- The running op keeps the invariant, at a line and at its completion. -/
theorem keep_runSeq {op : Instr} {seq : List Line} {lat : Latch} {s : State} (hb : Base s) (h : RunInv op seq lat s) :
    Inv (runSeq op seq lat s) := by
  cases seq with
  | nil => exact inv_commit hb h
  | cons l rest => exact keep_line hb h

theorem linesOf_ne_nil {i : Instr} (hc : isCommand i = true) (lat : Latch) : linesOf i lat ≠ [] := by
  cases i <;> first | (cases hc; done) | exact List.cons_ne_nil _ _

/-- Only FRC's pseudocode has warm-ups, and it begins with their loop (43_calibration.md R233). -/
theorem warmupLoop_mem_linesOf {i : Instr} {lat : Latch} (h : .warmupLoop ∈ linesOf i lat ∨ .frcResult ∈ linesOf i lat) :
    linesOf i lat = frcLines lat := by
  cases i
  case frc => rfl
  case ascGet | ascDisableQuery =>
    cases ha : lat.ascCheck <;>
      simp [linesOf, ascGetLines, ascDisableQueryLines, ascGetSteps, ascReadSteps, ha] at h
  all_goals
    simp [linesOf, crcComputeLines, crcCheckLines, busWriteLines, busReadLines, triggerSsLines, readMeasLines,
      measureLines, convTLines, convRhfLines, convRhpLines, ascSetLines, readSerialLines, triggerSteps, readMeasSteps] at h

theorem linesOf_of_opOf_frc {i : Instr} (h : opOf i = 0x43) : linesOf i = frcLines := by
  cases i with
  | frc _ _ => rfl
  | _ => simp [opOf] at h

theorem linesOf_mem_opPositions (i : Instr) (lat : Latch) : linesOf i lat ∈ opPositions i lat := by
  rw [opPositions_eq, opLines]
  split
  · rw [linesOf_of_opOf_frc ‹_›]
    exact suffix_mem_linePositions _ _
  · exact mem_self_linePositions _

theorem success_mem_codesOf {i : Instr} (hc : isCommand i = true) (check : Bool) : .success ∈ codesOf i check := by
  cases i
  case ascGet | ascDisableQuery => cases check <;> exact List.mem_cons_self
  all_goals first
    | exact List.mem_cons_self
    | cases hc

/-- An op that uses the bus has a transaction before it (30_encoding.md R111). -/
theorem busDoneAt_linesOf {i : Instr} {lat : Latch} (hu : usesBus i = true) : busDoneAt (linesOf i lat) = false := by
  cases i <;> first | (cases hu; done) | rfl

/-- The op of a legal command starts in the invariant. -/
theorem inv_startOp {i : Instr} {s : State} (h : Inv s) (hc : isCommand i = true) (hl : operandsLegal i = true) :
    Inv (startOp i (linesOf i) s) := by
  have hne := linesOf_ne_nil hc (latch i s)
  refine ⟨h.bufWf, h.busNotOwned, ⟨h.statusInv.1, h.statusInv.2, h.statusInv.3, h.statusInv.4, h.statusInv.5⟩,
    by simp, h.measured, ?_⟩
  exact {
    isOp := hc
    legal := hl
    latched := ⟨rfl, rfl, rfl⟩
    latchedBuf := by
      simp only [latch]
      split
      · exact h.bufWf
      · rfl
    position := linesOf_mem_opPositions _ _
    notDone := rfl
    warmups := ⟨Nat.zero_le _, rfl⟩
    inBody := fun hm hh => by
      rw [warmupLoop_mem_linesOf (.inl hm)] at hh
      exact absurd rfl hh
    pastWarmup := fun hm hh => by
      rw [warmupLoop_mem_linesOf (.inr hm)] at hh
      exact absurd (List.mem_cons_self) hh
    warmupsDone := fun _ he => absurd he hne
    code := success_mem_codesOf hc _
    failed := fun he => absurd rfl he
    staged := fun he => absurd he hne
    unstaged := fun _ => rfl
    failWord := Nat.zero_le _
    tfail := by simp [Stage.empty]
    busDone := fun hu hd => by simp [busDoneAt_linesOf hu] at hd }

/-- A refused command leaves an idle block in the invariant (60_exceptions.md R305). -/
theorem inv_commitIllegal {op : Byte} {e : ErrCode} {s : State} (h : Inv s) (hs : s.phase = .idle)
    (he : e = .illegalCommand ∨ e = .illegalOperand) : Inv (commitIllegal op e s) := by
  have hidle : IdleInv s := by simpa [hs] using h.running
  refine ⟨h.bufWf, h.busNotOwned, ?_, h.rxLength, h.measured, ?_⟩
  · rcases he with rfl | rfl <;> constructor <;> simp [illegalStatus]
  · simpa [hs] using (⟨hidle.1, hidle.2, hidle.3, hidle.4⟩ : IdleInv (commitIllegal op e s))

/-- Settles O29: the reset state is idle with nothing staged, counted, failed or measured. -/
theorem resetSatisfiesInv : Obligations.ResetSatisfiesInv where
  bufWf := rfl
  busNotOwned := by decide
  statusInv := by constructor <;> decide
  rxLength := Nat.zero_le _
  measured := by decide
  running := ⟨rfl, rfl, rfl, rfl⟩

/-- The invariant does not look at the environment. -/
theorem Inv.withEnv {s : State} (h : Inv s) (e : Env) : Inv { s with env := e } :=
  h.congr h.bufWf rfl rfl rfl rfl rfl rfl rfl ⟨_, _, rfl, id⟩

theorem inv_resetCycle (c : Cycle) (s : State) : Inv (resetCycle c s) := by
  unfold resetCycle
  split <;> exact Inv.withEnv resetSatisfiesInv _

theorem inv_takeCycle {s : State} (h : Inv s) : Inv s.takeCycle := h.withEnv _

theorem Inv.runInv {s : State} {op : Instr} {seq : List Line} {lat : Latch} (h : Inv s)
    (hp : s.phase = .busy op seq lat) : RunInv op seq lat s := by
  have hr := h.running
  rwa [hp] at hr

/-- Only a host op runs. -/
theorem Inv.isCommand {s : State} (h : Inv s) : ∀ op seq lat, s.phase = .busy op seq lat → isCommand op = true :=
  fun _ _ _ hp => (h.runInv hp).isOp

/-- Settles O28, by the cases of a step: a reset, a command refused or started, and a line of the running op between the
host's accesses. -/
theorem stepKeepsInv : Obligations.StepKeepsInv := by
  intro s t hi h
  cases hr : s.env.cycle.rstN with
  | false =>
    rw [step_reset hr] at h
    cases h
    exact inv_resetCycle _ _
  | true =>
    have hse : Inv (serveEarly s.env.cycle s.takeCycle) := inv_serveEarly _ (inv_takeCycle hi)
    rcases step_cases hi.isCommand hr h with ⟨v, u, hid, hcw, hcase⟩ | ⟨-, w, hw, hcase⟩
    · have hu : Inv u := by rwa [(hcw.served hid).2] at hse
      have hidu : u.phase = .idle := by
        obtain ⟨dn, ov, env, rfl, -⟩ := hcw.keeps
        exact hid
      rcases hcase with ⟨e, op, rfl, he⟩ | ⟨i, -, hc, hl, rfl⟩
      · exact inv_commitIllegal hu hidu he
      · exact inv_startOp hu hc hl
    · have hiw : Inv w := by
        rcases hcase with rfl | ⟨op, seq, lat, hp, -, rfl⟩
        · exact hse
        · exact keep_runSeq hse.base (hse.runInv (by simpa using hp))
      rcases hw with rfl | ⟨r, rfl⟩
      · exact hiw
      · exact hiw.withEnv _

end Sys2Proof.Machine
end

section
/-! A step never stops (O27), a quiet one is exec of the running op (O26), and an accepted command starts with its
operands latched and completes (O22, O57). -/

namespace Sys2Proof.Machine

/-! The sequencer's part of a cycle, and a command's, in each case. -/

theorem runSequencer_idle {s : State} (stall : Bool) (hs : s.phase = .idle) : runSequencer stall s = .next s := by
  simp [runSequencer, currentInstr, hs]

theorem runSequencer_runs {s : State} {op : Instr} {seq : List Line} {lat : Latch} {stall : Bool}
    (hc : isCommand op = true) (hs : s.phase = .busy op seq lat) (hst : stall = false ∨ s.inWait = true) :
    runSequencer stall s = .next (runSeq op seq lat s) := by
  obtain ⟨i, hi, he⟩ := exec_currentInstr hc hs
  have hgo : (stall && !s.inWait) = false := by rcases hst with h | h <;> simp [h]
  simp [runSequencer, hi, hgo, he]

theorem runSequencer_stalled {s : State} (hw : s.inWait = false) : runSequencer true s = .next s := by
  unfold runSequencer
  cases currentInstr s <;> simp [hw]

/-- The sequencer of a running host op always answers a next state. -/
theorem runSequencer_next {s : State} (stall : Bool)
    (hop : ∀ op seq lat, s.phase = .busy op seq lat → isCommand op = true) : ∃ t, runSequencer stall s = .next t := by
  cases hs : s.phase with
  | idle => exact ⟨_, runSequencer_idle stall hs⟩
  | busy op seq lat =>
    by_cases hst : stall = false ∨ s.inWait = true
    · exact ⟨_, runSequencer_runs (hop _ _ _ hs) hs hst⟩
    · simp only [not_or, Bool.not_eq_false, Bool.not_eq_true] at hst
      obtain ⟨rfl, hw⟩ := hst
      exact ⟨_, runSequencer_stalled hw⟩

/-- A command value always answers a next state: its op's, or a refusal's. -/
theorem runCommandWord_next (v : Word) (s : State) : ∃ t, runCommandWord v s = .next t := by
  unfold runCommandWord
  split
  · exact exec_command_next (decodeCmd_spec ‹_›).1 s
  · exact ⟨_, rfl⟩

/-- The cycle of a command is the command's, once the host's writes are done. -/
theorem CommandWritten.step_eq {s : State} {v : Word} {u : State} (hs : s.phase = .idle) (hr : s.env.cycle.rstN = true)
    (h : CommandWritten s v u) : step s = runCommandWord v u := by
  obtain ⟨hv, hu⟩ := h.served hs
  simp [step_active hr, activeCycle, hv, hu]

/-- A line takes no input and answers no access: those are the host port's. -/
theorem runLine_port (l : Line) (op : Instr) (lat : Latch) (rest : List Line) (s : State) :
    (runLine l op lat rest s).env.inputs = s.env.inputs ∧ (runLine l op lat rest s).env.responses = s.env.responses := by
  cases hl : l.onBus with
  | false => rw [(runLine_off_bus op lat rest s hl).2]; exact ⟨rfl, rfl⟩
  | true =>
    cases l with
    | write bytes hold =>
      simp only [runLine]
      cases hd : drawFailure s.bus s.env.draw with
      | none => simp [lineWrite_ok hd, State.afterTransaction]
      | some f => simp [lineWrite_failed hd, State.afterTransaction, raiseTransport]
    | read n =>
      simp only [runLine]
      cases hd : drawFailure s.bus s.env.draw with
      | none => simp [lineRead_ok hd, State.afterTransaction]
      | some f => simp [lineRead_failed hd, State.afterTransaction, raiseTransport]
    | _ => cases hl

/-- Settles O27: a reset cycle, a command and the sequencer of a host op each answer a next state. -/
theorem stepNeverStops : Obligations.StepNeverStops := by
  intro s hi
  cases hr : s.env.cycle.rstN with
  | false => exact ⟨_, step_reset hr⟩
  | true =>
    rw [step_active hr, activeCycle]
    split
    · exact runCommandWord_next _ _
    · obtain ⟨t, ht⟩ := runSequencer_next s.env.cycle.stall (s := serveEarly s.env.cycle s.takeCycle)
        (by simpa using hi.isCommand)
      exact ⟨_, by rw [ht]; rfl⟩

/-- Settles O26: in an empty cycle the step is the sequencer's, and the sequencer's is the op's own line. -/
theorem quietStepRunsTheOp : Obligations.QuietStepRunsTheOp := by
  intro s op seq lat hc hs hq
  have hs' : s.takeCycle.phase = .busy op seq lat := hs
  calc step s = activeCycle s.env.cycle s.takeCycle := step_active (by rw [hq])
    _ = runSequencer false s.takeCycle := by rw [hq]; exact activeCycle_quiet rfl rfl
    _ = .next (runSeq op seq lat s.takeCycle) := runSequencer_runs hc hs' (.inl rfl)
    _ = exec op s.takeCycle := (exec_running hc hs').symm

/-- A legal command written to an idle block starts its op. -/
theorem exec_legal {i : Instr} {s : State} (hc : isCommand i = true) (hl : operandsLegal i = true)
    (hs : s.phase = .idle) : exec i s = .next (startOp i (linesOf i) s) := by
  rw [exec_idle hc hs, accept, if_pos hl]

/-- Settles O22: the latch of an accepted command is `latch`, which holds BUF for the three ops that use it. -/
theorem legalCommandLatchesOperands : Obligations.LegalCommandLatchesOperands := by
  intro i s hc hlegal hs
  refine ⟨latch i s, exec_legal hc ((operandsLegal_iff hc).mpr hlegal) hs,
    rfl, rfl, rfl, rfl, rfl, rfl, rfl, rfl, rfl, rfl, fun hop => ?_⟩
  have hb : latchesBuf i = true := by simpa [latchesBuf, or_assoc] using hop
  simp [latch, hb]

/-! An op runs to its completion in quiet cycles. -/

section
variable {op : Instr} {lat : Latch} {rest : List Line} {s : State}

/-- The op runs at seq, and nothing comes from outside any more. -/
def QuietAt (op : Instr) (seq : List Line) (lat : Latch) (s : State) : Prop :=
  s.phase = .busy op seq lat ∧ s.env.inputs = []

/-- Block cycles lead from s to the completion of the op that the latch is of. -/
def Completes (lat : Latch) (s : State) : Prop :=
  ∃ n t, stepTimes n s = .next t ∧ t.phase = .idle ∧ t.status.done = true ∧ t.status.lastOp = lat.op

theorem State.takeCycle_of_quiet (h : s.env.inputs = []) : s.takeCycle = s := by
  unfold State.takeCycle
  rw [h, List.tail_nil, ← h]

theorem step_quietAt {seq : List Line} (hc : isCommand op = true) (h : QuietAt op seq lat s) :
    step s = .next (runSeq op seq lat s) := by
  obtain ⟨hs, hin⟩ := h
  rw [quietStepRunsTheOp s op seq lat hc hs (by simp [Env.cycle, hin]), State.takeCycle_of_quiet hin,
    exec_running hc hs]

theorem Completes.of_runSeq {seq : List Line} (hc : isCommand op = true) (h : QuietAt op seq lat s)
    (hu : Completes lat (runSeq op seq lat s)) : Completes lat s := by
  obtain ⟨n, t, ht, hdone⟩ := hu
  exact ⟨n + 1, t, by simpa only [stepTimes, step_quietAt hc h] using ht, hdone⟩

/-- With no line left the next cycle completes the op, with its results or with its error (R303, R304). -/
theorem completes_nil (hc : isCommand op = true) (h : QuietAt op [] lat s) : Completes lat s :=
  Completes.of_runSeq hc h ⟨0, _, rfl, rfl, rfl, rfl⟩

/-- A line that is neither a Wait nor the loop line goes on to the lines after it, a warm-up counted where it was one,
or leaves only the completion. -/
theorem runLine_goes {l : Line} (op : Instr) (lat : Latch) (rest : List Line) (s : State) (hloop : l ≠ .warmupLoop)
    (hw : ∀ d, l ≠ .wait d) (hw' : ∀ d, l ≠ .waiting d) :
    (runLine l op lat rest s).phase = .busy op [] lat ∨
      ((runLine l op lat rest s).phase = .busy op rest lat ∧
        (runLine l op lat rest s).k = s.k + [l].count .warmupCheck) := by
  cases l with
  | write bytes hold =>
    simp only [runLine]
    cases hd : drawFailure s.bus s.env.draw with
    | none => rw [lineWrite_ok hd]; exact .inr ⟨rfl, rfl⟩
    | some f => rw [lineWrite_failed hd]; exact .inl rfl
  | read n =>
    simp only [runLine]
    cases hd : drawFailure s.bus s.env.draw with
    | none => rw [lineRead_ok hd]; exact .inr ⟨rfl, rfl⟩
    | some f => rw [lineRead_failed hd]; exact .inl rfl
  | wait d => exact absurd rfl (hw d)
  | waiting d => exact absurd rfl (hw' d)
  | warmupLoop => exact absurd rfl hloop
  | crcCheck | triplet | checkWord | warmupCheck | frcResult | serial =>
    simp only [runLine, lineCrcCheck, lineTriplet, lineCheckWord, lineWarmupCheck, lineFrcResult, lineSerial]
    split <;> first | exact .inr ⟨rfl, rfl⟩ | exact .inl rfl
  | _ => exact .inr ⟨rfl, rfl⟩

/-- A running Wait counts down to its end (41_transport.md R183). -/
theorem completes_waiting {d : Delay} {s : State} (hc : isCommand op = true) (h : QuietAt op (.waiting d :: rest) lat s)
    (next : ∀ u, QuietAt op rest lat u → u.k = s.k → Completes lat u) : Completes lat s := by
  refine Completes.of_runSeq hc h ?_
  simp only [runSeq, runLine]
  by_cases h1 : s.waitCtr ≤ 1
  · rw [lineWaiting_last h1]
    exact next _ ⟨rfl, h.2⟩ rfl
  · rw [lineWaiting_more h1]
    exact completes_waiting hc ⟨rfl, h.2⟩ next
termination_by s.waitCtr
decreasing_by simp only [State.goto_waitCtr]; omega

/-- Any line but the loop line lets its op complete, if the lines after it do. -/
theorem completes_line {l : Line} (hc : isCommand op = true) (hloop : l ≠ .warmupLoop) (h : QuietAt op (l :: rest) lat s)
    (next : ∀ u, QuietAt op rest lat u → u.k = s.k + [l].count .warmupCheck → Completes lat u) : Completes lat s := by
  by_cases hw' : ∃ d, l = .waiting d
  · obtain ⟨d, rfl⟩ := hw'
    exact completes_waiting hc h next
  refine Completes.of_runSeq hc h ?_
  simp only [runSeq]
  by_cases hw : ∃ d, l = .wait d
  · obtain ⟨d, rfl⟩ := hw
    simp only [runLine]
    by_cases h0 : delayMs lat d = 0
    · rw [lineWait_zero h0]
      exact next _ ⟨rfl, h.2⟩ rfl
    · rw [lineWait_pos h0]
      exact completes_waiting hc ⟨rfl, h.2⟩ next
  · have hin : (runLine l op lat rest s).env.inputs = [] := (runLine_port l op lat rest s).1.trans h.2
    rcases runLine_goes op lat rest s hloop (fun d hd => hw ⟨d, hd⟩) (fun d hd => hw' ⟨d, hd⟩) with hp | ⟨hp, hk⟩
    · exact completes_nil hc ⟨hp, hin⟩
    · exact next _ ⟨hp, hin⟩ hk

/-- Lines without a loop let their op complete, if the lines after them do. -/
theorem completes_lines (hc : isCommand op = true) : ∀ {p : List Line} {s : State}, .warmupLoop ∉ p →
    QuietAt op (p ++ rest) lat s →
    (∀ u, QuietAt op rest lat u → u.k = s.k + p.count .warmupCheck → Completes lat u) → Completes lat s
  | [], s, _, h, next => next s h rfl
  | l :: p, s, hp, h, next => by
    simp only [List.mem_cons, not_or] at hp
    refine completes_line hc (Ne.symm hp.1) h fun u hu hk => completes_lines hc hp.2 hu fun w hw hkw => next w hw ?_
    rw [hkw, hk, Nat.add_assoc, ← List.count_append, List.singleton_append]

/-- FRC's loop makes its 36 warm-ups and goes on (43_calibration.md R233, R234). -/
theorem completes_warmups {s : State} (hc : isCommand op = true) (hrest : .warmupLoop ∉ rest)
    (h : QuietAt op (.warmupLoop :: rest) lat s) : Completes lat s := by
  refine Completes.of_runSeq hc h ?_
  simp only [runSeq, runLine, lineWarmupLoop]
  by_cases hdue : s.k < warmupN
  · rw [if_pos hdue]
    refine completes_lines hc (p := warmupBody) (by decide) ⟨rfl, h.2⟩ fun u hu hk => ?_
    have hcount : u.k = s.k + 1 := hk
    exact completes_warmups hc hrest hu
  · rw [if_neg hdue]
    exact completes_lines (rest := []) hc hrest ⟨by simp, h.2⟩ fun _ hw _ => completes_nil hc hw
termination_by warmupN - s.k
decreasing_by omega

theorem completes_linesOf (hc : isCommand op = true) (h : QuietAt op (linesOf op lat) lat s) : Completes lat s := by
  by_cases hloop : .warmupLoop ∈ linesOf op lat
  · rw [warmupLoop_mem_linesOf (.inl hloop)] at h
    exact completes_warmups hc (by simp [frcTail]) h
  · exact completes_lines (rest := []) hc hloop (by simpa using h) fun _ hu _ => completes_nil hc hu

end

/-- Settles O57: the command's cycle starts its op, and its lines run out, each Wait at its end and FRC's loop after its
last warm-up. -/
theorem everyCommandCompletes : Obligations.EveryCommandCompletes := by
  intro s v i hs hin hd hl
  have hc := (decodeCmd_spec hd).1
  have hcyc : s.env.cycle = { access := some (.write 0x08 4 v) } := by simp [Env.cycle, hin]
  have hcw : CommandWritten s v (s.takeCycle.respond .ok) := .inl (by simp [hcyc])
  have hstep : step s = .next (startOp i (linesOf i) (s.takeCycle.respond .ok)) := by
    rw [hcw.step_eq hs (by rw [hcyc]), runCommandWord, hd]
    exact exec_legal hc hl hs
  obtain ⟨n, t, ht, hidle, hdone, hlast⟩ := completes_linesOf (s := startOp i (linesOf i) (s.takeCycle.respond .ok)) hc
    ⟨rfl, by simp [hin]⟩
  exact ⟨_, n, t, hstep, ⟨_, _, rfl⟩, rfl, ht, hidle, hdone, hlast⟩

end Sys2Proof.Machine
end

section
/-! The host port: what stands at each offset, and which bits are there (O12, O17, O30, O60). -/

namespace Sys2Proof.Machine

/-- The register at word w is reached by an access at its offset (20_memory.md R81). -/
theorem accessReg_word {w : Nat} (hw : w < 64) : accessReg ((4 * w : Nat) : Int) 4 = some (regOfWord w) := by
  have h : (4 : Nat) = 4 ∧ ((4 * w : Nat) : Int) % 4 = 0 ∧ 0 ≤ ((4 * w : Nat) : Int) ∧ ((4 * w : Nat) : Int) < 256 := by
    omega
  rw [accessReg, if_pos h, Int.toNat_natCast, Nat.mul_div_cancel_left _ (by decide)]

theorem hostReads_word (s : State) {w : Nat} (hw : w < 64) : HostReads s (4 * w : Nat) (readReg (regOfWord w) s) := by
  simp only [HostReads, serveAccess, accessReg_word hw]

theorem hostWrites_word (s : State) (v : Word) {w : Nat} (hw : w < 64) :
    HostWrites s (4 * w : Nat) v (writeReg (regOfWord w) v s) := by
  simp only [HostWrites, serveAccess, accessReg_word hw]

theorem regOfWord_buf {i : Nat} (hi : i < 16) : regOfWord (32 + i) = .buf i := by
  revert i
  decide

theorem regOfWord_reserved {w : Nat} (hw : 22 ≤ w ∧ w ≤ 31 ∨ 48 ≤ w ∧ w ≤ 63) : regOfWord w = .reserved := by
  have h : ∀ w < 64, (22 ≤ w ∧ w ≤ 31 ∨ 48 ≤ w ∧ w ≤ 63) → regOfWord w = .reserved := by decide
  exact h w (by omega) hw

/-! The fields of the registers that are made of fields. -/

/-- STATUS as read, its width written as the sum of its fields' widths: the library's laws of `++` apply to it. -/
def statusFields (s : State) : BitVec (8 + 8 + 2 + 2 + 1 + 3 + 4 + 1 + 1 + 1 + 1) :=
  s.status.lastOp ++ s.status.warmupDone ++ 0#2 ++ s.status.tfail ++ 0#1 ++ s.status.failWord ++ errCode s.status.err
    ++ BitVec.ofBool s.held ++ BitVec.ofBool s.status.overrun ++ BitVec.ofBool s.status.done ++ BitVec.ofBool s.busy

theorem statusWord_eq (s : State) : statusWord s = statusFields s := rfl

/-- The one-bit fields of STATUS (10_state.md R34 to R37). -/
theorem statusWord_flags (s : State) :
    (statusWord s).getLsbD 0 = s.busy ∧ (statusWord s).getLsbD 1 = s.status.done ∧
      (statusWord s).getLsbD 2 = s.status.overrun ∧ (statusWord s).getLsbD 3 = s.held := by
  rw [statusWord_eq]
  refine ⟨?_, ?_, ?_, ?_⟩ <;> simp only [statusFields, BitVec.getLsbD_append] <;> simp

/-- The wider fields of STATUS (R38 to R42). -/
theorem statusWord_fields (s : State) :
    (statusWord s).extractLsb' 4 4 = errCode s.status.err ∧ (statusWord s).extractLsb' 8 3 = s.status.failWord ∧
      (statusWord s).extractLsb' 12 2 = s.status.tfail ∧ (statusWord s).extractLsb' 16 8 = s.status.warmupDone ∧
      (statusWord s).extractLsb' 24 8 = s.status.lastOp := by
  rw [statusWord_eq]
  refine ⟨?_, ?_, ?_, ?_, ?_⟩ <;>
    simp (disch := decide) only [statusFields, BitVec.extractLsb'_append_eq_of_le,
      BitVec.extractLsb'_append_eq_of_add_le] <;> simp

/-- The reserved bits of STATUS (R64). -/
theorem statusWord_reserved (s : State) :
    (statusWord s).getLsbD 11 = false ∧ (statusWord s).getLsbD 14 = false ∧ (statusWord s).getLsbD 15 = false := by
  rw [statusWord_eq]
  refine ⟨?_, ?_, ?_⟩ <;> simp only [statusFields, BitVec.getLsbD_append] <;> simp

/-- CTRL's two bits, and nothing else (R33). -/
theorem ctrlWord_bits (c : Ctrl) : (ctrlWord c).getLsbD 0 = c.irqEn ∧ (ctrlWord c).getLsbD 1 = c.ascCheck ∧
    (ctrlWord c).extractLsb' 2 30 = 0 := by
  have h : ∀ a b : Bool, (ctrlWord ⟨a, b⟩).getLsbD 0 = a ∧ (ctrlWord ⟨a, b⟩).getLsbD 1 = b ∧
      (ctrlWord ⟨a, b⟩).extractLsb' 2 30 = 0 := by decide
  exact h _ _

/-- VALID's six bits, and nothing else (R50). -/
theorem validBits_bits (v : Valid) : (validBits v).getLsbD 0 = v.crc ∧ (validBits v).getLsbD 1 = v.conv ∧
    (validBits v).getLsbD 2 = v.meas ∧ (validBits v).getLsbD 3 = v.asc ∧ (validBits v).getLsbD 4 = v.frc ∧
    (validBits v).getLsbD 5 = v.ser ∧ (validBits v).extractLsb' 6 26 = 0 := by
  have h : ∀ a b c d e f : Bool, (validBits ⟨a, b, c, d, e, f⟩).getLsbD 0 = a ∧
      (validBits ⟨a, b, c, d, e, f⟩).getLsbD 1 = b ∧ (validBits ⟨a, b, c, d, e, f⟩).getLsbD 2 = c ∧
      (validBits ⟨a, b, c, d, e, f⟩).getLsbD 3 = d ∧ (validBits ⟨a, b, c, d, e, f⟩).getLsbD 4 = e ∧
      (validBits ⟨a, b, c, d, e, f⟩).getLsbD 5 = f ∧ (validBits ⟨a, b, c, d, e, f⟩).extractLsb' 6 26 = 0 := by
    decide
  exact h _ _ _ _ _ _

/-- Settles O17, field by field. -/
theorem statusLayout : Obligations.StatusLayout := by
  intro s
  obtain ⟨hbusy, hdone, hover, hheld⟩ := statusWord_flags s
  obtain ⟨herr, hfw, htf, hwd, hlast⟩ := statusWord_fields s
  obtain ⟨h11, h14, h15⟩ := statusWord_reserved s
  refine ⟨hostReads_word s (w := 1) (by decide), hbusy, hdone, hover, ?_, ?_, hfw, h11, htf, ?_, hwd, hlast⟩
  · rw [show readReg .status s = statusWord s from rfl, hheld]
    simp [State.held]
  · exact herr.trans (by cases s.status.err <;> rfl)
  · ext j hj
    obtain rfl | rfl : j = 0 ∨ j = 1 := by omega
    · simpa [readReg] using h14
    · simpa [readReg] using h15

/-- Settles O30, by evaluation. -/
theorem resetValues : Obligations.ResetValues := by
  unfold Obligations.ResetValues
  decide

/-- While BUSY = 0 a write of an operand register or BUF byte is its store (20_memory.md R83). -/
theorem hostWrites_store {s : State} (hb : s.busy = false) (v : Word) {w : Nat} (hw : w < 64)
    (hr : operandReg (regOfWord w) = true) : HostWrites s (4 * w : Nat) v (storeOperand (regOfWord w) v s) := by
  have hstore : writeReg (regOfWord w) v s = storeOperand (regOfWord w) v s := by
    cases hreg : regOfWord w <;> simp [hreg, operandReg] at hr <;> simp [writeReg, hb]
  rw [← hstore]
  exact hostWrites_word s v hw

/-- Settles O60: each offset is four times its word, and each word is its register. -/
theorem registerMap : Obligations.RegisterMap := by
  intro s
  have hread : ∀ w < 64, HostReads s (4 * w : Nat) (readReg (regOfWord w) s) := fun _ hw => hostReads_word s hw
  obtain ⟨hirq, hasc, hctrl⟩ := ctrlWord_bits s.ctrl
  obtain ⟨hcrc, hconv, hmeas, hascv, hfrc, hser, hvalid⟩ := validBits_bits s.res.valid
  refine ⟨⟨_, hread 0 (by decide), hirq, hasc, hctrl⟩, hread 2 (by decide), hread 3 (by decide), hread 4 (by decide),
    hread 5 (by decide), hread 6 (by decide), hread 7 (by decide), hread 8 (by decide),
    ⟨_, hread 9 (by decide), hcrc, hconv, hmeas, hascv, hfrc, hser, hvalid⟩, hread 10 (by decide), hread 11 (by decide),
    hread 12 (by decide), hread 13 (by decide), hread 14 (by decide), hread 15 (by decide), hread 16 (by decide),
    hread 17 (by decide), hread 18 (by decide), hread 19 (by decide), hread 20 (by decide), hread 21 (by decide), ?_, ?_⟩
  · intro i hi
    have h := hread (32 + i) (by omega)
    rw [regOfWord_buf hi, Nat.mul_add] at h
    exact h
  · intro hb v
    have hwrite : ∀ w < 64, operandReg (regOfWord w) = true →
        HostWrites s (4 * w : Nat) v (storeOperand (regOfWord w) v s) := fun _ hw hr => hostWrites_store hb v hw hr
    simp only [← BitVec.setWidth_eq_extractLsb' (x := v) (w := 7) (by decide),
      ← BitVec.setWidth_eq_extractLsb' (x := v) (w := 8) (by decide),
      ← BitVec.setWidth_eq_extractLsb' (x := v) (w := 16) (by decide)]
    refine ⟨hwrite 3 (by decide) rfl, hwrite 4 (by decide) rfl, hwrite 5 (by decide) rfl, hwrite 6 (by decide) rfl,
      hwrite 7 (by decide) rfl, hwrite 8 (by decide) rfl, fun hwf i hi => ⟨s.buf.write i (v.setWidth 8), ?_, ?_, ?_, ?_⟩⟩
    · have h := hwrite (32 + i) (by omega) (by rw [regOfWord_buf hi]; rfl)
      rw [regOfWord_buf hi, Nat.mul_add] at h
      exact h
    · rw [Memory.read_write i i _ hwf, if_pos rfl]
    · intro j hj
      rw [Memory.read_write i j _ hwf, if_neg hj]
    · exact Memory.write_wf _ hwf hi

/-! Reserved bits. -/

/-- A field of n bits read as a word is 0 above them (10_state.md R64). -/
theorem setWidth_reserved {n : Nat} (x : BitVec n) : x.setWidth 32 &&& ~~~((BitVec.allOnes n).setWidth 32) = 0 := by
  ext i hi
  by_cases hn : i < n
  · simp [hn]
  · simp [BitVec.getLsbD_of_ge x i (Nat.le_of_not_lt hn)]

/-- The field of n bits that a write stores does not look above them. -/
theorem setWidth_masked {n : Nat} (hn : n ≤ 32) (v : Word) :
    (v &&& (BitVec.allOnes n).setWidth 32).setWidth n = v.setWidth n := by
  rw [BitVec.setWidth_and, BitVec.setWidth_setWidth_of_le _ hn, BitVec.setWidth_eq, BitVec.and_allOnes]

/-- A register of one field of n bits has those bits defined. -/
theorem definedBits_field : (0x7F : Word) = (BitVec.allOnes 7).setWidth 32 ∧
    (0xFF : Word) = (BitVec.allOnes 8).setWidth 32 ∧ (0xFFFF : Word) = (BitVec.allOnes 16).setWidth 32 := by decide

theorem statusWord_masked (s : State) : statusWord s &&& ~~~definedBits .status = 0 := by
  obtain ⟨h11, h14, h15⟩ := statusWord_reserved s
  have hbits : ∀ i < 32, (~~~definedBits .status).getLsbD i = true → i = 11 ∨ i = 14 ∨ i = 15 := by decide
  apply BitVec.eq_of_getLsbD_eq
  intro i hi
  rw [BitVec.getLsbD_and]
  cases hd : (~~~definedBits .status).getLsbD i with
  | false => simp
  | true =>
    have hs : (statusWord s).getLsbD i = false := by
      rcases hbits i hi hd with rfl | rfl | rfl
      · exact h11
      · exact h14
      · exact h15
    rw [hs, Bool.false_and]
    exact BitVec.getLsbD_zero.symm

/-- The reserved bits of every register read 0 (R64). -/
theorem readReg_reserved (r : Reg) (s : State) : readReg r s &&& ~~~definedBits r = 0 := by
  obtain ⟨h7, h8, h16⟩ := definedBits_field
  cases r with
  | ctrl =>
    have h : ∀ a b : Bool, ctrlWord ⟨a, b⟩ &&& ~~~definedBits .ctrl = 0 := by decide
    exact h _ _
  | status => exact statusWord_masked s
  | valid =>
    have h : ∀ a b c d e f : Bool, validBits ⟨a, b, c, d, e, f⟩ &&& ~~~definedBits .valid = 0 := by decide
    exact h _ _ _ _ _ _
  | cmd | reserved => exact BitVec.zero_and
  | devAddr => rw [definedBits, h7]; exact setWidth_reserved _
  | crcResult | ascState | buf _ => rw [definedBits, h8]; exact setWidth_reserved _
  | tQ16 | rhPctQ16 | convOut | serialLo | frcOffset => exact BitVec.and_zero
  | _ => rw [definedBits, h16]; exact setWidth_reserved _

/-- A write does not look at reserved bits; CMD's are another matter (R64; 30_encoding.md R114). -/
theorem writeReg_masked {r : Reg} (hr : r ≠ .cmd) (v : Word) (s : State) :
    writeReg r v s = writeReg r (v &&& definedBits r) s := by
  obtain ⟨h7, h8, h16⟩ := definedBits_field
  cases r with
  | cmd => exact absurd rfl hr
  | ctrl => simp [writeReg, ctrlWrite, definedBits]
  | status => simp [writeReg, statusWrite, definedBits]
  | devAddr => simp only [writeReg, storeOperand, definedBits, h7, setWidth_masked (n := 7) (by decide)]
  | buf i => simp only [writeReg, storeOperand, definedBits, h8, setWidth_masked (n := 8) (by decide)]
  | wdata | targetPpm | tCmdMs | tSsMs | tFrcMs =>
    simp only [writeReg, storeOperand, definedBits, h16, setWidth_masked (n := 16) (by decide)]
  | _ => rfl

/-- Settles O12: the words the map leaves out are the reserved register, and no register has or stores a reserved bit. -/
theorem reservedReadsZero : Obligations.ReservedReadsZero := by
  refine ⟨fun w hw v s => ?_, fun r s => ⟨readReg_reserved r s, fun hr v => writeReg_masked hr v s⟩⟩
  have hreads := hostReads_word s (w := w) (by omega)
  have hwrites := hostWrites_word s v (w := w) (by omega)
  rw [regOfWord_reserved hw] at hreads hwrites
  exact ⟨hreads, hwrites⟩

end Sys2Proof.Machine
end

section
/-! What a step does to DONE, OVERRUN and irq (O19, O20), and to the registers that an op or the host owns (O54). -/

namespace Sys2Proof.Machine

/-! A running op leaves the host's part of the state alone. -/

/-- Neither a line nor a completion touches OVERRUN, CTRL, an operand register or the port's answers. -/
theorem runSeq_keeps (op : Instr) (seq : List Line) (lat : Latch) (s : State) :
    (runSeq op seq lat s).status.overrun = s.status.overrun ∧ (runSeq op seq lat s).ctrl = s.ctrl ∧
      (runSeq op seq lat s).oper = s.oper ∧ (runSeq op seq lat s).env.responses = s.env.responses := by
  cases seq with
  | nil => exact ⟨rfl, rfl, rfl, rfl⟩
  | cons l rest =>
    obtain ⟨hctrl, hst, hoper, -⟩ := runLine_keeps l op lat rest s
    exact ⟨congrArg Status.overrun hst, hctrl, hoper, (runLine_port l op lat rest s).2⟩

/-- A step of a running op is the sequencer's, between the host's accesses. -/
theorem step_busy {s : State} {op : Instr} {seq : List Line} {lat : Latch} (hs : s.phase = .busy op seq lat)
    (hr : s.env.cycle.rstN = true) :
    step s = serveLate s.env.cycle (runSequencer s.env.cycle.stall (serveEarly s.env.cycle s.takeCycle)) := by
  simp only [step_active hr, activeCycle, hostCommand_busy (c := s.env.cycle) (s := s.takeCycle) (State.busy_of_phase hs)]

/-- A step ends in the state the sequencer leaves, but for an answer recorded after it. -/
theorem answered_eq {t w : State} (h : t = w ∨ ∃ r, t = w.respond r) : ∃ e, t = { w with env := e } := by
  rcases h with rfl | ⟨r, rfl⟩ <;> exact ⟨_, rfl⟩

/-- WHAT A STEP OF A RUNNING OP CAN DO: the host's accesses alone, or a line or the completion after them. -/
theorem step_busy_cases {s t : State} {op : Instr} {seq : List Line} {lat : Latch}
    (hi : Inv s) (hr : s.env.cycle.rstN = true) (h : step s = .next t) (hs : s.phase = .busy op seq lat) :
    ∃ e, t = { serveEarly s.env.cycle s.takeCycle with env := e } ∨
      t = { runSeq op seq lat (serveEarly s.env.cycle s.takeCycle) with env := e } := by
  rcases step_cases hi.isCommand hr h with ⟨v, u, hid, -⟩ | ⟨-, w, hw, hcase⟩
  · rw [hs] at hid
    cases hid
  · obtain ⟨e, he⟩ := answered_eq hw
    refine ⟨e, ?_⟩
    rcases hcase with rfl | ⟨op', seq', lat', hp, -, rfl⟩
    · exact .inl he
    · rw [hs] at hp
      cases hp
      exact .inr he

/-- WHAT A STEP OF AN IDLE BLOCK CAN DO without a command: one access of the host. -/
theorem step_idle_cases {s t : State} (hi : Inv s) (hr : s.env.cycle.rstN = true) (h : step s = .next t)
    (hs : s.phase = .idle) (hn : ∀ v u, ¬ CommandWritten s v u) :
    ∃ e, t = { servePort (earlyAccess s.env.cycle) s.takeCycle with env := e } := by
  rcases step_cases hi.isCommand hr h with ⟨v, u, -, hcw, -⟩ | ⟨hcmd, w, hw, hcase⟩
  · exact absurd hcw (hn v u)
  · obtain ⟨e, he⟩ := answered_eq hw
    refine ⟨e, ?_⟩
    rcases hcase with rfl | ⟨op, seq, lat, hp, -⟩
    · rwa [serveEarly_no_command ((State.not_busy_iff s.takeCycle).mpr hs) hcmd] at he
    · rw [hs] at hp
      cases hp

/-- The host's writes of a command's cycle leave an idle block idle. -/
theorem CommandWritten.phase_idle {s u : State} {v : Word} (h : CommandWritten s v u) (hs : s.phase = .idle) :
    u.phase = .idle := by
  obtain ⟨dn, ov, env, rfl, -⟩ := h.keeps
  exact hs

/-- WHAT A COMMAND CAN DO: it is refused or starts its op, and u is the block with the host's writes done. -/
theorem step_command_cases {s t u : State} {v : Word} (hr : s.env.cycle.rstN = true) (h : step s = .next t)
    (hs : s.phase = .idle) (hcw : CommandWritten s v u) :
    (∃ op e, t = commitIllegal op e u) ∨ ∃ i ls, t = startOp i ls u := by
  rw [hcw.step_eq hs hr, runCommandWord] at h
  split at h
  · rw [exec_idle (decodeCmd_spec ‹_›).1 (hcw.phase_idle hs), accept] at h
    split at h <;> cases h
    · exact .inr ⟨_, _, rfl⟩
    · exact .inl ⟨_, _, rfl⟩
  · cases h
    exact .inl ⟨_, _, rfl⟩

/-- Where BUSY falls, the op has just completed. -/
theorem step_completes {s t : State} (hi : Inv s) (hr : s.env.cycle.rstN = true) (h : step s = .next t)
    (hs : s.busy = true) (ht : t.busy = false) : ∃ op lat e, s.phase = .busy op [] lat ∧
      t = { commit op lat (serveEarly s.env.cycle s.takeCycle) with env := e } := by
  obtain ⟨op, seq, lat, hp⟩ := (State.busy_iff s).mp hs
  rw [State.not_busy_iff] at ht
  obtain ⟨e, rfl | rfl⟩ := step_busy_cases hi hr h hp
  · simp [hp] at ht
  · cases seq with
    | nil => exact ⟨op, lat, e, hp, rfl⟩
    | cons l rest =>
      obtain ⟨-, -, -, -, -, seq, hp'⟩ := runLine_keeps l op lat rest (serveEarly s.env.cycle s.takeCycle)
      simp [runSeq, hp'] at ht

/-- Settles O20, by what each step does to DONE: a completion and a refusal set it, a start and a W1C clear it. -/
theorem irqFollowsDone : Obligations.IrqFollowsDone := by
  intro s t hi hr h
  refine ⟨rfl, fun hs ht => ?_, fun v u hs hcw => ?_, fun v hs hacc hv hbefore => ?_⟩
  · obtain ⟨op, lat, e, -, rfl⟩ := step_completes hi hr h hs ht
    rfl
  · rcases step_command_cases hr h ((State.not_busy_iff s).mp hs) hcw with ⟨op, e, rfl⟩ | ⟨i, ls, rfl⟩
    · have hbusy : (commitIllegal op e u).busy = false :=
        (State.not_busy_iff u).mpr (hcw.phase_idle ((State.not_busy_iff s).mp hs))
      simp [hbusy, State.irq, illegalStatus]
    · simp [State.irq, State.busy_of_phase (startOp_phase i ls u)]
  · have hn : ∀ x u, ¬ CommandWritten s x u := by
      rintro x u (⟨h1, -⟩ | ⟨y, ⟨-, h1⟩ | ⟨h1, -⟩, -⟩)
      · simp [hacc] at h1
      · simp [hacc] at h1
      · exact hbefore x h1
    obtain ⟨e, rfl⟩ := step_idle_cases hi hr h ((State.not_busy_iff s).mp hs) hn
    simp [State.irq, earlyAccess, hacc, servePort_statusWrite, hv]

/-! The answers of two writes in one cycle. -/

theorem writeReg_env (r : Reg) (v : Word) (s : State) : (writeReg r v s).env = s.env := by
  cases r <;> simp only [writeReg] <;> (try split) <;> rfl

/-- A write that the port performs is answered as done (20_memory.md R81, R86). -/
theorem servePort_write_responses {off : Int} {r : Reg} (h : accessReg off 4 = some r) (v : Word) (s : State) :
    (servePort (some (.write off 4 v)) s).env.responses = s.env.responses ++ [.ok] := by
  simp [servePort, serveAccess, h, writeReg_env]

theorem servePair_write_responses {off off' : Int} {r r' : Reg} (h : accessReg off 4 = some r)
    (h' : accessReg off' 4 = some r') (v v' : Word) (s : State) :
    (servePair (some (.write off 4 v)) (some (.write off' 4 v')) s).env.responses = s.env.responses ++ [.ok, .ok] := by
  rcases servePair_cases (some (.write off 4 v)) (some (.write off' 4 v')) s with hp | hp <;>
    simp [hp, servePort_write_responses h', servePort_write_responses h]

/-- A command that does not decode, or decodes with an illegal LEN or HOLD, is refused (30_encoding.md R115). -/
theorem runCommandWord_refused {v : Word} {s : State} (hs : s.phase = .idle)
    (hv : ∀ i, decodeCmd v = .ok i → operandsLegal i = false) :
    ∃ e, runCommandWord v s = .next (commitIllegal (cmdOp v) e s) := by
  unfold runCommandWord
  split
  · rename_i i hd
    obtain ⟨hc, hop, -⟩ := decodeCmd_spec hd
    refine ⟨.illegalOperand, ?_⟩
    rw [exec_idle hc hs, accept, hv i hd, if_neg (by decide), hop]
  · exact ⟨_, rfl⟩

/-- The cycle of such a command ends with its refusal. -/
theorem CommandWritten.refused {s u : State} {v : Word} (hs : s.phase = .idle) (hr : s.env.cycle.rstN = true)
    (hcw : CommandWritten s v u) (hv : ∀ i, decodeCmd v = .ok i → operandsLegal i = false) :
    ∃ e, step s = .next (commitIllegal (cmdOp v) e u) := by
  rw [hcw.step_eq hs hr]
  exact runCommandWord_refused (hcw.phase_idle hs) hv

/-- The writes that find the block locked (20_memory.md R86) by their words. -/
theorem lockedReg_regOfWord {w : Nat} (hw : 2 ≤ w ∧ w ≤ 8 ∨ 32 ≤ w ∧ w ≤ 47) : lockedReg (regOfWord w) = true := by
  have h : ∀ w < 64, (2 ≤ w ∧ w ≤ 8 ∨ 32 ≤ w ∧ w ≤ 47) → lockedReg (regOfWord w) = true := by decide
  exact h w (by omega) hw

/-- Two writes that the port performs while an op runs, one of them dropped, leave OVERRUN = 1 and the operands alone,
whatever the op does in their cycle (10_state.md R36; 60_exceptions.md R311). -/
theorem step_busy_two_writes {s : State} {op : Instr} {seq : List Line} {lat : Latch} {off off' : Int} {r r' : Reg}
    {v v' : Word} (hs : s.phase = .busy op seq lat) (hc : isCommand op = true) (hr : s.env.cycle.rstN = true)
    (hbefore : s.env.cycle.before = some (.write off 4 v)) (haccess : s.env.cycle.access = some (.write off' 4 v'))
    (hreg : accessReg off 4 = some r) (hreg' : accessReg off' 4 = some r')
    (hlocked : lockedReg r = true ∨ lockedReg r' = true) :
    ∃ t, step s = .next t ∧ t.status.overrun = true ∧ t.oper = s.oper ∧
      t.env.responses = s.env.responses ++ [.ok, .ok] := by
  have hb : s.takeCycle.busy = true := State.busy_of_phase hs
  have hse : serveEarly s.env.cycle s.takeCycle =
      servePair (some (.write off 4 v)) (some (.write off' 4 v')) s.takeCycle := by
    simp only [serveEarly, beforeAccess, earlyAccess, hb, hbefore, haccess, Bool.true_or, if_true]
  have hover : (serveEarly s.env.cycle s.takeCycle).status.overrun = true := by
    rw [hse]
    refine servePair_dropped (hlocked.imp (fun hl => ?_) fun hl => ?_)
    · simp only [dropsWrite, hb, hreg, Option.any_some, hl, Bool.and_self]
    · simp only [dropsWrite, hb, hreg', Option.any_some, hl, Bool.and_self]
  have hoper : (serveEarly s.env.cycle s.takeCycle).oper = s.oper := (serveEarly_operands_busy _ hb).1
  have hresp : (serveEarly s.env.cycle s.takeCycle).env.responses = s.env.responses ++ [.ok, .ok] := by
    rw [hse, servePair_write_responses hreg hreg']
    rfl
  have hop : ∀ op seq lat, (serveEarly s.env.cycle s.takeCycle).phase = .busy op seq lat → isCommand op = true := by
    intro op' seq' lat' hp
    rw [serveEarly_phase, State.takeCycle_phase, hs] at hp
    cases hp
    exact hc
  obtain ⟨u, hu⟩ := runSequencer_next s.env.cycle.stall hop
  have hlate : lateAccess s.env.cycle = none := by simp only [lateAccess, haccess]
  refine ⟨u, by rw [step_busy hs hr, hu]; simp only [serveLate, hlate, servePort], ?_⟩
  rcases runSequencer_cases hop hu with rfl | ⟨op', seq', lat', -, rfl⟩
  · exact ⟨hover, hoper, hresp⟩
  · obtain ⟨h1, -, h2, h3⟩ := runSeq_keeps op' seq' lat' (serveEarly s.env.cycle s.takeCycle)
    exact ⟨h1.trans hover, h2.trans hoper, h3.trans hresp⟩

/-- Settles O19: a completion and a refusal come after the host's writes of their cycle, and a dropped write leaves
OVERRUN = 1 on either side of a write to STATUS. -/
theorem completionBeatsAcknowledge : Obligations.CompletionBeatsAcknowledge := by
  refine ⟨fun s op lat v hs hc hr hst _ => ?_, fun s v x hs hr hv hacc => ?_,
    fun s op seq lat v x w hs hc hr hw hacc => ?_⟩
  · have hse : (serveEarly s.env.cycle s.takeCycle).phase = .busy op [] lat := by simpa using hs
    have hstep := step_busy hs hr
    rw [runSequencer_runs hc hse (.inl hst)] at hstep
    refine ⟨_, hstep, by simp [runSeq], ?_⟩
    rcases servePort_late s.env.cycle (commit op lat (serveEarly s.env.cycle s.takeCycle)) with hl | ⟨r, hl⟩ <;>
      simp [runSeq, hl, commitStatus]
  · have hcw : CommandWritten s v _ := .inr ⟨x, hacc.symm, rfl⟩
    obtain ⟨e, he⟩ := hcw.refused hs hr hv
    exact ⟨_, he, (State.not_busy_iff s).mpr hs, rfl, rfl, by simp⟩
  · have hlocked := lockedReg_regOfWord hw
    have hword := accessReg_word (w := w) (by omega)
    have hstatus : accessReg 0x04 4 = some .status := by decide
    rcases hacc with ⟨hbefore, haccess⟩ | ⟨hbefore, haccess⟩
    · exact step_busy_two_writes hs hc hr hbefore haccess hword hstatus (.inl hlocked)
    · exact step_busy_two_writes hs hc hr hbefore haccess hstatus hword (.inr hlocked)

/-! Who writes the result registers, BUF and the operand registers. -/

/-- Each result register and VALID bit that differs from r to r' is one that op owns (10_state.md R50 to R62). -/
def ChangedByOwner (op : Instr) (r r' : ResultRegs) : Prop :=
  (r'.crcResult ≠ r.crcResult ∨ r'.valid.crc ≠ r.valid.crc → opOf op = 0x01) ∧
  (r'.co2 ≠ r.co2 ∨ r'.tRaw ≠ r.tRaw ∨ r'.rhRaw ≠ r.rhRaw ∨ r'.tQ16 ≠ r.tQ16 ∨ r'.rhFracQ16 ≠ r.rhFracQ16 ∨
    r'.rhPctQ16 ≠ r.rhPctQ16 ∨ r'.valid.meas ≠ r.valid.meas → opOf op = 0x21 ∨ opOf op = 0x22) ∧
  (r'.convOut ≠ r.convOut ∨ r'.valid.conv ≠ r.valid.conv → opOf op = 0x30 ∨ opOf op = 0x31 ∨ opOf op = 0x32) ∧
  (r'.ascState ≠ r.ascState → opOf op = 0x41 ∨ opOf op = 0x42) ∧
  (r'.valid.asc ≠ r.valid.asc → opOf op = 0x40 ∨ opOf op = 0x41 ∨ opOf op = 0x42) ∧
  (r'.frcOffset ≠ r.frcOffset ∨ r'.valid.frc ≠ r.valid.frc → opOf op = 0x43) ∧
  (r'.serialHi ≠ r.serialHi ∨ r'.serialLo ≠ r.serialLo ∨ r'.valid.ser ≠ r.valid.ser → opOf op = 0x50)

/-- A failed op clears its own VALID bits only (60_exceptions.md R303). -/
theorem changedByOwner_failure (op : Instr) (r : ResultRegs) :
    ChangedByOwner op r { r with valid := clearOnFailure op r.valid } := by
  cases op <;> simp [ChangedByOwner, clearOnFailure, Valid.set, opOf]

/-- What an op stages for its success is its own (60_exceptions.md R304). -/
theorem changedByOwner_success {op : Instr} {ws : List StagedWrite} (hS : StagedBy op ws) (r : ResultRegs) :
    ChangedByOwner op r (ws.foldl ResultRegs.apply r) := by
  cases op <;> simp only [StagedBy] at hS
  case busRead =>
    obtain ⟨bs, -, rfl⟩ := hS
    rw [foldl_bufWrites_res]
    simp [ChangedByOwner]
  case crcCheck | busWrite | triggerSs | ascSet =>
    subst hS
    simp [ChangedByOwner, ResultRegs.apply, Valid.set, opOf]
  case crcCompute | convT | convRhf | convRhp | ascGet | ascDisableQuery | frc =>
    obtain ⟨v, rfl⟩ := hS
    simp [ChangedByOwner, ResultRegs.apply, Valid.set, opOf]
  case readMeas | measure | readSerial =>
    obtain ⟨w0, w1, w2, rfl⟩ := hS
    simp [ChangedByOwner, commitTriplet, serialWrites, ResultRegs.apply, Valid.set, opOf]

/-- A completion changes its own op's results only. -/
theorem commitResults_changedByOwner {op : Instr} {g : Stage} (hS : g.err = .success → StagedBy op g.writes)
    (r : ResultRegs) : ChangedByOwner op r (commitResults op g r) := by
  unfold commitResults
  split
  · exact changedByOwner_success (hS ‹_›) r
  · exact changedByOwner_failure op r

/-- Only BUS_READ stages bytes of BUF (41_transport.md R182). -/
theorem foldl_bufApply_of_staged {op : Instr} {ws : List StagedWrite} (hS : StagedBy op ws) (hop : opOf op ≠ 0x11)
    (m : Memory) : ws.foldl bufApply m = m := by
  cases op <;> simp only [StagedBy] at hS
  case busRead => exact absurd rfl hop
  case crcCheck | busWrite | triggerSs | ascSet =>
    subst hS
    rfl
  case crcCompute | convT | convRhf | convRhp | ascGet | ascDisableQuery | frc =>
    obtain ⟨v, rfl⟩ := hS
    rfl
  case readMeas | measure | readSerial =>
    obtain ⟨w0, w1, w2, rfl⟩ := hS
    rfl

theorem commitBuf_of_not_busRead {op : Instr} {g : Stage} (hS : g.err = .success → StagedBy op g.writes)
    (hop : opOf op ≠ 0x11) (m : Memory) : commitBuf g m = m := by
  unfold commitBuf
  split
  · exact foldl_bufApply_of_staged (hS ‹_›) hop m
  · rfl

/-- A BUF byte, not an operand register. -/
def Reg.isBuf : Reg → Bool
  | .buf _ => true
  | _ => false

theorem writeReg_buf_changed {r : Reg} {v : Word} {s : State} (h : (writeReg r v s).buf ≠ s.buf) : r.isBuf = true := by
  cases r with
  | buf i => rfl
  | cmd | devAddr | wdata | targetPpm | tCmdMs | tSsMs | tFrcMs =>
    simp only [writeReg] at h
    split at h <;> exact absurd rfl h
  | _ => exact absurd rfl h

theorem writeReg_oper_changed {r : Reg} {v : Word} {s : State} (h : (writeReg r v s).oper ≠ s.oper) :
    operandReg r = true ∧ r.isBuf = false := by
  cases r with
  | devAddr | wdata | targetPpm | tCmdMs | tSsMs | tFrcMs => exact ⟨rfl, rfl⟩
  | cmd | buf i =>
    simp only [writeReg] at h
    split at h <;> exact absurd rfl h
  | _ => exact absurd rfl h

/-- Where BUF and where the operand registers stand in the window (10_state.md R32). -/
theorem regOfWord_isBuf : ∀ w < 64, (regOfWord w).isBuf = true → 32 ≤ w ∧ w < 48 := by decide

theorem regOfWord_operand : ∀ w < 64, operandReg (regOfWord w) = true ∧ (regOfWord w).isBuf = false → 3 ≤ w ∧ w ≤ 8 := by
  decide

theorem accessReg_some {off : Int} {size : Nat} {r : Reg} (h : accessReg off size = some r) :
    size = 4 ∧ ∃ w < 64, off = (4 * w : Nat) ∧ r = regOfWord w := by
  unfold accessReg at h
  split at h
  · rename_i hc
    obtain ⟨hsize, h4, hlo, hhi⟩ := hc
    exact ⟨hsize, off.toNat / 4, by omega, by omega, by simpa using h.symm⟩
  · cases h

/-- WHAT AN ACCESS CAN DO: nothing but an answer, or the write of a word of the window. -/
theorem servePort_cases (a : Option Access) (s : State) :
    (∃ e, servePort a s = { s with env := e }) ∨ ∃ w < 64, ∃ v, a = some (.write (4 * w : Nat) 4 v) ∧
      servePort a s = (writeReg (regOfWord w) v s).respond .ok := by
  cases a with
  | none => exact .inl ⟨_, rfl⟩
  | some a =>
    cases a with
    | read off size =>
      simp only [servePort, serveAccess]
      split <;> exact .inl ⟨_, rfl⟩
    | write off size v =>
      simp only [servePort, serveAccess]
      split
      · exact .inl ⟨_, rfl⟩
      · obtain ⟨rfl, w, hw, rfl, rfl⟩ := accessReg_some ‹_›
        exact .inr ⟨w, hw, v, rfl, rfl⟩

/-- The access is a 4-byte write at an offset from lo to hi. -/
def WritesWithin (a : Option Access) (lo hi : Int) : Prop :=
  ∃ off v, a = some (.write off 4 v) ∧ lo ≤ off ∧ off ≤ hi

theorem servePort_buf_changed {a : Option Access} {s : State} (h : (servePort a s).buf ≠ s.buf) :
    WritesWithin a 0x80 0xBC := by
  rcases servePort_cases a s with ⟨e, he⟩ | ⟨w, hw, v, rfl, he⟩ <;> rw [he] at h
  · exact absurd rfl h
  · have hbuf := regOfWord_isBuf w hw (writeReg_buf_changed h)
    exact ⟨_, v, rfl, by omega, by omega⟩

theorem servePort_oper_changed {a : Option Access} {s : State} (h : (servePort a s).oper ≠ s.oper) :
    WritesWithin a 0x0C 0x20 := by
  rcases servePort_cases a s with ⟨e, he⟩ | ⟨w, hw, v, rfl, he⟩ <;> rw [he] at h
  · exact absurd rfl h
  · have hoper := regOfWord_operand w hw (writeReg_oper_changed h)
    exact ⟨_, v, rfl, by omega, by omega⟩

theorem WritesWithin.of_early {c : Cycle} {lo hi : Int} (h : WritesWithin (earlyAccess c) lo hi) :
    WritesWithin c.access lo hi := by
  rcases earlyAccess_cases c with he | he <;> rw [he] at h
  · exact h
  · obtain ⟨off, v, hv, -⟩ := h
    cases hv

/-- A step of an idle block changes no result, and BUF and the operands only by the host's write to them. -/
theorem step_idle_keeps {s t : State} (hi : Inv s) (hr : s.env.cycle.rstN = true) (h : step s = .next t)
    (hs : s.phase = .idle) : t.res = s.res ∧ (t.buf ≠ s.buf → WritesWithin s.env.cycle.access 0x80 0xBC) ∧
      (t.oper ≠ s.oper → WritesWithin s.env.cycle.access 0x0C 0x20) := by
  by_cases hcmd : ∃ v u, CommandWritten s v u
  · obtain ⟨v, u, hcw⟩ := hcmd
    have hcase := step_command_cases hr h hs hcw
    obtain ⟨dn, ov, env, rfl, -⟩ := hcw.keeps
    rcases hcase with ⟨op, e, rfl⟩ | ⟨i, ls, rfl⟩ <;> exact ⟨rfl, fun hne => absurd rfl hne, fun hne => absurd rfl hne⟩
  · obtain ⟨e, rfl⟩ := step_idle_cases hi hr h hs fun v u hcw => hcmd ⟨v, u, hcw⟩
    exact ⟨servePort_res _ _, fun hne => (servePort_buf_changed hne).of_early,
      fun hne => (servePort_oper_changed hne).of_early⟩

/-- A step of a running op changes a result or BUF in its completion only, and no operand. -/
theorem step_busy_keeps {s t : State} {op : Instr} {seq : List Line} {lat : Latch} (hi : Inv s)
    (hr : s.env.cycle.rstN = true) (h : step s = .next t) (hs : s.phase = .busy op seq lat) :
    t.oper = s.oper ∧ ((t.res = s.res ∧ t.buf = s.buf) ∨
      (seq = [] ∧ t.res = commitResults op s.stage s.res ∧ t.buf = commitBuf s.stage s.buf)) := by
  obtain ⟨hoper, hbuf⟩ := serveEarly_operands_busy s.env.cycle (s := s.takeCycle) (State.busy_of_phase hs)
  have hres := serveEarly_res s.env.cycle s.takeCycle
  obtain ⟨e, rfl | rfl⟩ := step_busy_cases hi hr h hs
  · exact ⟨hoper, .inl ⟨hres, hbuf⟩⟩
  · cases seq with
    | nil =>
      refine ⟨hoper, .inr ⟨rfl, ?_, ?_⟩⟩
      · simp [runSeq]
      · simp [runSeq, hbuf]
    | cons l rest =>
      obtain ⟨-, -, ho, hre, hbu, -⟩ := runLine_keeps l op lat rest (serveEarly s.env.cycle s.takeCycle)
      exact ⟨ho.trans hoper, .inl ⟨hre.trans hres, hbu.trans hbuf⟩⟩

/-- Settles O54: an idle block only serves the host, and a running op changes what it owns in its completion only. -/
theorem onlyOwnersWriteResults : Obligations.OnlyOwnersWriteResults := by
  intro s t hi hr h
  cases hs : s.phase with
  | idle =>
    obtain ⟨hres, hbuf, hoper⟩ := step_idle_keeps hi hr h hs
    have hb : s.busy = false := (State.not_busy_iff s).mpr hs
    refine ⟨fun hne => absurd hres hne, fun hne => .inr ⟨hb, ?_⟩, fun hne => ⟨hb, hoper hne⟩⟩
    obtain ⟨off, v, ha, hlo, hhi⟩ := hbuf hne
    exact ⟨off, v, ha, hlo, by omega⟩
  | busy op seq lat =>
    obtain ⟨hoper, ⟨hres, hbuf⟩ | ⟨rfl, hres, hbuf⟩⟩ := step_busy_keeps hi hr h hs
    · exact ⟨fun hne => absurd hres hne, fun hne => absurd hbuf hne, fun hne => absurd hoper hne⟩
    · have hS := (hi.runInv hs).staged rfl
      refine ⟨fun _ => ⟨op, lat, rfl, ?_⟩, fun hne => .inl ⟨op, lat, rfl, ?_⟩, fun hne => absurd hoper hne⟩
      · rw [hres]
        exact commitResults_changedByOwner hS s.res
      · by_contra hop
        exact hne (hbuf.trans (commitBuf_of_not_busRead hS hop s.buf))

end Sys2Proof.Machine
end

section
/-! The host port's accesses: whole words, reads, and writes to an idle and to a running block (O11, O13, O14, O15). -/

namespace Sys2Proof.Machine

/-- The access the port performs at an absolute address: a whole word of the window at SIB_BASE (20_memory.md R81), which
is aligned exactly when its offset is because SIB_BASE is a multiple of 256. -/
theorem accessReg_address (addr n : Nat) : accessReg ((addr : Int) - Config.sibBase) n =
    if n = 4 ∧ addr % 4 = 0 ∧ Config.sibBase ≤ addr ∧ addr < Config.sibBase + 256 then
      some (regOfWord ((addr - Config.sibBase) / 4))
    else none := by
  have hbase : Config.sibBase % 4 = 0 := by rw [Config.sibBase]; omega
  have hiff : (n = 4 ∧ ((addr : Int) - Config.sibBase) % 4 = 0 ∧ 0 ≤ (addr : Int) - Config.sibBase ∧
      (addr : Int) - Config.sibBase < 256) ↔
      (n = 4 ∧ addr % 4 = 0 ∧ Config.sibBase ≤ addr ∧ addr < Config.sibBase + 256) := by omega
  simp only [accessReg, hiff, Int.toNat_sub]

/-- Settles O11: both cases are the two answers of `accessReg` at the address. -/
theorem accessesAreWholeWords : Obligations.AccessesAreWholeWords := by
  intro addr n v s
  constructor
  · intro hword
    simp only [memRead, memWrite, serveAccess, accessReg_address, if_pos hword, and_self]
  · intro hother
    simp only [memRead, memWrite, serveAccess, accessReg_address, if_neg hother, and_self]

/-- What a register reads as does not depend on the environment: not on the answers recorded, nor on the inputs to come. -/
theorem readReg_withEnv (r : Reg) (s : State) (e : Env) : readReg r { s with env := e } = readReg r s := by
  cases r <;> rfl

@[simp] theorem readReg_respond (r : Reg) (s : State) (a : Response) : readReg r (s.respond a) = readReg r s :=
  readReg_withEnv r s _

@[simp] theorem readReg_takeCycle (r : Reg) (s : State) : readReg r s.takeCycle = readReg r s :=
  readReg_withEnv r s _

/-- Settles O13: the one thing a read changes is the record of answers, which no register reads. -/
theorem readsHaveNoSideEffect : Obligations.ReadsHaveNoSideEffect := by
  intro off size s
  cases hr : accessReg off size with
  | none =>
    refine ⟨.busError, by simp only [serveAccess, hr], by simp only [serveAccess, hr], fun hoff hsize => ?_⟩
    subst hoff hsize
    exact absurd hr (by decide)
  | some r =>
    refine ⟨.data (readReg r s), by simp only [serveAccess, hr], by simp only [serveAccess, hr, readReg_respond],
      fun hoff hsize => ?_⟩
    subst hoff hsize
    obtain rfl : Reg.cmd = r := Option.some.inj hr
    rfl

/-- A write that the map gives no effect: to a read-only register or a reserved offset (20_memory.md R84; 10_state.md
R64). -/
theorem writeReg_ignored {r : Reg} (hr : readOnlyReg r = true ∨ r = .reserved) (v : Word) (s : State) :
    writeReg r v s = s := by
  cases r with
  | ctrl | status | cmd | devAddr | wdata | targetPpm | tCmdMs | tSsMs | tFrcMs | buf _ => simp [readOnlyReg] at hr
  | _ => rfl

/-- Settles O15: a read-only register is written in no state, and a W1C can only clear OVERRUN. -/
theorem readOnlyWritesAreIgnored : Obligations.ReadOnlyWritesAreIgnored := fun _ _ _ =>
  ⟨fun hr => writeReg_ignored (.inl hr) _ _, _, _, rfl, fun hov => (Bool.and_eq_true_iff.mp hov).1⟩

/-! What is read after a store. -/

/-- The field of n bits of v, read as a word. -/
theorem setWidth_setWidth_masked (n : Nat) (v : Word) :
    (v.setWidth n).setWidth 32 = v &&& (BitVec.allOnes n).setWidth 32 := by
  ext i hi
  by_cases h : i < n <;> simp [h, BitVec.getLsbD_eq_getElem hi]

/-- A store touches nothing but the operand registers and BUF (20_memory.md R83). -/
theorem storeOperand_keeps (r : Reg) (v : Word) (s : State) : storeOperand r v s =
    { s with oper := (storeOperand r v s).oper, buf := (storeOperand r v s).buf } := by
  cases r <;> rfl

/-- An operand register or BUF byte reads as the defined bits of the value stored (20_memory.md R83). -/
theorem readReg_storeOperand_same {r : Reg} (hr : operandReg r = true) (v : Word) {s : State}
    (hbuf : Memory.wf s.buf = true) : readReg r (storeOperand r v s) = v &&& definedBits r := by
  obtain ⟨h7, h8, h16⟩ := definedBits_field
  cases r with
  | devAddr => exact (setWidth_setWidth_masked _ v).trans (by rw [definedBits, h7])
  | wdata | targetPpm | tCmdMs | tSsMs | tFrcMs =>
    exact (setWidth_setWidth_masked _ v).trans (by rw [definedBits, h16])
  | buf i =>
    simp only [readReg, storeOperand]
    rw [Memory.read_write i i _ hbuf, if_pos rfl, setWidth_setWidth_masked, definedBits, h8]
  | _ => cases hr

/-- Every other register reads as before. -/
theorem readReg_storeOperand_ne {r q : Reg} (hne : q ≠ r) (v : Word) {s : State} (hbuf : Memory.wf s.buf = true) :
    readReg q (storeOperand r v s) = readReg q s := by
  cases r with
  | buf i =>
    cases q with
    | buf j =>
      have hji : j ≠ i := fun h => hne (by rw [h])
      simp only [readReg, storeOperand]
      rw [Memory.read_write i j _ hbuf, if_neg hji]
    | _ => rfl
  | devAddr | wdata | targetPpm | tCmdMs | tSsMs | tFrcMs => cases q <;> first | rfl | exact absurd rfl hne
  | _ => rfl

/-- Settles O14: a command by its step, STATUS and CTRL by their write rules, an operand by its store. -/
theorem hostWritesHaveTheirEffect : Obligations.HostWritesHaveTheirEffect := by
  intro s v
  refine ⟨fun u hb hr hcw => hcw.step_eq ((State.not_busy_iff s).mp hb) hr, hostWrites_word s v (w := 1) (by decide),
    hostWrites_word s v (w := 0) (by decide), fun hb hbuf w hw hop => ?_⟩
  exact ⟨storeOperand (regOfWord w) v s, hostWrites_store hb v hw hop, storeOperand_keeps _ v s,
    readReg_storeOperand_same hop v hbuf, fun r hne => readReg_storeOperand_ne hne v hbuf⟩

end Sys2Proof.Machine
end

section
/-! A running op takes nothing from the host's part of the state but what it has latched, and BUF at its completion
(O16, O24). -/

namespace Sys2Proof.Machine

/-- s with other values of all that the host writes. -/
def State.withHost (s : State) (c : Ctrl) (st : Status) (o : OperandRegs) (m : Memory) : State :=
  { s with ctrl := c, status := st, oper := o, buf := m }

@[simp] theorem State.withHost_rx (s : State) (c : Ctrl) (st : Status) (o : OperandRegs) (m : Memory) :
    (s.withHost c st o m).rx = s.rx := rfl

/-- A line reads nothing that the host writes, and leaves it as it finds it (20_memory.md R96; 10_state.md R68). -/
theorem runLine_withHost (l : Line) (op : Instr) (lat : Latch) (rest : List Line) (s : State) (c : Ctrl) (st : Status)
    (o : OperandRegs) (m : Memory) :
    runLine l op lat rest (s.withHost c st o m) = (runLine l op lat rest s).withHost c st o m := by
  cases l with
  | write bytes hold =>
    simp only [runLine]
    cases hd : drawFailure s.bus s.env.draw with
    | none => rw [lineWrite_ok hd, lineWrite_ok (s := s.withHost c st o m) hd]; rfl
    | some f => rw [lineWrite_failed hd, lineWrite_failed (s := s.withHost c st o m) hd]; rfl
  | read n =>
    simp only [runLine]
    cases hd : drawFailure s.bus s.env.draw with
    | none => rw [lineRead_ok hd, lineRead_ok (s := s.withHost c st o m) hd]; rfl
    | some f => rw [lineRead_failed hd, lineRead_failed (s := s.withHost c st o m) hd]; rfl
  | crcCompute | storeRx | convT | convRhf | convRhp | ascClear | ascResult => rfl
  | crcCheck | triplet | warmupCheck | serial =>
    simp only [runLine, lineCrcCheck, lineTriplet, lineWarmupCheck, lineSerial, State.withHost_rx]
    split <;> rfl
  | wait | waiting | checkWord | warmupLoop | frcResult =>
    simp only [runLine, lineWait, lineWaiting, lineCheckWord, lineWarmupLoop, lineFrcResult]
    rw [apply_ite (State.withHost · c st o m)]
    rfl

/-- A line with other operand registers, CTRL and BUF is the same line (20_memory.md R96). -/
theorem runLine_withOperands (l : Line) (op : Instr) (lat : Latch) (rest : List Line) (s : State) (o : OperandRegs)
    (c : Ctrl) (m : Memory) : runLine l op lat rest { s with oper := o, ctrl := c, buf := m } =
      { runLine l op lat rest s with oper := o, ctrl := c, buf := m } := by
  obtain ⟨-, hst, -⟩ := runLine_keeps l op lat rest s
  refine (runLine_withHost l op lat rest s c s.status o m).trans ?_
  rw [State.withHost, ← hst]

/-- So is a whole step of the op, but that its completion reads BUF. -/
theorem runSeq_withOperands (op : Instr) (seq : List Line) (lat : Latch) (s : State) (o : OperandRegs) (c : Ctrl) :
    runSeq op seq lat { s with oper := o, ctrl := c } = { runSeq op seq lat s with oper := o, ctrl := c } := by
  cases seq with
  | nil => rfl
  | cons l rest =>
    obtain ⟨-, -, -, -, hbuf, -⟩ := runLine_keeps l op lat rest s
    refine (runLine_withOperands l op lat rest s o c s.buf).trans ?_
    rw [← hbuf]
    rfl

/-- A step of the op does not see OVERRUN (20_memory.md R86). -/
theorem runSeq_dropWrite (op : Instr) (seq : List Line) (lat : Latch) (s : State) :
    runSeq op seq lat s.dropWrite = (runSeq op seq lat s).dropWrite := by
  cases seq with
  | nil => rfl
  | cons l rest =>
    obtain ⟨hctrl, hst, hoper, -, hbuf, -⟩ := runLine_keeps l op lat rest s
    refine (runLine_withHost l op lat rest s s.ctrl { s.status with overrun := true } s.oper s.buf).trans ?_
    rw [State.withHost, ← hctrl, ← hst, ← hoper, ← hbuf]
    rfl

/-- Settles O24: an op's step is a line or its completion, and a line reads the latch. -/
theorem runningOpReadsOnlyLatch : Obligations.RunningOpReadsOnlyLatch := by
  intro op seq lat s t o c hc hs ht
  rw [exec_running hc hs] at ht
  cases ht
  refine ⟨?_, fun hne m => ?_⟩
  · exact (exec_running hc (s := { s with oper := o, ctrl := c }) hs).trans
      (congrArg _ (runSeq_withOperands op seq lat s o c))
  · obtain ⟨l, rest, rfl⟩ := List.exists_cons_of_ne_nil hne
    exact (exec_running hc (s := { s with oper := o, ctrl := c, buf := m }) hs).trans
      (congrArg _ (runLine_withOperands l op lat rest s o c m))

/-- A write to CMD, an operand register or BUF while BUSY = 1 is dropped (20_memory.md R86). -/
theorem writeReg_dropped {r : Reg} (hr : r = .cmd ∨ operandReg r = true) (v : Word) {s : State} (hb : s.busy = true) :
    writeReg r v s = s.dropWrite := by
  cases r with
  | cmd | devAddr | wdata | targetPpm | tCmdMs | tSsMs | tFrcMs | buf _ => simp only [writeReg, hb, if_true]
  | _ => simp [operandReg] at hr

/-- Settles O16: a dropped write sets OVERRUN, and no step of the op sees it. -/
theorem busyWritesAreDropped : Obligations.BusyWritesAreDropped := by
  intro r v s hb
  refine ⟨fun hr => writeReg_dropped hr v hb, rfl, rfl, fun hr => writeReg_ignored hr v s, commandOf_busy hb,
    fun op seq lat t hs hc ht => ?_⟩
  rw [exec_running hc hs] at ht
  cases ht
  exact (exec_running hc (s := s.dropWrite) hs).trans (congrArg _ (runSeq_dropWrite op seq lat s))

end Sys2Proof.Machine
end

section
/-! What a step is made of (O25), when an op's effects can be seen (O53), and what a read in any cycle returns (O18). -/

namespace Sys2Proof.Machine

/-! The sequencer's part of a cycle is the instruction it is at, which the host's accesses leave where it is. -/

theorem currentInstr_congr {s t : State} (h : s.phase = t.phase) : currentInstr s = currentInstr t := by
  simp only [currentInstr, h]

theorem State.inWait_congr {s t : State} (h : s.phase = t.phase) : s.inWait = t.inWait := by
  simp only [State.inWait, h]

/-- An instruction stands at the sequencer exactly while an op runs. -/
theorem busy_of_currentInstr {s : State} {i : Instr} (h : currentInstr s = some i) :
    ∃ op seq lat, s.phase = .busy op seq lat := by
  rw [← State.busy_iff]
  by_contra hb
  simp [currentInstr, (State.not_busy_iff s).mp (by simpa using hb)] at h

/-- The sequencer runs its instruction, unless the line takes longer (70_reset_and_hazards.md R354). -/
theorem runSequencer_eq {s : State} {i : Instr} (h : currentInstr s = some i) (stall : Bool) :
    runSequencer stall s = if stall = true ∧ s.inWait = false then .next s else exec i s := by
  simp [runSequencer, h]

/-- The step of a running op: its instruction, or a longer line, between the host's accesses. -/
theorem step_currentInstr {s : State} {i : Instr} (hr : s.env.cycle.rstN = true) (h : currentInstr s = some i) :
    step s = serveLate s.env.cycle (if s.env.cycle.stall = true ∧ s.inWait = false
      then .next (serveEarly s.env.cycle s.takeCycle) else exec i (serveEarly s.env.cycle s.takeCycle)) := by
  obtain ⟨op, seq, lat, hs⟩ := busy_of_currentInstr h
  have hphase : (serveEarly s.env.cycle s.takeCycle).phase = s.phase := serveEarly_phase _ _
  rw [step_busy hs hr, runSequencer_eq ((currentInstr_congr hphase).trans h), State.inWait_congr hphase]

/-- With nothing between them, the early and the late part of a cycle's access are that access: one of them is empty. -/
theorem servePort_early_late (c : Cycle) (s : State) :
    servePort (lateAccess c) (servePort (earlyAccess c) s) = servePort c.access s := by
  cases ha : c.access with
  | none => simp only [lateAccess, earlyAccess, ha, servePort]
  | some a =>
    cases a with
    | read off size => cases hl : c.late <;> simp [lateAccess, earlyAccess, ha, hl, servePort]
    | write off size v => simp only [lateAccess, earlyAccess, ha, servePort]

/-- A write is served before the sequencer's part of its cycle (20_memory.md R94). -/
theorem serveLate_write {c : Cycle} {off : Int} {size : Nat} {v : Word} (h : c.access = some (.write off size v))
    (o : Host.Outcome State Fault Refusal) : serveLate c o = o := by
  have hlate : lateAccess c = none := by simp only [lateAccess, h]
  cases o <;> simp only [serveLate, hlate, servePort]

/-- The step of an idle block that gets no command is the host's access. -/
theorem step_idle_access {s : State} (hs : s.phase = .idle) (hr : s.env.cycle.rstN = true)
    (hcmd : hostCommand s.env.cycle s.takeCycle = none) : step s = .next (servePort s.env.cycle.access s.takeCycle) := by
  have hidle : (serveEarly s.env.cycle s.takeCycle).phase = .idle := by simpa using hs
  simp only [step_active hr, activeCycle, hcmd]
  rw [runSequencer_idle _ hidle, serveEarly_no_command ((State.not_busy_iff s.takeCycle).mpr hs) hcmd]
  exact congrArg _ (servePort_early_late _ _)

/-- A write line whose bytes are a wire command's, sent with that command's hold by another op than BUS_WRITE, is that
command (30_encoding.md R128; 20_memory.md R99). -/
theorem currentInstr_wire {s : State} {op f : Instr} {bytes : List Byte} {hold : Bool} {rest : List Line} {lat : Latch}
    (hs : s.phase = .busy op (.write bytes hold :: rest) lat) (hd : decodeFrame bytes = .ok f) (hop : opOf op ≠ 0x10)
    (hh : hold = wireHold f) : currentInstr s = some f := by
  simp only [currentInstr, hs, wireOfLine, hd, hh, bne_iff_ne.mpr hop, beq_self_eq_true, Bool.and_self, if_true,
    Option.getD_some]

/-- Settles O25, by the cases of a cycle. -/
theorem stepRunsTheInstruction : Obligations.StepRunsTheInstruction := by
  refine ⟨fun s v u i hs hr hcw hd => ?_, fun s hs hr hn => ?_, fun s i hr hi => ?_,
    fun s op f bytes hold rest lat hs hd hop hh => currentInstr_wire hs hd hop hh⟩
  · rw [hcw.step_eq hs hr, runCommandWord, hd]
  · refine step_idle_access hs hr ?_
    cases hcmd : hostCommand s.env.cycle s.takeCycle with
    | none => rfl
    | some v => exact absurd (CommandWritten.of_hostCommand hcmd) (hn _ _)
  · refine ⟨fun hgo => ?_, fun hst hw => ?_, fun off size v hbefore haccess => ?_⟩
    · rw [step_currentInstr hr hi, if_neg (by rintro ⟨hst, hw⟩; simp [hst, hw] at hgo)]
    · rw [step_currentInstr hr hi, if_pos ⟨hst, hw⟩]
    · have hearly : earlyAccess s.env.cycle = some (.write off size v) := by simp only [earlyAccess, haccess]
      rw [step_currentInstr hr hi, serveLate_write haccess, serveEarly_single hbefore, hearly]
      rfl

/-! When an op's effects can be seen. -/

/-- A step that leaves or starts an op running shows nothing of it but BUSY and DONE (20_memory.md R93). -/
theorem step_running_hides {s t : State} (hi : Inv s) (hr : s.env.cycle.rstN = true) (h : step s = .next t)
    (ht : t.busy = true) : t.res = s.res ∧ t.buf = s.buf ∧
      t.status = { s.status with done := false, overrun := t.status.overrun } := by
  cases hs : s.phase with
  | idle =>
    by_cases hcmd : ∃ v u, CommandWritten s v u
    · obtain ⟨v, u, hcw⟩ := hcmd
      have hcase := step_command_cases hr h hs hcw
      obtain ⟨dn, ov, env, rfl, -⟩ := hcw.keeps
      rcases hcase with ⟨op, e, rfl⟩ | ⟨i, ls, rfl⟩
      · simp [State.busy, hs, Phase.isBusy] at ht
      · exact ⟨rfl, rfl, rfl⟩
    · obtain ⟨e, rfl⟩ := step_idle_cases hi hr h hs fun v u hcw => hcmd ⟨v, u, hcw⟩
      simp [State.busy, hs, Phase.isBusy] at ht
  | busy op seq lat =>
    have hbuf := (serveEarly_operands_busy s.env.cycle (s := s.takeCycle) (State.busy_of_phase hs)).2
    have hres := serveEarly_res s.env.cycle s.takeCycle
    have hstatus : (serveEarly s.env.cycle s.takeCycle).status =
        { s.status with done := false, overrun := (serveEarly s.env.cycle s.takeCycle).status.overrun } := by
      obtain ⟨dn, ov, hst, hdn⟩ := serveEarly_status s.env.cycle s.takeCycle
      have : dn = false := by simpa [(hi.runInv hs).notDone] using hdn
      rw [hst, this]
      rfl
    obtain ⟨e, rfl | rfl⟩ := step_busy_cases hi hr h hs
    · exact ⟨hres, hbuf, hstatus⟩
    · cases seq with
      | nil => simp [runSeq, State.busy, Phase.isBusy] at ht
      | cons l rest =>
        obtain ⟨-, hst, -, hre, hbu, -⟩ := runLine_keeps l op lat rest (serveEarly s.env.cycle s.takeCycle)
        refine ⟨hre.trans hres, hbu.trans hbuf, ?_⟩
        simp only [runSeq, hst]
        exact hstatus

/-- Settles O53: an op that goes on shows nothing, and one that ends is committed whole. -/
theorem commitIsAtomic : Obligations.CommitIsAtomic := by
  intro s t hi hr h
  refine ⟨step_running_hides hi hr h, fun hs ht => ?_⟩
  obtain ⟨op, lat, e, hp, rfl⟩ := step_completes hi hr h hs ht
  obtain ⟨hlat, -, -⟩ := (hi.runInv hp).latched
  have hbuf := (serveEarly_operands_busy s.env.cycle (s := s.takeCycle) hs).2
  refine ⟨op, lat, hp, by simp, by simp [hbuf], ?_⟩
  simp [commitStatus, hlat]

/-! What a read in any cycle returns. -/

theorem writeReg_takeCycle (r : Reg) (v : Word) (s : State) : writeReg r v s.takeCycle = (writeReg r v s).takeCycle := by
  cases r with
  | cmd | devAddr | wdata | targetPpm | tCmdMs | tSsMs | tFrcMs | buf _ =>
    cases hb : s.busy <;>
      simp only [writeReg, State.takeCycle_busy, hb, if_true, Bool.false_eq_true, if_false] <;> rfl
  | _ => rfl

/-- What an access does, and its answer, do not depend on the inputs to come. -/
theorem servePort_takeCycle (a : Option Access) (s : State) :
    servePort a s.takeCycle = (servePort a s).takeCycle := by
  cases a with
  | none => rfl
  | some a =>
    cases a <;> simp only [servePort, serveAccess] <;> split
    · rfl
    · rw [readReg_takeCycle]; rfl
    · rfl
    · rw [writeReg_takeCycle]; rfl

/-- An access adds to the answers and changes none of them. -/
theorem servePort_responses (a : Option Access) (s : State) :
    ∃ rs, (servePort a s).env.responses = s.env.responses ++ rs := by
  cases a with
  | none => exact ⟨[], (List.append_nil _).symm⟩
  | some a => cases a <;> simp only [servePort, serveAccess] <;> split <;> exact ⟨[_], by simp [writeReg_env]; rfl⟩

/-- A host read of a word answers with its register, and does nothing else (20_memory.md R82). -/
theorem servePort_read (s : State) {w : Nat} (hw : w < 64) :
    servePort (some (.read (4 * w : Nat) 4)) s = s.respond (.data (readReg (regOfWord w) s)) := hostReads_word s hw

/-- The answers of two accesses in one cycle are those of one after the other. -/
theorem servePair_responses (b a : Option Access) (s : State) :
    (servePair b a s).env.responses = (servePort a (servePort b s)).env.responses := by
  rcases servePair_cases b a s with h | h <;> rw [h]
  rfl

/-- THE ANSWERS OF A STEP of a running op: those of the accesses before the sequencer's part, which gives none, and that of
a late read, which finds the state the sequencer leaves. -/
theorem step_busy_answers {s : State} (hi : Inv s) (hr : s.env.cycle.rstN = true) (hb : s.busy = true) :
    ∃ u, step s = .next (servePort (lateAccess s.env.cycle) u) ∧ u.env.responses =
      (servePort (earlyAccess s.env.cycle) (servePort (beforeAccess s.env.cycle s) s).takeCycle).env.responses := by
  obtain ⟨op, seq, lat, hs⟩ := (State.busy_iff s).mp hb
  have hop : ∀ op seq lat, (serveEarly s.env.cycle s.takeCycle).phase = .busy op seq lat → isCommand op = true := by
    simpa using hi.isCommand
  obtain ⟨u, hu⟩ := runSequencer_next s.env.cycle.stall hop
  have hearly : (serveEarly s.env.cycle s.takeCycle).env.responses =
      (servePort (earlyAccess s.env.cycle) (servePort (beforeAccess s.env.cycle s) s).takeCycle).env.responses := by
    rw [← servePort_takeCycle]
    exact servePair_responses _ _ _
  refine ⟨u, by rw [step_busy hs hr, hu]; rfl, ?_⟩
  rcases runSequencer_cases hop hu with rfl | ⟨op', seq', lat', -, rfl⟩
  · exact hearly
  · exact (runSeq_keeps op' seq' lat' _).2.2.2.trans hearly

/-- At an idle block a read is alone in its cycle: only a command beside a write to STATUS makes two accesses (log 30). -/
theorem beforeAccess_read_idle {c : Cycle} {s : State} {off : Int} {size : Nat} (hb : s.busy = false)
    (ha : c.access = some (.read off size)) : beforeAccess c s = none := by
  rcases beforeAccess_idle c hb with h | ⟨-, v, x, ⟨-, h⟩ | ⟨-, h⟩⟩
  · exact h
  all_goals simp [ha] at h

/-- The step of a read at an idle block is the read. -/
theorem step_idle_read {s : State} {w : Nat} (hs : s.phase = .idle) (hr : s.env.cycle.rstN = true) (hw : w < 64)
    (ha : s.env.cycle.access = some (.read (4 * w : Nat) 4)) :
    step s = .next (s.takeCycle.respond (.data (readReg (regOfWord w) s))) := by
  have hb : s.takeCycle.busy = false := (State.not_busy_iff _).mpr hs
  have hcmd : hostCommand s.env.cycle s.takeCycle = none := by
    simp [hostCommand, beforeAccess_read_idle hb ha, ha, commandOf]
  rw [step_idle_access hs hr hcmd, ha, servePort_read _ hw, readReg_takeCycle]

/-- A read answers with the value its register has once the access before it is performed, or with the value it has after
the cycle (20_memory.md R92; log 8). -/
theorem step_read {s : State} {w : Nat} (hi : Inv s) (hr : s.env.cycle.rstN = true) (hw : w < 64)
    (ha : s.env.cycle.access = some (.read (4 * w : Nat) 4)) :
    ∃ t v, step s = .next t ∧
      t.env.responses = (servePort (beforeAccess s.env.cycle s) s).env.responses ++ [.data v] ∧
      (v = readReg (regOfWord w) (servePort (beforeAccess s.env.cycle s) s) ∨ v = readReg (regOfWord w) t) := by
  cases hb : s.busy with
  | false =>
    rw [beforeAccess_read_idle hb ha]
    exact ⟨_, _, step_idle_read ((State.not_busy_iff s).mp hb) hr hw ha, rfl, .inl rfl⟩
  | true =>
    obtain ⟨u, hstep, hresp⟩ := step_busy_answers hi hr hb
    cases hlate : s.env.cycle.late with
    | false =>
      have he : earlyAccess s.env.cycle = some (.read (4 * w : Nat) 4) := by simp [earlyAccess, ha, hlate]
      have hl : lateAccess s.env.cycle = none := by simp [lateAccess, ha, hlate]
      rw [he, servePort_read _ hw] at hresp
      rw [hl] at hstep
      exact ⟨u, _, hstep, hresp, .inl (readReg_takeCycle _ _)⟩
    | true =>
      have he : earlyAccess s.env.cycle = none := by simp [earlyAccess, ha, hlate]
      have hl : lateAccess s.env.cycle = some (.read (4 * w : Nat) 4) := by simp [lateAccess, ha, hlate]
      rw [he] at hresp
      rw [hl, servePort_read _ hw] at hstep
      exact ⟨_, _, hstep, congrArg (· ++ _) hresp, .inr (readReg_respond _ _ _).symm⟩

/-- The first of two accesses in a cycle, where it is a read, answers with the value before the cycle (20_memory.md R94;
log 30). -/
theorem step_read_before {s : State} {w : Nat} (hi : Inv s) (hr : s.env.cycle.rstN = true) (hw : w < 64)
    (hbefore : beforeAccess s.env.cycle s = some (.read (4 * w : Nat) 4)) : ∃ t rest, step s = .next t ∧
      t.env.responses = s.env.responses ++ .data (readReg (regOfWord w) s) :: rest := by
  cases hb : s.busy with
  | false =>
    rcases beforeAccess_idle s.env.cycle hb with h | ⟨h, v, x, ⟨h', -⟩ | ⟨h', -⟩⟩
    · rw [h] at hbefore; cases hbefore
    all_goals rw [h, h'] at hbefore; cases hbefore
  | true =>
    obtain ⟨u, hstep, hresp⟩ := step_busy_answers hi hr hb
    rw [hbefore, servePort_read _ hw] at hresp
    obtain ⟨early, hearly⟩ := servePort_responses (earlyAccess s.env.cycle)
      (s.respond (.data (readReg (regOfWord w) s))).takeCycle
    obtain ⟨late, hlate⟩ := servePort_responses (lateAccess s.env.cycle) u
    refine ⟨_, early ++ late, hstep, ?_⟩
    rw [hlate, hresp, hearly]
    simp

/-- Settles O18: a read is served before the sequencer's part of its cycle or after it, and the sequencer answers
nothing. -/
theorem readsAreSingleCopyAtomic : Obligations.ReadsAreSingleCopyAtomic := by
  intro s w hi hw hr
  refine ⟨fun ha => ?_, step_read_before hi hr hw⟩
  obtain ⟨t, v, hstep, hresp, hv⟩ := step_read hi hr hw ha
  refine ⟨t, v, hstep, hresp, hv, fun hnone => ?_⟩
  rw [hnone] at hresp hv
  exact ⟨hresp, hv⟩

end Sys2Proof.Machine
end

section
/-! The two codes and their instructions: a CMD word is its fields, a frame its command, and decoding and encoding are
each other's inverse (O1, O2, O4, O5). -/

namespace Sys2Proof

open Machine

/-! The fields of a CMD word (30_encoding.md R110). -/

/-- The bits of a CMD word: OP, LEN and HOLD at their places, and 0 at the reserved ones (R110, R114). -/
theorem getLsbD_cmdword (op : Byte) (len : BitVec 5) (hold : Bool) (i : Nat) :
    (cmdword op len hold).getLsbD i =
      if i < 8 then op.getLsbD i else if i < 13 then len.getLsbD (i - 8) else decide (i = 16) && hold := by
  show (0#15 ++ BitVec.ofBool hold ++ 0#3 ++ len ++ op : BitVec (15 + 1 + 3 + 5 + 8)).getLsbD i = _
  simp only [BitVec.getLsbD_append, BitVec.getLsbD_zero, BitVec.getLsbD_ofBool]
  by_cases h8 : i < 8
  · simp only [h8, if_true]
  by_cases h13 : i < 13
  · have : i - 8 < 5 := by omega
    simp only [h8, h13, this, if_true, if_false]
  have h5 : ¬ i - 8 < 5 := by omega
  by_cases h16 : i < 16
  · have h3 : i - 8 - 5 < 3 := by omega
    have hne : i ≠ 16 := by omega
    simp [h8, h13, h5, h3, hne]
  · have h3 : ¬ i - 8 - 5 < 3 := by omega
    have h1 : i - 8 - 5 - 3 = 0 ↔ i = 16 := by omega
    by_cases hi : i = 16 <;> simp [h8, h13, h5, h3, h1, hi]

@[simp] theorem cmdOp_cmdword (op : Byte) (len : BitVec 5) (hold : Bool) : cmdOp (cmdword op len hold) = op := by
  refine BitVec.eq_of_getLsbD_eq fun i hi => ?_
  simp [cmdOp, getLsbD_cmdword, hi]

@[simp] theorem cmdLen_cmdword (op : Byte) (len : BitVec 5) (hold : Bool) : cmdLen (cmdword op len hold) = len := by
  refine BitVec.eq_of_getLsbD_eq fun i hi => ?_
  have : 8 + i < 13 := by omega
  simp [cmdLen, getLsbD_cmdword, hi, this]

@[simp] theorem cmdHold_cmdword (op : Byte) (len : BitVec 5) (hold : Bool) : cmdHold (cmdword op len hold) = hold :=
  (getLsbD_cmdword op len hold 16).trans (by simp)

/-- No bit of a word is outside its fields and the reserved bits. -/
theorem cmdword_fields {v : Word} (h : cmdReservedZero v = true) : cmdword (cmdOp v) (cmdLen v) (cmdHold v) = v := by
  simp only [cmdReservedZero, Bool.and_eq_true, beq_iff_eq] at h
  obtain ⟨hlow, hhigh⟩ := h
  have low : ∀ j < 3, v.getLsbD (13 + j) = false := fun j hj => by
    simpa [hj] using congrArg (·.getLsbD j) hlow
  have high : ∀ j < 15, v.getLsbD (17 + j) = false := fun j hj => by
    simpa [hj] using congrArg (·.getLsbD j) hhigh
  refine BitVec.eq_of_getLsbD_eq fun i hi => ?_
  simp only [getLsbD_cmdword, cmdOp, cmdLen, cmdHold, BitVec.getLsbD_extractLsb']
  by_cases hop : i < 8
  · simp [hop]
  by_cases hlen : i < 13
  · have h1 : i - 8 < 5 := by omega
    have h2 : 8 + (i - 8) = i := by omega
    simp [hop, hlen, h1, h2]
  by_cases h16 : i = 16
  · simp [h16]
  have hz : v.getLsbD i = false := by
    rcases Nat.lt_or_gt_of_ne h16 with h | h
    · exact (Nat.add_sub_cancel' (by omega : 13 ≤ i)) ▸ low (i - 13) (by omega)
    · exact (Nat.add_sub_cancel' (by omega : 17 ≤ i)) ▸ high (i - 17) (by omega)
  simp [hop, hlen, h16, hz]

/-! Decoding and encoding. -/

/-- A CMD word decodes to a host op exactly when it is that op's word (30_encoding.md R110, R111, R114). -/
theorem decodeCmd_ok_iff {v : Word} {i : Instr} :
    decodeCmd v = .ok i ↔ isCommand i = true ∧ cmdword (opOf i) (lenOf i) (holdOf i) = v := by
  constructor
  · intro h
    obtain ⟨hc, hop, hlen, hhold, hz⟩ := decodeCmd_spec h
    exact ⟨hc, by rw [hop, hlen, hhold, cmdword_fields hz]⟩
  · rintro ⟨hc, rfl⟩
    simp [decodeCmd, opAssigned_of_command hc, Laws.CodeForm.cmdword_reserved]

/-- The frame of a wire command decodes to it, with its payload and check byte (R118, R119, R128). -/
theorem decodeFrame_encodeFrame {f : Instr} (h : isCommand f = false) : decodeFrame (encodeFrame f) = .ok f := by
  cases f with
  | readSerialNumber | getAscEnabled | measureSingleShot | readMeasurement => decide
  | setAscEnabled p c =>
    have : takeFrame (encodeFrame (.setAscEnabled p c)) = .ok (.setAscEnabled (word (hi p) (lo p)) c, []) := rfl
    simp [decodeFrame, this]
  | performFrc p c =>
    have : takeFrame (encodeFrame (.performFrc p c)) = .ok (.performFrc (word (hi p) (lo p)) c, []) := rfl
    simp [decodeFrame, this]
  | _ => cases h

/-- Settles O1, for each layer by the inverse of its decoder. -/
theorem decodeOfEncode : Obligations.DecodeOfEncode := by
  intro i
  cases hc : isCommand i with
  | true => simpa [encode, hc, decode] using decodeCmd_ok_iff.mpr ⟨hc, rfl⟩
  | false => simpa [encode, hc, decode] using decodeFrame_encodeFrame hc

/-- Settles O2: a word or frame that decodes is made of nothing but what the decoder reads. -/
theorem encodeOfDecode : Obligations.EncodeOfDecode := by
  intro c i h
  cases c with
  | cmd v =>
    obtain ⟨hc, hv⟩ := decodeCmd_ok_iff.mp h
    simp [encode, hc, hv]
  | frame bs =>
    obtain ⟨hc, hbs⟩ := decodeFrame_spec h
    simp [encode, hc, hbs]

/-- Settles O4: the checksum of a frame B is over the very bytes it carries after its opcode. -/
theorem frameBRoundTrip : Obligations.FrameBRoundTrip := fun _ _ => rfl

/-- Settles O5: each example is the code of its instruction, and OP 0x00 is assigned to no op. -/
theorem specExamplesDecode : Obligations.SpecExamplesDecode := by
  have cmd {v : Word} {i : Instr} (hc : isCommand i = true) (hv : cmdword (opOf i) (lenOf i) (holdOf i) = v) :
      decodeCmd v = .ok i := decodeCmd_ok_iff.mpr ⟨hc, hv⟩
  exact ⟨cmd rfl (by decide), cmd rfl (by decide), cmd rfl (by decide), cmd rfl (by decide), cmd rfl (by decide),
    cmd rfl (by decide), cmd rfl (by decide), cmd rfl (by decide), by decide,
    decodeFrame_encodeFrame (f := .readSerialNumber) rfl, decodeFrame_encodeFrame (f := .setAscEnabled 0x0001 0xB0) rfl,
    decodeFrame_encodeFrame (f := .performFrc 0x019F 0x62) rfl⟩

end Sys2Proof
end

section
/-! The acceptance of a CMD word by an idle block: two refusals and a start (O21, O23), and the 80 words that start an op
(O3). -/

namespace Sys2Proof.Machine

/-! Which words decode. -/

/-- The assigned OP values are those of the host ops (30_encoding.md R111). -/
theorem opOf_mem_assignedOps {i : Instr} (h : isCommand i = true) : opOf i ∈ assignedOps := by
  cases i <;> first | (cases h; done) | simp [opOf, assignedOps]

theorem opAssigned_of_mem {op : Byte} (h : op ∈ assignedOps) (len : BitVec 5) (hold : Bool) :
    ∃ i, opAssigned op len hold = some i := by
  fin_cases h <;> exact ⟨_, rfl⟩

/-- A word of an assigned OP decodes, whatever its LEN and HOLD. -/
theorem decodeCmd_cmdword {op : Byte} (h : op ∈ assignedOps) (len : BitVec 5) (hold : Bool) :
    ∃ i, decodeCmd (cmdword op len hold) = .ok i ∧
      isCommand i = true ∧ opOf i = op ∧ lenOf i = len ∧ holdOf i = hold := by
  obtain ⟨i, hi⟩ := opAssigned_of_mem h len hold
  obtain ⟨hc, rfl, rfl, rfl⟩ := opAssigned_spec hi
  exact ⟨i, decodeCmd_ok_iff.mpr ⟨hc, rfl⟩, hc, rfl, rfl, rfl⟩

theorem cmdReservedZero_iff (v : Word) :
    cmdReservedZero v = true ↔ v.extractLsb' 13 3 = 0 ∧ v.extractLsb' 17 15 = 0 := by
  simp [cmdReservedZero]

/-- A word that decodes has an assigned OP and reserved bits 0 (R111, R114). -/
theorem decodeCmd_ok_fields {v : Word} {i : Instr} (h : decodeCmd v = .ok i) :
    cmdOp v ∈ assignedOps ∧ cmdReservedZero v = true := by
  obtain ⟨hc, hop, -, -, hz⟩ := decodeCmd_spec h
  exact ⟨hop ▸ opOf_mem_assignedOps hc, hz⟩

/-! What an idle block does with a word (30_encoding.md R115). -/

theorem exec_illegal {i : Instr} {s : State} (hc : isCommand i = true) (hl : ¬ operandsLegal i = true)
    (hs : s.phase = .idle) : exec i s = .next (commitIllegal (opOf i) .illegalOperand s) := by
  rw [exec_idle hc hs, accept, if_neg hl]

/-- A word that does not decode is refused with ILLEGAL_COMMAND. -/
theorem runCommandWord_illegalCommand {v : Word} (h : ∀ i, decodeCmd v ≠ .ok i) (s : State) :
    runCommandWord v s = .next (commitIllegal (cmdOp v) .illegalCommand s) := by
  unfold runCommandWord
  split
  · exact absurd ‹_› (h _)
  · rfl

/-- A word whose LEN or HOLD is illegal is refused with ILLEGAL_OPERAND. -/
theorem runCommandWord_illegalOperand {v : Word} {i : Instr} {s : State} (hd : decodeCmd v = .ok i)
    (hl : ¬ operandsLegal i = true) (hs : s.phase = .idle) :
    runCommandWord v s = .next (commitIllegal (cmdOp v) .illegalOperand s) := by
  obtain ⟨hc, hop, -⟩ := decodeCmd_spec hd
  rw [runCommandWord, hd, ← hop]
  exact exec_illegal hc hl hs

/-- Any other word starts its op. -/
theorem runCommandWord_starts {v : Word} {i : Instr} {s : State} (hd : decodeCmd v = .ok i)
    (hl : operandsLegal i = true) (hs : s.phase = .idle) :
    runCommandWord v s = .next (startOp i (linesOf i) s) := by
  rw [runCommandWord, hd]
  exact exec_legal (decodeCmd_spec hd).1 hl hs

/-- Settles O23: the operand test of acceptance is the table of R112 and R113, and where it fails the completion is
commitIllegal. -/
theorem illegalOperandIsRefused : Obligations.IllegalOperandIsRefused := by
  intro i s hc hl hs
  rw [← operandsLegal_iff hc] at hl
  exact exec_illegal hc hl hs

/-- The host's write to STATUS beside a command changes nothing the command latches. -/
theorem CommandWritten.latch_eq {s u : State} {v : Word} (h : CommandWritten s v u) (i : Instr) :
    latch i u = latch i s := by
  obtain ⟨dn, ov, env, rfl, -⟩ := h.keeps
  rfl

/-- Settles O21: the cycle of the command is `runCommandWord`, which refuses a word that does not decode, refuses one with
illegal operands, and starts the op of any other. -/
theorem commandAcceptance : Obligations.CommandAcceptance := by
  intro s v u hs hr hcw
  have hu : u.phase = .idle := hcw.phase_idle hs
  rw [hcw.step_eq hs hr]
  have decodes : v.extractLsb' 0 8 ∈ assignedOps → v.extractLsb' 13 3 = 0 → v.extractLsb' 17 15 = 0 →
      ∃ i, decodeCmd v = .ok i ∧ isCommand i = true ∧ opOf i = v.extractLsb' 0 8 ∧ lenOf i = v.extractLsb' 8 5 ∧
        holdOf i = v.getLsbD 16 := fun hop hlow hhigh => by
    have hv := cmdword_fields ((cmdReservedZero_iff v).mpr ⟨hlow, hhigh⟩)
    have hdec := decodeCmd_cmdword (op := cmdOp v) hop (cmdLen v) (cmdHold v)
    rwa [hv] at hdec
  refine ⟨fun hbad => ?_, fun hop hlow hhigh hl => ?_, fun hop hlow hhigh hl => ?_⟩
  · refine runCommandWord_illegalCommand (fun i hd => ?_) u
    obtain ⟨hop, hz⟩ := decodeCmd_ok_fields hd
    obtain ⟨hlow, hhigh⟩ := (cmdReservedZero_iff v).mp hz
    rcases hbad with h | h | h
    · exact h hop
    · exact h hlow
    · exact h hhigh
  · obtain ⟨i, hd, hc, hiop, hilen, hihold⟩ := decodes hop hlow hhigh
    rw [← hiop, ← hilen, ← hihold, ← operandsLegal_iff hc] at hl
    exact runCommandWord_illegalOperand hd hl hu
  · obtain ⟨i, hd, hc, hiop, hilen, hihold⟩ := decodes hop hlow hhigh
    rw [← hiop, ← hilen, ← hihold, ← operandsLegal_iff hc] at hl
    refine ⟨i, hd, hiop, hilen, hihold, ?_⟩
    rw [runCommandWord_starts hd hl hu, ← hcw.latch_eq i]
    rfl

/-! The legal words (30_encoding.md R116). -/

/-- The legal values of LEN (R112). -/
def legalLens (op : Byte) : List (BitVec 5) :=
  if op = 0x01 ∨ op = 0x10 ∨ op = 0x11 then (List.range 16).map fun n => BitVec.ofNat 5 (n + 1)
  else if op = 0x02 then (List.range 5).map fun n => BitVec.ofNat 5 (n + 1)
  else [0]

/-- The legal values of HOLD (R113). -/
def legalHolds (op : Byte) : List Bool := if op = 0x10 then [false, true] else [false]

/-- The fields of the legal words, op by op. -/
def legalTriples : List (Byte × BitVec 5 × Bool) :=
  assignedOps.flatMap fun op => (legalLens op ×ˢ legalHolds op).map fun p => (op, p)

/-- The word of a triple of fields. -/
def wordOfFields (p : Byte × BitVec 5 × Bool) : Word := cmdword p.1 p.2.1 p.2.2

def legalWords : List Word := legalTriples.map wordOfFields

theorem mem_map_ofNat_succ {m : Nat} (hm : m < 32) (len : BitVec 5) :
    len ∈ (List.range m).map (fun n => BitVec.ofNat 5 (n + 1)) ↔ 1 ≤ len.toNat ∧ len.toNat ≤ m := by
  simp only [List.mem_map, List.mem_range, BitVec.toNat_eq, BitVec.toNat_ofNat]
  constructor
  · rintro ⟨n, hn, h⟩
    omega
  · exact fun h => ⟨len.toNat - 1, by omega, by omega⟩

theorem mem_legalLens_and_legalHolds {op : Byte} {len : BitVec 5} {hold : Bool} :
    len ∈ legalLens op ∧ hold ∈ legalHolds op ↔ legalFields op len hold := by
  refine and_congr ?_ ?_
  · unfold legalLens
    split
    · exact mem_map_ofNat_succ (by decide) len
    · split
      · exact mem_map_ofNat_succ (by decide) len
      · simp [BitVec.toNat_eq]
  · unfold legalHolds
    by_cases h : op = 0x10
    · cases hold <;> simp [h]
    · rw [if_neg h]
      simp only [List.mem_singleton, h, imp_false, Bool.not_eq_true]

theorem mem_legalTriples {op : Byte} {len : BitVec 5} {hold : Bool} :
    (op, len, hold) ∈ legalTriples ↔ op ∈ assignedOps ∧ legalFields op len hold := by
  rw [← mem_legalLens_and_legalHolds]
  simp [legalTriples, List.mem_flatMap, and_assoc]

theorem mem_legalWords {v : Word} :
    v ∈ legalWords ↔ ∃ op len hold, v = cmdword op len hold ∧ op ∈ assignedOps ∧ legalFields op len hold := by
  simp only [legalWords, List.mem_map, Prod.exists, mem_legalTriples]
  constructor
  · rintro ⟨op, len, hold, h, rfl⟩
    exact ⟨op, len, hold, rfl, h⟩
  · rintro ⟨op, len, hold, rfl, h⟩
    exact ⟨op, len, hold, h, rfl⟩

/-- The legal words are those whose op is accepted. -/
theorem mem_legalWords_iff_decodes {v : Word} :
    v ∈ legalWords ↔ ∃ i, decodeCmd v = .ok i ∧ operandsLegal i = true := by
  rw [mem_legalWords]
  constructor
  · rintro ⟨op, len, hold, rfl, hop, hl⟩
    obtain ⟨i, hd, hc, rfl, rfl, rfl⟩ := decodeCmd_cmdword hop len hold
    exact ⟨i, hd, (operandsLegal_iff hc).mpr hl⟩
  · rintro ⟨i, hd, hl⟩
    obtain ⟨hc, rfl⟩ := decodeCmd_ok_iff.mp hd
    exact ⟨_, _, _, rfl, opOf_mem_assignedOps hc, (operandsLegal_iff hc).mp hl⟩

/-- Different fields make different words. -/
theorem wordOfFields_injective : Function.Injective wordOfFields := by
  rintro ⟨op, len, hold⟩ ⟨op', len', hold'⟩ h
  have hop := congrArg cmdOp h
  have hlen := congrArg cmdLen h
  have hhold := congrArg cmdHold h
  simp only [wordOfFields, cmdOp_cmdword, cmdLen_cmdword, cmdHold_cmdword] at hop hlen hhold
  rw [hop, hlen, hhold]

theorem legalWords_nodup : legalWords.Nodup :=
  List.Nodup.map wordOfFields_injective (by decide)

/-- The words of an op are counted by their triples. -/
theorem length_legalWords_filter (op : Byte) :
    (legalWords.filter fun v => v.extractLsb' 0 8 == op).length = (legalTriples.filter fun p => p.1 == op).length := by
  rw [legalWords, List.filter_map, List.length_map]
  congr 2
  funext p
  exact congrArg (· == op) (cmdOp_cmdword p.1 p.2.1 p.2.2)

/-- How many legal words an assigned op has. -/
theorem length_legalTriples_filter_assigned : ∀ op ∈ assignedOps, (legalTriples.filter fun p => p.1 == op).length =
    if op = 0x01 ∨ op = 0x11 then 16 else if op = 0x02 then 5 else if op = 0x10 then 32 else 1 := by decide

theorem legalTriples_filter_unassigned {op : Byte} (h : op ∉ assignedOps) :
    (legalTriples.filter fun p => p.1 == op) = [] := by
  simp only [List.filter_eq_nil_iff, beq_iff_eq, Prod.forall]
  rintro op' len hold hm rfl
  exact h (mem_legalTriples.mp hm).1

/-- R116's counts, op by op. -/
theorem legalWords_counts (op : Byte) : (legalWords.filter fun v => v.extractLsb' 0 8 == op).length =
    if op = 0x01 ∨ op = 0x11 then 16 else if op = 0x02 then 5 else if op = 0x10 then 32
    else if op ∈ assignedOps then 1 else 0 := by
  rw [length_legalWords_filter]
  by_cases h : op ∈ assignedOps
  · rw [length_legalTriples_filter_assigned op h, if_pos h]
  · have h1 : ¬ (op = 0x01 ∨ op = 0x11) := by rintro (rfl | rfl) <;> exact h (by decide)
    have h2 : op ≠ 0x02 := by rintro rfl; exact h (by decide)
    have h3 : op ≠ 0x10 := by rintro rfl; exact h (by decide)
    rw [legalTriples_filter_unassigned h, if_neg h1, if_neg h2, if_neg h3, if_neg h]
    rfl

/-- Settles O3 with `legalWords`, the words made of the legal fields. -/
theorem legalWordsAreEighty : Obligations.LegalWordsAreEighty := by
  refine ⟨legalWords, legalWords_nodup, by decide, legalWords_counts, fun v => mem_legalWords, fun v hv s hs => ?_,
    fun v hv s hs => ?_⟩
  · obtain ⟨i, hd, hl⟩ := mem_legalWords_iff_decodes.mp hv
    exact ⟨i, _, hd, runCommandWord_starts hd hl hs, rfl⟩
  · by_cases hd : ∃ i, decodeCmd v = .ok i
    · obtain ⟨i, hd⟩ := hd
      have hl : ¬ operandsLegal i = true := fun hl => hv (mem_legalWords_iff_decodes.mpr ⟨i, hd, hl⟩)
      exact ⟨_, .inr rfl, runCommandWord_illegalOperand hd hl hs⟩
    · exact ⟨_, .inl rfl, runCommandWord_illegalCommand (not_exists.mp hd) s⟩

end Sys2Proof.Machine
end

section
/-! The wire commands: what the line of a running op puts on the wire, and the stop outside one (O34, O36). -/

namespace Sys2Proof.Machine

/-- The bytes and the end that R122 to R127 give a wire command are its frame and its hold. -/
theorem wireForm_spec {f : Instr} {bytes : List Byte} {hold : Bool} (h : wireForm f bytes hold) :
    isCommand f = false ∧ bytes = encodeFrame f ∧ hold = wireHold f := by
  cases f <;> first | (cases h; done) | (obtain ⟨rfl, rfl⟩ := h; exact ⟨rfl, rfl, rfl⟩)

/-- What a transaction leaves, in the terms of the statements. -/
theorem State.afterTransaction_eq_afterBus (s : State) (evs : List BusEvent) (b : BusState) :
    s.afterTransaction evs b = s.afterBus 1 evs b := by
  simp [State.afterTransaction, State.afterBus, State.useDraw, State.emit, State.setBus, Env.useDraws]

/-- A wire command where no running op sends it is the model's own stop (log 18). -/
theorem sendWire_fault {f : Instr} {s : State}
    (h : ∀ op rest lat, s.phase ≠ .busy op (.write (encodeFrame f) (wireHold f) :: rest) lat) :
    sendWire f s = .fault .wireCommandOutsideOp := by
  unfold sendWire
  split
  · rename_i op bytes hold rest lat hs
    have hne : ¬ lineSends f bytes hold = true := by
      intro hsend
      simp only [lineSends, Bool.and_eq_true, beq_iff_eq] at hsend
      obtain ⟨rfl, rfl⟩ := hsend
      exact h op rest lat hs
    rw [if_neg hne]
  · rfl
  · rfl

/-- Settles O34: the frame is the line's, and its transaction is the line's write. -/
theorem wireCommandIsSent : Obligations.WireCommandIsSent := by
  intro f op bytes hold rest lat s hform hs hok
  obtain ⟨hf, rfl, rfl⟩ := wireForm_spec hform
  rw [exec_wire_at_line hf hs, lineWrite_ok hok, State.afterTransaction_eq_afterBus]
  rfl

/-- Settles O36: every wire command is `sendWire`. -/
theorem wireCommandNeedsItsOp : Obligations.WireCommandNeedsItsOp := by
  intro f s hf h
  rw [exec_wire hf, sendWire_fault h]

end Sys2Proof.Machine
end

section
/-! The checksum family: the residue of the CRC (O6), and CRC_COMPUTE and CRC_CHECK from acceptance to completion (O37,
O38). -/

namespace Sys2Proof.Machine

/-! The CRC unit (40_checksum.md R150 to R154). -/

/-- A nonzero accumulator never shifts to zero: the polynomial that a set top bit brings in has its own bit 0. -/
theorem crcShift_eq_zero_iff (acc : Byte) : crcShift acc = 0 ↔ acc = 0 := by
  unfold crcShift
  split
  · rename_i htop
    constructor
    · intro h
      have hbit : ((acc <<< 1) ^^^ crcPoly).getLsbD 0 = true := by simp [crcPoly]
      rw [h] at hbit
      cases hbit
    · rintro rfl
      cases htop
  · rename_i htop
    have hlow : 2 * acc.toNat < 2 ^ 8 :=
      BitVec.msb_eq_false_iff_two_mul_lt.mp (by simpa [BitVec.msb_eq_getLsbD_last] using htop)
    bv_omega

theorem crcShifts_eq_zero_iff : ∀ (n : Nat) (acc : Byte), crcShifts n acc = 0 ↔ acc = 0
  | 0, _ => Iff.rfl
  | n + 1, acc => by rw [crcShifts, crcShifts_eq_zero_iff n, crcShift_eq_zero_iff]

/-- A byte takes the accumulator to zero exactly when it is the accumulator. -/
theorem crcByte_eq_zero_iff (acc b : Byte) : crcByte acc b = 0 ↔ acc = b := by
  rw [crcByte, crcShifts_eq_zero_iff]
  exact BitVec.xor_eq_zero_iff

theorem crc8_concat (s : List Byte) (b : Byte) : crc8 (s ++ [b]) = crcByte (crc8 s) b := by
  simp only [crc8, List.foldl_concat]

/-- A byte after a sequence makes the CRC zero exactly when it is the sequence's CRC. -/
theorem crc8_concat_eq_zero_iff (s : List Byte) (b : Byte) : crc8 (s ++ [b]) = 0 ↔ crc8 s = b := by
  rw [crc8_concat, crcByte_eq_zero_iff]

/-- Settles O6: both halves are `crc8_concat_eq_zero_iff`. -/
theorem crcResidueIsZero : Obligations.CrcResidueIsZero := by
  refine ⟨fun s _ => (crc8_concat_eq_zero_iff s _).mpr rfl, fun h l c => ?_⟩
  rw [validWord, beq_iff_eq]
  exact (crc8_concat_eq_zero_iff [h, l] c).symm

/-! The words of BUF (20_memory.md R91). -/

theorem getD_bufBytes (m : Memory) {n i : Nat} (h : i < n) : (bufBytes m n).getD i 0 = m.read i := by
  simp [bufBytes, h]

/-- A word of the latched BUF is read at the bytes 3i, 3i+1 and 3i+2. -/
theorem groupValid_bufBytes (m : Memory) {n i : Nat} (h : i < n) :
    groupValid (bufBytes m (3 * n)) i = validWord (m.read (3 * i)) (m.read (3 * i + 1)) (m.read (3 * i + 2)) := by
  rw [groupValid, getD_bufBytes m (by omega), getD_bufBytes m (by omega), getD_bufBytes m (by omega)]

/-- The word that fails after good ones only is the lowest that fails (40_checksum.md R156). -/
theorem firstBadWord_eq_some {bs : List Byte} {n i : Nat} (hi : i < n) (hbad : groupValid bs i = false)
    (hgood : ∀ j < i, groupValid bs j = true) : firstBadWord bs n = some i := by
  rw [firstBadWord, List.find?_range_eq_some]
  exact ⟨by simp [hbad], by simpa using hi, fun j hj => by simp [hgood j hj]⟩

/-! The ops CRC_COMPUTE and CRC_CHECK (40_checksum.md R155, R156). -/

/-- A byte count of 1 to 16 is legal for the three ops that take one (30_encoding.md R112, R113). -/
theorem operandsLegal_of_byteCount {i : Instr} (hc : isCommand i = true)
    (hop : opOf i = 0x01 ∨ opOf i = 0x10 ∨ opOf i = 0x11) (h1 : 1 ≤ (lenOf i).toNat) (h16 : (lenOf i).toNat ≤ 16)
    (hh : holdOf i = true → opOf i = 0x10) : operandsLegal i = true := by
  refine (operandsLegal_iff hc).mpr ⟨?_, hh⟩
  rw [if_pos hop]
  exact ⟨h1, h16⟩

/-- A word count of 1 to 5 is legal for CRC_CHECK. -/
theorem operandsLegal_crcCheck {len : BitVec 5} (h1 : 1 ≤ len.toNat) (h5 : len.toNat ≤ 5) :
    operandsLegal (.crcCheck len false) = true :=
  (operandsLegal_iff rfl).mpr ⟨⟨h1, h5⟩, nofun⟩

section
variable {op : Instr} {lat : Latch} {rest : List Line} {s : State} {n : Nat} {evs : List BusEvent} {b : BusState}
  {g : Stage} {k : Nat} {rx : List Byte}

/-- CRC_CHECK's loop finds every word valid, and the op goes on. -/
theorem reaches_crcCheck_valid (hc : isCommand op = true)
    (h : firstBadWord (bufBytes lat.buf (3 * lat.len.toNat)) lat.len.toNat = none) :
    Reaches op (running op (.crcCheck :: rest) lat s n evs b g k rx) (running op rest lat s n evs b g k rx) :=
  reaches_goto hc (by simp only [runLine, lineCrcCheck, h])

/-- CRC_CHECK's loop stops at the lowest word that fails. -/
theorem reaches_crcCheck_invalid {i : Nat} (hc : isCommand op = true)
    (h : firstBadWord (bufBytes lat.buf (3 * lat.len.toNat)) lat.len.toNat = some i) :
    Reaches op (running op (.crcCheck :: rest) lat s n evs b g k rx)
      (running op [] lat s n evs b
        { g with writes := [], err := .checksumMismatch, failWord := BitVec.ofNat 3 i, tfail := 0 } k rx) :=
  reaches_raise hc (by simp only [runLine, lineCrcCheck, h])

/-- The completion of an op that made no transaction. -/
theorem reaches_commit_offBus (hc : isCommand op = true) :
    Reaches op (running op [] lat s 0 [] s.bus g 0 [])
      { s.completed lat.op g.err (failWordFor g.err g.failWord) (tfailFor g.err g.tfail)
          (warmupFor lat.op g.warmupDone) with
        res := commitResults op g s.res
        buf := commitBuf g s.buf } := by
  have h := reaches_commit (lat := lat) (s := s) (n := 0) (evs := []) (b := s.bus) (g := g) (k := 0) (rx := []) hc
  rwa [State.afterBus_zero] at h

end

/-- Settles O37: the one line stages the CRC and CRC_V, and the completion writes them. -/
theorem crcComputeResult : Obligations.CrcComputeResult := by
  intro s len hs h1 h16
  have hlegal : operandsLegal (.crcCompute len false) = true :=
    operandsLegal_of_byteCount rfl (.inl rfl) h1 h16 nofun
  exact .of_start rfl hs hlegal ((reaches_stage rfl rfl).trans (reaches_commit_offBus rfl))

/-- Settles O38: the one line finds the lowest failing word of the latched BUF, and raises it or goes on. -/
theorem crcCheckResult : Obligations.CrcCheckResult := by
  intro s len hs h1 h5
  have hlegal := operandsLegal_crcCheck h1 h5
  refine ⟨fun hgood => ?_, fun i hi hbad hgood => ?_⟩
  · refine .of_start rfl hs hlegal ((reaches_crcCheck_valid rfl ?_).trans (reaches_commit_offBus rfl))
    exact firstBadWord_none.mpr fun j hj => (groupValid_bufBytes s.buf hj).trans (hgood j hj)
  · refine .of_start rfl hs hlegal ((reaches_crcCheck_invalid rfl ?_).trans (reaches_commit_offBus rfl))
    exact firstBadWord_eq_some hi ((groupValid_bufBytes s.buf hi).trans hbad) fun j hj =>
      (groupValid_bufBytes s.buf (hj.trans hi)).trans (hgood j hj)

end Sys2Proof.Machine
end

section
/-! What each op has to run once accepted, and what FRC's loop line puts before itself (O58). -/

namespace Sys2Proof.Machine

/-- A legal command starts with its pseudocode over its latch (30_encoding.md R115). -/
theorem StartsAt.of_legal {i : Instr} {s : State} (hc : isCommand i = true) (hl : operandsLegal i = true)
    (hs : s.phase = .idle) : StartsAt i s (linesOf i (latch i s)) :=
  ⟨_, exec_legal hc hl hs, rfl⟩

/-- The two forms of the get-ASC read, each with the result line after it (43_calibration.md R231). -/
theorem ascReadSteps_append_result (check : Bool) : ascReadSteps check ++ [Line.ascResult] =
    if check then [Line.read 3, Line.checkWord, Line.ascResult] else [Line.read 2, Line.ascResult] := by
  cases check <;> rfl

/-- The frame that disables ASC, its checksum written out (43_calibration.md R232). -/
theorem frameB_disableAsc : frameB 0x2416 0x0000 = [0x24, 0x16, 0x00, 0x00, 0x81] := by decide +kernel

/-- FRC's loop line puts a measurement and its check before itself while a warm-up is due (43_calibration.md R233). -/
theorem exec_warmupLoop_due {op : Instr} {rest : List Line} {lat : Latch} {s : State} (hc : isCommand op = true)
    (hs : s.phase = .busy op (.warmupLoop :: rest) lat) (hk : s.k < warmupN) :
    exec op s = .next (s.goto op (warmupBody ++ .warmupLoop :: rest) lat) := by
  rw [exec_running hc hs, runSeq, runLine, lineWarmupLoop, if_pos hk]

theorem exec_warmupLoop_done {op : Instr} {rest : List Line} {lat : Latch} {s : State} (hc : isCommand op = true)
    (hs : s.phase = .busy op (.warmupLoop :: rest) lat) (hk : ¬ s.k < warmupN) :
    exec op s = .next (s.goto op rest lat) := by
  rw [exec_running hc hs, runSeq, runLine, lineWarmupLoop, if_neg hk]

/-- Settles O58: each op starts with `linesOf` it, and the statement writes those lines out. -/
theorem opsAreTheirPseudocode : Obligations.OpsAreTheirPseudocode := by
  refine ⟨fun s hs => ?_, fun op rest lat s hc hs => ⟨fun hk => exec_warmupLoop_due hc hs hk,
    fun hk => exec_warmupLoop_done hc hs (Nat.not_lt.mpr hk)⟩⟩
  have starts {i : Instr} (hc : isCommand i = true) (hl : operandsLegal i = true) :
      StartsAt i s (linesOf i (latch i s)) := .of_legal hc hl hs
  refine ⟨fun len h1 h16 => ⟨?crcCompute, fun hold => ?busWrite, ?busRead⟩,
    fun len h1 h5 => starts rfl (operandsLegal_crcCheck h1 h5), starts rfl rfl, starts rfl rfl, starts rfl rfl,
    starts rfl rfl, starts rfl rfl, starts rfl rfl, starts rfl rfl, ?ascGet, ?ascDisableQuery, starts rfl rfl,
    starts rfl rfl, fun i => ⟨rfl, rfl, rfl⟩⟩
  case crcCompute => exact starts rfl (operandsLegal_of_byteCount rfl (.inl rfl) h1 h16 nofun)
  case busWrite => exact starts rfl (operandsLegal_of_byteCount rfl (.inr (.inl rfl)) h1 h16 fun _ => rfl)
  case busRead => exact starts rfl (operandsLegal_of_byteCount rfl (.inr (.inr rfl)) h1 h16 nofun)
  case ascGet =>
    rw [← ascReadSteps_append_result]
    exact starts rfl rfl
  case ascDisableQuery =>
    rw [← ascReadSteps_append_result, ← frameB_disableAsc]
    exact starts rfl rfl

end Sys2Proof.Machine
end

section
/-! What the bus and its pins are left as by everything but a transaction and a reset (O33), and a Wait, which runs to its
end beside whatever the host does (O32). -/

namespace Sys2Proof.Machine

/-! What leaves the bus and its pins alone. -/

/-- t has the bus of s, and its pins have carried nothing since s. -/
def BusKept (s t : State) : Prop := t.bus = s.bus ∧ t.env.trace = s.env.trace

theorem BusKept.trans {s t u : State} (h1 : BusKept s t) (h2 : BusKept t u) : BusKept s u :=
  ⟨h2.1.trans h1.1, h2.2.trans h1.2⟩

/-- An access does nothing to the environment but record its answer. -/
theorem servePort_env (a : Option Access) (s : State) :
    ∃ rs, (servePort a s).env = { s.env with responses := rs } := by
  cases a with
  | none => exact ⟨_, rfl⟩
  | some a =>
    cases a with
    | read off size =>
      simp only [servePort, serveAccess]
      split <;> exact ⟨_, rfl⟩
    | write off size v =>
      simp only [servePort, serveAccess]
      split
      · exact ⟨_, rfl⟩
      · exact ⟨_, by rw [State.respond, writeReg_env]⟩

theorem serveEarly_env (c : Cycle) (s : State) : ∃ rs, (serveEarly c s).env = { s.env with responses := rs } := by
  obtain ⟨rs, hb⟩ := servePort_env (beforeAccess c s) s
  obtain ⟨rs', ha⟩ := servePort_env (earlyAccess c) (servePort (beforeAccess c s) s)
  refine ⟨rs', ?_⟩
  unfold serveEarly
  rcases servePair_cases (beforeAccess c s) (earlyAccess c) s with h | h <;> simp [h, ha, hb]

theorem busKept_serveEarly (c : Cycle) (s : State) : BusKept s (serveEarly c s) := by
  obtain ⟨rs, he⟩ := serveEarly_env c s
  exact ⟨serveEarly_bus c s, by rw [he]⟩

/-- Neither a completion nor a line that makes no transaction touches the bus (41_transport.md R173). -/
theorem busKept_runSeq {op : Instr} {seq : List Line} {lat : Latch} {s : State}
    (hoff : ∀ l ∈ seq.head?, l.onBus = false) : BusKept s (runSeq op seq lat s) := by
  cases seq with
  | nil => exact ⟨rfl, rfl⟩
  | cons l rest =>
    obtain ⟨hbus, henv⟩ := runLine_off_bus op lat rest s (hoff l rfl)
    exact ⟨hbus, congrArg Env.trace henv⟩

/-- A cycle with rst_n = 1 in which the sequencer is not at a transaction leaves the bus alone (41_transport.md R173). -/
theorem step_busKept {s t : State} (hop : ∀ op seq lat, s.phase = .busy op seq lat → isCommand op = true)
    (hr : s.env.cycle.rstN = true) (h : step s = .next t)
    (hoff : ∀ op l rest lat, s.phase = .busy op (l :: rest) lat → l.onBus = false) : BusKept s t := by
  rcases step_cases hop hr h with ⟨v, u, -, hcw, hcase⟩ | ⟨-, w, hw, hcase⟩
  · obtain ⟨dn, ov, env, rfl, htrace, -⟩ := hcw.keeps
    rcases hcase with ⟨e, op, rfl, -⟩ | ⟨i, -, -, -, rfl⟩ <;> exact ⟨rfl, htrace⟩
  · have hearly : BusKept s (serveEarly s.env.cycle s.takeCycle) := busKept_serveEarly _ _
    have hkept : BusKept s w := by
      rcases hcase with rfl | ⟨op, seq, lat, hs, -, rfl⟩
      · exact hearly
      · refine hearly.trans (busKept_runSeq fun l hl => ?_)
        obtain ⟨rest, rfl⟩ := List.head?_eq_some_iff.mp hl
        exact hoff op l rest lat hs
    rcases hw with rfl | ⟨r, rfl⟩ <;> exact hkept

/-- Settles O33: a cycle without a transaction serves the host, takes a command, or runs a line that is off the bus. -/
theorem onlyTransactionsChangeTheBus : Obligations.OnlyTransactionsChangeTheBus :=
  fun _ _ hi hr h hoff => step_busKept hi.isCommand hr h hoff

/-! The Wait (41_transport.md R183). -/

/-- The late access of a cycle does nothing but record an answer. -/
theorem serveLate_answered (c : Cycle) (w : State) :
    ∃ rs, serveLate c (.next w) = .next { w with env := { w.env with responses := rs } } := by
  rcases servePort_late c w with h | ⟨r, h⟩ <;> exact ⟨_, congrArg Host.Outcome.next h⟩

/-- A cycle whose line is not stalled runs it between the host's accesses, and records their answers. -/
theorem step_runs {s : State} {op : Instr} {seq : List Line} {lat : Latch} (hc : isCommand op = true)
    (hs : s.phase = .busy op seq lat) (hr : s.env.cycle.rstN = true)
    (hgo : s.env.cycle.stall = false ∨ s.inWait = true) :
    ∃ rs, step s = .next { runSeq op seq lat (serveEarly s.env.cycle s.takeCycle) with
      env := { (runSeq op seq lat (serveEarly s.env.cycle s.takeCycle)).env with responses := rs } } := by
  have hphase : (serveEarly s.env.cycle s.takeCycle).phase = s.phase := serveEarly_phase _ _
  rw [step_busy hs hr, runSequencer_runs hc (hphase.trans hs) (by rwa [State.inWait_congr hphase])]
  exact serveLate_answered _ _

section
variable {op : Instr} {d : Delay} {rest : List Line} {lat : Latch}

/-- One cycle of a running Wait, its two cases in one: the counter goes down, and at 0 the lines after it are next. -/
theorem lineWaiting_eq (s : State) : lineWaiting d op lat rest s =
    { s with waitCtr := s.waitCtr - 1 }.goto op (if s.waitCtr ≤ 1 then rest else .waiting d :: rest) lat := by
  by_cases h : s.waitCtr ≤ 1
  · rw [lineWaiting_last h, if_pos h, Nat.sub_eq_zero_of_le h]
  · rw [lineWaiting_more h, if_neg h]

/-- A block cycle of a running Wait counts, whatever the host does in it, and though it is stalled. -/
theorem step_waiting {s : State} (hc : isCommand op = true) (hs : s.phase = .busy op (.waiting d :: rest) lat)
    (hr : s.env.cycle.rstN = true) :
    ∃ u, step s = .next u ∧ u.phase = .busy op (if s.waitCtr ≤ 1 then rest else .waiting d :: rest) lat ∧
      u.waitCtr = s.waitCtr - 1 ∧ u.env.inputs = s.env.inputs.tail ∧ BusKept s u := by
  obtain ⟨rs, henv⟩ := serveEarly_env s.env.cycle s.takeCycle
  obtain ⟨rs', hstep⟩ := step_runs hc hs hr (.inr (by simp only [State.inWait, hs]))
  rw [runSeq, runLine, lineWaiting_eq] at hstep
  refine ⟨_, hstep, by simp, by simp, by simp [henv], ?kept⟩
  case kept =>
    refine step_busKept (fun _ _ _ h => ?_) hr hstep fun _ _ _ _ h => ?_ <;> rw [hs] at h <;> cases h
    · exact hc
    · rfl

/-- No reset comes in a cycle if none is among the inputs; past their end a cycle is quiet (log 1). -/
theorem Env.cycle_rstN_of_inputs {e : Env} {n : Nat} (h : ∀ c ∈ e.inputs.take (n + 1), c.rstN = true) :
    e.cycle.rstN = true := by
  unfold Env.cycle
  split
  · exact h _ (by simp [*])
  · rfl

/-- A Wait whose counter is n + 1 runs for n more cycles and is over after the next, if no reset comes. -/
theorem waiting_runsToItsEnd (hc : isCommand op = true) : ∀ (n : Nat) {s : State},
    s.phase = .busy op (.waiting d :: rest) lat → s.waitCtr = n + 1 →
    (∀ c ∈ s.env.inputs.take (n + 1), c.rstN = true) →
    (∀ m ≤ n, ∃ u, stepTimes m s = .next u ∧ u.phase = .busy op (.waiting d :: rest) lat ∧
      u.waitCtr = n + 1 - m ∧ BusKept s u) ∧
    ∃ t, stepTimes (n + 1) s = .next t ∧ t.phase = .busy op rest lat ∧ BusKept s t := by
  intro n
  induction n with
  | zero =>
    intro s hs hw hin
    obtain ⟨u, hu, hphase, -, -, hkept⟩ := step_waiting hc hs (Env.cycle_rstN_of_inputs hin)
    refine ⟨fun m hm => ?_, u, by simp only [stepTimes, hu], by simpa [hw] using hphase, hkept⟩
    obtain rfl : m = 0 := by omega
    exact ⟨s, rfl, hs, hw, rfl, rfl⟩
  | succ n ih =>
    intro s hs hw hin
    obtain ⟨u, hu, hphase, hctr, htail, hkept⟩ := step_waiting hc hs (Env.cycle_rstN_of_inputs hin)
    rw [if_neg (by omega)] at hphase
    obtain ⟨hall, t, ht, hend, htkept⟩ := ih hphase (by omega) fun c hm =>
      hin c (List.mem_of_mem_tail (by rw [List.tail_take_eq_take_tail, ← htail]; exact hm))
    refine ⟨fun m hm => ?_, t, by simpa only [stepTimes, hu] using ht, hend, hkept.trans htkept⟩
    cases m with
    | zero => exact ⟨s, rfl, hs, hw, rfl, rfl⟩
    | succ m =>
      obtain ⟨w, hruns, hwphase, hwctr, hwkept⟩ := hall m (by omega)
      exact ⟨w, by simpa only [stepTimes, hu] using hruns, hwphase, by omega, hkept.trans hwkept⟩

end

/-- Settles O32: a Wait begins with `lineWait`, and a running one counts in every cycle. -/
theorem waitRunsToItsEnd : Obligations.WaitRunsToItsEnd := by
  intro op d rest lat s hc
  refine ⟨fun hs => ?_, fun n hs hw hin => waiting_runsToItsEnd hc n hs hw hin⟩
  rw [exec_running hc hs]
  rfl

end Sys2Proof.Machine
end

section
/-! A failed transaction: what its line leaves, and its op ended (O35, O51). -/

namespace Sys2Proof.Machine

/-- What ends a failed transaction is one event: both lines let go where the master cannot drive a STOP or drives no bus
(41_transport.md R176; log 29). -/
theorem cleanupEvents_eq (b : BusState) (f : FailKind) (d : Draw) : cleanupEvents b f d =
    [if f = .bus ∨ d.sclLow = true ∨ (b = .free ∧ d.busIdle = false) then .release else .stop] := by
  cases f with
  | bus => rfl
  | nack | timeout =>
    simp only [cleanupEvents, reduceCtorEq, false_or]
    exact (apply_ite (fun e => [e]) _ _ _).symm

/-- s after a transaction of its op that failed with f, once evs were on the pins: the bus free, every staged result
discarded, and nothing left to run but the failed completion (41_transport.md R176; 60_exceptions.md R303). -/
def State.transportFailed (s : State) (op : Instr) (lat : Latch) (f : FailKind) (evs : List BusEvent) : State :=
  { s.afterBus 1 (openEvents s.bus s.env.draw ++ (evs ++ cleanupEvents s.bus f s.env.draw)) .free with
    phase := .busy op [] lat
    stage := { s.stage with writes := [], err := .transportFailure, failWord := 0, tfail := tfailCode f } }

section
variable {op : Instr} {lat : Latch} {rest : List Line} {s : State} {f : FailKind}

theorem lineWrite_transportFailed {bytes : List Byte} {hold : Bool} (h : drawFailure s.bus s.env.draw = some f) :
    lineWrite bytes hold op lat rest s =
      s.transportFailed op lat f (failedWriteEvents s.bus (addrByte lat.addr false :: bytes) f s.env.draw) := by
  rw [lineWrite_failed h, State.afterTransaction_eq_afterBus]
  rfl

/-- A failed read keeps no bytes either. -/
theorem lineRead_transportFailed {n : Nat} (h : drawFailure s.bus s.env.draw = some f) :
    lineRead n op lat rest s =
      { s.transportFailed op lat f (failedReadEvents s.bus lat.addr n f s.env.draw) with rx := [] } := by
  rw [lineRead_failed h, State.afterTransaction_eq_afterBus]
  rfl

end

/-- The byte that a NACK of a write falls on is the address byte, or one of the bytes after it (41_transport.md R171). -/
theorem failedWriteEvents_nack_last {b : BusState} {x : Byte} {bytes : List Byte} {d : Draw}
    (h : drawFailure b d = some .nack) : ∃ m ≤ bytes.length,
      failedWriteEvents b (x :: bytes) .nack d =
        ackedBytes ((x :: bytes).take m) ++ [.sent ((x :: bytes).getD m 0) false] := by
  obtain ⟨m, hm, hevs⟩ := failedWriteEvents_nack h
  exact ⟨m, Nat.le_of_lt_succ hm, hevs⟩

/-- Settles O35: the frame is the line's, and its transaction is the line's write, which fails. -/
theorem wireCommandFails : Obligations.WireCommandFails := by
  intro f op bytes hold rest lat s k hform hs hfail
  obtain ⟨hf, rfl, rfl⟩ := wireForm_spec hform
  refine ⟨?_, ?_⟩
  · rw [exec_wire_at_line hf hs, lineWrite_transportFailed hfail, State.transportFailed, cleanupEvents_eq]
  · rintro rfl
    exact failedWriteEvents_nack_last hfail

/-- The warm-up count of a completion is FRC's (10_state.md R41). -/
theorem warmupFor_eq (op : Byte) (n : Nat) : warmupFor op n = if op = 0x43 then BitVec.ofNat 8 n else 0 := by
  simp [warmupFor]

/-- The failed completion writes no result and no byte of BUF, and the op's VALID bits fall (60_exceptions.md R303). -/
theorem commit_transportFailed (s : State) (op : Instr) (lat : Latch) (f : FailKind) (evs : List BusEvent)
    (rx : List Byte) : commit op lat { s.transportFailed op lat f evs with rx := rx } =
      { (s.transportFailed op lat f evs).completed lat.op .transportFailure 0 (tfailCode f)
          (if lat.op = 0x43 then BitVec.ofNat 8 s.stage.warmupDone else 0) with
        res := { s.res with valid := clearOnFailure op s.res.valid } } := by
  rw [← warmupFor_eq]
  rfl

/-- A line whose transaction fails is followed by the failed completion, and by nothing else (log 11). -/
theorem execTimes_two_of_transportFailed {op : Instr} {l : Line} {rest : List Line} {lat : Latch} {s : State}
    {f : FailKind} {evs : List BusEvent} {rx : List Byte} (hc : isCommand op = true)
    (hs : s.phase = .busy op (l :: rest) lat)
    (hl : runLine l op lat rest s = { s.transportFailed op lat f evs with rx := rx }) :
    execTimes 2 op s = .next (commit op lat { s.transportFailed op lat f evs with rx := rx }) := by
  rw [execTimes_succ (exec_running hc hs), runSeq, hl, execTimes_succ (exec_running hc rfl)]
  rfl

/-- Settles O51: the failing line leaves the op its failed completion. -/
theorem transportFailureEndsTheOp : Obligations.TransportFailureEndsTheOp := by
  intro op l rest lat s f hc hs hbus hfail
  cases l with
  | write bytes hold =>
    refine ⟨failedWriteEvents s.bus (addrByte lat.addr false :: bytes) f s.env.draw, ?_, ?_, nofun⟩
    · rw [execTimes_two_of_transportFailed hc hs (lineWrite_transportFailed hfail), commit_transportFailed,
        State.transportFailed, cleanupEvents_eq]
      cases f <;> rfl
    · rintro _ _ ⟨⟩
      refine ⟨rfl, ?_⟩
      rintro rfl
      exact failedWriteEvents_nack_last hfail
  | read n =>
    refine ⟨failedReadEvents s.bus lat.addr n f s.env.draw, ?_, nofun, ?_⟩
    · rw [execTimes_two_of_transportFailed hc hs (lineRead_transportFailed hfail), commit_transportFailed,
        State.transportFailed, cleanupEvents_eq]
      cases f <;> rfl
    · rintro _ ⟨⟩
      refine ⟨rfl, ?_⟩
      rintro rfl
      exact failedReadEvents_nack hfail
  | _ => cases hbus

end Sys2Proof.Machine
end

section
/-! The transport family, BUS_WRITE and BUS_READ, from acceptance to completion (O40, O41). -/

namespace Sys2Proof.Machine

section
variable {op : Instr} {rest : List Line} {lat : Latch} {s : State} {n : Nat} {evs : List BusEvent} {b : BusState}
  {g : Stage} {k : Nat} {rx : List Byte}

/-- BUS_READ's line stages a BUF write for each byte read (41_transport.md R182). -/
theorem reaches_storeRx (hc : isCommand op = true) :
    Reaches op (running op (.storeRx :: rest) lat s n evs b g k rx)
      (running op rest lat s n evs b { g with writes := g.writes ++ bufWritesFrom 0 rx } k rx) :=
  reaches_stage hc rfl

/-- `complete()`: the staged writes are done, and STATUS says SUCCESS (60_exceptions.md R304). -/
theorem reaches_complete {r : ResultRegs} {m : Memory} (hc : isCommand op = true) (hg : g.err = .success)
    (hres : g.writes.foldl ResultRegs.apply s.res = r) (hbuf : g.writes.foldl bufApply s.buf = m) :
    Reaches op (running op [] lat s n evs b g k rx)
      { (s.afterBus n evs b).completed lat.op .success 0 0 (warmupFor lat.op g.warmupDone) with
        res := r, buf := m } := by
  have h := reaches_commit (op := op) (lat := lat) (s := s) (n := n) (evs := evs) (b := b) (g := g) (k := k)
    (rx := rx) hc
  rwa [commitResults, commitBuf, if_pos hg, if_pos hg, hres, hbuf, hg] at h

end

/-- Settles O40: the one line is the transaction, and the completion writes no result. -/
theorem busWriteResult : Obligations.BusWriteResult := by
  intro s len hold hs h1 h16 hok
  have hlegal : operandsLegal (.busWrite len hold) = true :=
    operandsLegal_of_byteCount rfl (.inr (.inl rfl)) h1 h16 fun _ => rfl
  exact .of_start rfl hs hlegal ((reaches_write rfl hok).trans (reaches_commit rfl))

/-- Settles O41: the transaction's bytes are staged one by one, and the completion stores them. -/
theorem busReadResult : Obligations.BusReadResult := by
  intro s len hs h1 h16 hbuf hok
  have hlegal : operandsLegal (.busRead len false) = true :=
    operandsLegal_of_byteCount rfl (.inr (.inr rfl)) h1 h16 nofun
  have hlen : 0 + (readBytes len.toNat (s.env.drawAt 0)).length ≤ 16 := by simpa using h16
  have hread (j : Nat) := foldl_bufWrites_read (readBytes len.toNat (s.env.drawAt 0)) 0 j s.buf hbuf hlen
  refine ⟨(bufWritesFrom 0 (readBytes len.toNat (s.env.drawAt 0))).foldl bufApply s.buf, ?_, fun j hj => ?_,
    fun j hj => ?_, foldl_bufWrites_wf _ 0 s.buf hbuf hlen⟩
  · exact .of_start rfl hs hlegal (((reaches_read rfl hok).trans (reaches_storeRx rfl)).trans
      (reaches_complete rfl rfl (foldl_bufWrites_res _ 0 s.res) rfl))
  · rw [hread, if_pos (by simpa using hj), Nat.sub_zero]
  · rw [hread, if_neg (by simpa using hj)]

end Sys2Proof.Machine
end

section
/-! The unit converter's functions as numbers (O7, O8, O9), and the converter family, CONV_T, CONV_RHF and CONV_RHP, from
acceptance to completion (O39). -/

namespace Sys2Proof.Machine

/-! What the three functions compute (42_measurement.md R206 to R208): the narrowing to a word loses nothing. -/

theorem toInt_convT (raw : Half) : (convT raw).toInt = 175 * (raw.toNat : Int) - 2949120 := by
  have hraw := raw.isLt
  rw [convT, BitVec.toInt_ofInt, Int.bmod_eq_of_le] <;> omega

theorem toNat_convRHP (raw : Half) : (convRHP raw).toNat = 100 * raw.toNat := by
  have hraw := raw.isLt
  rw [convRHP, BitVec.toNat_ofNat, Nat.mod_eq_of_lt (by omega)]

theorem convT_eq_ofInt_emod (raw : Half) :
    convT raw = BitVec.ofInt 32 ((175 * (raw.toNat : Int) - 2949120) % 2 ^ 32) := by
  apply BitVec.eq_of_toInt_eq
  rw [convT, BitVec.toInt_ofInt, BitVec.toInt_ofInt]
  exact (Int.emod_bmod _ _).symm

/-- A word below 2^23 has its bits 31:23 clear. -/
theorem extractLsb'_high_eq_zero {w : Word} (h : w.toNat < 2 ^ 23) : w.extractLsb' 23 9 = 0 := by
  apply BitVec.eq_of_toNat_eq
  rw [BitVec.extractLsb'_toNat, Nat.shiftRight_eq_div_pow, Nat.div_eq_of_lt h]
  rfl

/-- Settles O7: convT is its expression, as `toInt_convT` says, over the range of a raw word. -/
theorem convTIsExact : Obligations.ConvTIsExact := by
  intro raw
  have hraw := raw.isLt
  have hT := toInt_convT raw
  refine ⟨convT_eq_ofInt_emod raw, ?_, by omega, by omega, by omega, by omega⟩
  rw [hT]
  push_cast
  ring

/-- Settles O8: both functions are their expressions, over the range of a raw word. -/
theorem humidityIsExact : Obligations.HumidityIsExact := by
  intro raw
  have hraw := raw.isLt
  have hP := toNat_convRHP raw
  refine ⟨rfl, ?_, hP, ?_, by omega, extractLsb'_high_eq_zero (by omega)⟩
  · rw [div_lt_one (by norm_num)]
    exact_mod_cast hraw
  · rw [hP, convRHF]
    push_cast
    ring

/-- Settles O9: each function is linear in raw with a positive factor, and none wraps. -/
theorem conversionsIncrease : Obligations.ConversionsIncrease := by
  intro a b hab
  refine ⟨?_, hab, ?_⟩
  · rw [toInt_convT, toInt_convT]
    omega
  · rw [toNat_convRHP, toNat_convRHP]
    omega

/-- No warm-up is counted at the completion of an op that made none (10_state.md R41). -/
theorem warmupFor_zero (op : Byte) : warmupFor op 0 = 0 := by
  simp [warmupFor]

/-- An op whose one line stages the conversion v completes with v in CONV_OUT and CONV_V set. -/
theorem runsTo_of_stageConv {i : Instr} {l : Line} {v : Word} {s : State} (hc : isCommand i = true)
    (hs : s.phase = .idle) (hlegal : operandsLegal i = true) (hlines : linesOf i (latch i s) = [l])
    (hline : ∀ u, runLine l i (latch i s) [] u = stageConv v i (latch i s) [] u) :
    RunsTo i s { s.completed (opOf i) .success 0 0 0 with
      res := { s.res with convOut := v, valid := { s.res.valid with conv := true } } } := by
  refine .of_start hc hs hlegal ?_
  rw [hlines, ← warmupFor_zero (opOf i)]
  exact (reaches_stage hc (hline _)).trans (reaches_commit_offBus hc)

/-- Settles O39: each op's one line stages its conversion of the latched WDATA. -/
theorem converterResults : Obligations.ConverterResults := by
  intro s hs
  refine ⟨runsTo_of_stageConv rfl hs rfl rfl fun _ => rfl, ?_, runsTo_of_stageConv rfl hs rfl rfl fun _ => rfl⟩
  rw [BitVec.ofNat_toNat]
  exact runsTo_of_stageConv rfl hs rfl rfl fun _ => rfl

end Sys2Proof.Machine
end

section
/-! The measurement family, TRIGGER_SS, READ_MEAS and MEASURE, from acceptance to completion (O42 to O44). -/

namespace Sys2Proof.Machine

section
variable {op : Instr} {rest : List Line} {lat : Latch} {s : State} {n : Nat} {evs : List BusEvent} {b : BusState}
  {g : Stage} {k : Nat} {rx : List Byte}

/-- TriggerSteps() (42_measurement.md R200), its transaction Ok. -/
theorem reaches_triggerSteps (hc : isCommand op = true) (hd : drawOk b (s.env.drawAt n)) :
    Reaches op (running op (triggerSteps ++ rest) lat s n evs b g k rx)
      (running op rest lat s (n + 1) (evs ++ writeEvents b (s.env.drawAt n) lat.addr (frameA 0x219d) false) .free
        g k rx) :=
  (reaches_write hc hd).trans (reaches_wait hc)

/-- A command sent with hold, a Wait on the held bus, and the read of its m-byte response, both transactions Ok. -/
theorem reaches_query {c : Half} {d : Delay} {m : Nat} (hc : isCommand op = true) (hw : drawOk b (s.env.drawAt n))
    (hr : drawOk .held (s.env.drawAt (n + 1))) :
    Reaches op (running op (.write (frameA c) true :: .wait d :: .read m :: rest) lat s n evs b g k rx)
      (running op rest lat s (n + 2) (evs ++ queryEvents b s.env n lat.addr c m) .free g k
        (readBytes m (s.env.drawAt (n + 1)))) := by
  rw [queryEvents, ← List.append_assoc]
  exact ((reaches_write hc hw).trans (reaches_wait hc)).trans (reaches_read hc hr)

/-- A triplet whose words are all valid is staged whole (42_measurement.md R203, R204). -/
theorem reaches_triplet_valid (hc : isCommand op = true) (h : firstBadWord rx 3 = none) :
    Reaches op (running op (.triplet :: rest) lat s n evs b g k rx)
      (running op rest lat s n evs b
        { g with writes := g.writes ++ commitTriplet (groupWord rx 0) (groupWord rx 1) (groupWord rx 2) } k rx) :=
  reaches_stage hc (by simp only [runLine, lineTriplet, running_rx, h])

/-- A triplet with a bad word raises the lowest one (42_measurement.md R201, R203). -/
theorem reaches_triplet_invalid {i : Nat} (hc : isCommand op = true) (h : firstBadWord rx 3 = some i) :
    Reaches op (running op (.triplet :: rest) lat s n evs b g k rx)
      (running op [] lat s n evs b
        { g with writes := [], err := .checksumMismatch, failWord := BitVec.ofNat 3 i, tfail := 0 } k rx) :=
  reaches_raise hc (by simp only [runLine, lineTriplet, running_rx, h])

/-- ReadMeasSteps() and a valid triplet lead to its whole commit (42_measurement.md R201, R204). -/
theorem reaches_readMeas_valid (hc : isCommand op = true) (hw : drawOk b (s.env.drawAt n))
    (hr : drawOk .held (s.env.drawAt (n + 1)))
    (hgood : ∀ i < 3, groupValid (readBytes 9 (s.env.drawAt (n + 1))) i = true) :
    Reaches op (running op (readMeasSteps ++ [.triplet]) lat s n evs b .empty 0 [])
      { (s.afterBus (n + 2) (evs ++ queryEvents b s.env n lat.addr 0xec05 9) .free).completed
          lat.op .success 0 0 0 with
        res := withTriplet s.res (readBytes 9 (s.env.drawAt (n + 1))) } := by
  rw [← warmupFor_zero lat.op]
  exact ((reaches_query hc hw hr).trans (reaches_triplet_valid hc (firstBadWord_none.mpr hgood))).trans
    (reaches_complete hc rfl rfl rfl)

/-- ReadMeasSteps() and a bad triplet lead to a completion that names the lowest bad word, with the op's VALID bits
cleared and every measurement register as it was (42_measurement.md R201, R205). -/
theorem reaches_readMeas_invalid {i : Nat} (hc : isCommand op = true) (hw : drawOk b (s.env.drawAt n))
    (hr : drawOk .held (s.env.drawAt (n + 1))) (hi : i < 3)
    (hbad : firstBad (readBytes 9 (s.env.drawAt (n + 1))) i) :
    Reaches op (running op (readMeasSteps ++ [.triplet]) lat s n evs b .empty 0 [])
      { (s.afterBus (n + 2) (evs ++ queryEvents b s.env n lat.addr 0xec05 9) .free).completed
          lat.op .checksumMismatch (BitVec.ofNat 3 i) 0 0 with
        res := { s.res with valid := clearOnFailure op s.res.valid } } := by
  obtain ⟨hfails, hvalid⟩ := hbad
  rw [← warmupFor_zero lat.op]
  exact ((reaches_query hc hw hr).trans (reaches_triplet_invalid hc (firstBadWord_eq_some hi hfails hvalid))).trans
    (reaches_commit hc)

end

/-- Settles O42: the trigger's transaction and its Wait, then a completion with nothing staged. -/
theorem triggerSsResult : Obligations.TriggerSsResult := by
  intro s hs hok
  exact .of_start rfl hs rfl ((reaches_triggerSteps (rest := []) rfl hok).trans (reaches_commit rfl))

/-- Settles O43: the query, and the check of its triplet in both outcomes. -/
theorem readMeasResult : Obligations.ReadMeasResult := by
  intro s hs hw hr
  refine ⟨fun hgood => ?_, fun i hi hbad => ?_⟩
  · exact .of_start rfl hs rfl (reaches_readMeas_valid rfl hw hr hgood)
  · exact .of_start rfl hs rfl (reaches_readMeas_invalid rfl hw hr hi hbad)

/-- Settles O44: TriggerSteps() leaves the bus free for what READ_MEAS does. -/
theorem measureResult : Obligations.MeasureResult := by
  intro s hs hok
  obtain ⟨ht, hw, hr⟩ := hok
  refine ⟨fun hgood => ?_, fun i hi hbad => ?_⟩
  · exact .of_start rfl hs rfl ((reaches_triggerSteps rfl ht).trans (reaches_readMeas_valid rfl hw hr hgood))
  · exact .of_start rfl hs rfl ((reaches_triggerSteps rfl ht).trans (reaches_readMeas_invalid rfl hw hr hi hbad))

end Sys2Proof.Machine
end

section
/-! The offset of a forced recalibration as a number (O10), and the calibration family, ASC_SET, ASC_GET,
ASC_DISABLE_QUERY and FRC, from acceptance to completion (O45 to O47, O49, O50). -/

namespace Sys2Proof.Machine

/-! The offset (43_calibration.md R235). -/

/-- The offset as the integer it stands for: a 16-bit signed value holds it without a wrap, whatever the answer word. -/
theorem toInt_offset16 (w : Half) : (offset16 w).toInt = (w.toNat : Int) - 32768 := by
  have hw := w.isLt
  rw [offset16, BitVec.toInt_eq_toNat_cond, BitVec.toNat_sub, show frcBias.toNat = 0x8000 from rfl]
  split <;> omega

theorem offset16_eq_ofInt_emod (w : Half) : offset16 w = BitVec.ofInt 16 (((w.toNat : Int) - 0x8000) % 2 ^ 16) := by
  apply BitVec.eq_of_toInt_eq
  have hw := w.isLt
  have hword : ((w.toNat : Int) - 0x8000).bmod (2 ^ 16) = w.toNat - 0x8000 := by
    rw [Int.bmod_eq_of_le] <;> omega
  rw [toInt_offset16, BitVec.toInt_ofInt]
  exact ((Int.emod_bmod _ _).trans hword).symm

/-- The offset as FRC_OFFSET holds it. -/
theorem signExtend_offset16 (w : Half) :
    (offset16 w).signExtend 32 = BitVec.ofInt 32 ((w.toNat : Int) - 32768) := by
  rw [BitVec.signExtend, toInt_offset16]

/-- Settles O10: `toInt_offset16`, and the source's example is one of its values. -/
theorem offsetIsExact : Obligations.OffsetIsExact :=
  ⟨fun w _ => ⟨offset16_eq_ofInt_emod w, toInt_offset16 w⟩, toInt_offset16 0x8032⟩

section
variable {op : Instr} {rest : List Line} {lat : Latch} {s : State} {n : Nat} {evs : List BusEvent} {b : BusState}
  {g : Stage} {k : Nat} {rx : List Byte}

/-- `complete()` of an op that made no warm-up and no BUF write. -/
theorem reaches_complete_results {r : ResultRegs} (hc : isCommand op = true) (hg : g.err = .success)
    (hwarm : g.warmupDone = 0) (hres : g.writes.foldl ResultRegs.apply s.res = r)
    (hbuf : g.writes.foldl bufApply s.buf = s.buf) :
    Reaches op (running op [] lat s n evs b g k rx)
      { (s.afterBus n evs b).completed lat.op .success 0 0 0 with res := r } := by
  have h := reaches_complete (op := op) (lat := lat) (n := n) (evs := evs) (b := b) (k := k) (rx := rx) hc hg hres hbuf
  rwa [hwarm, warmupFor_zero] at h

/-! The check of a one-word response (R231, R233). -/

theorem reaches_checkWord_valid (hc : isCommand op = true) (h : groupValid rx 0 = true) :
    Reaches op (running op (.checkWord :: rest) lat s n evs b g k rx) (running op rest lat s n evs b g k rx) :=
  reaches_goto hc (by rw [runLine, lineCheckWord, running_rx, if_pos h])

theorem reaches_checkWord_invalid (hc : isCommand op = true) (h : groupValid rx 0 = false) :
    Reaches op (running op (.checkWord :: rest) lat s n evs b g k rx)
      (running op [] lat s n evs b { g with writes := [], err := .checksumMismatch, failWord := 0, tfail := 0 } k rx) :=
  reaches_raise hc (by rw [runLine, lineCheckWord, running_rx, if_neg (by simp [h])])

/-! AscGetSteps() (R231), which ASC_GET and ASC_DISABLE_QUERY end with. -/

/-- The query of the ASC state, with its response read but not checked yet. -/
theorem reaches_ascQuery {m : Nat} (hc : isCommand op = true) (hm : m = if lat.ascCheck then 3 else 2)
    (hw : drawOk b (s.env.drawAt n)) (hr : drawOk .held (s.env.drawAt (n + 1))) :
    Reaches op (running op (ascGetSteps lat ++ rest) lat s n evs b g k rx)
      (running op (if lat.ascCheck then .checkWord :: rest else rest) lat s (n + 2)
        (evs ++ queryEvents b s.env n lat.addr 0x2313 m) .free g k (readBytes m (s.env.drawAt (n + 1)))) := by
  subst hm
  rw [ascGetSteps]
  cases lat.ascCheck <;> exact reaches_query hc hw hr

/-- The result line and the completion after it. -/
theorem reaches_ascResult (hc : isCommand op = true) :
    Reaches op (running op [.ascResult] lat s n evs b .empty k rx)
      { (s.afterBus n evs b).completed lat.op .success 0 0 0 with
        res := { s.res with ascState := rx.getD 1 0, valid := { s.res.valid with asc := true } } } :=
  (reaches_stage hc rfl).trans (reaches_complete_results hc rfl rfl rfl rfl)

/-- A response that is unchecked or valid leads to the result and its completion. -/
theorem reaches_ascGet_valid {m : Nat} (hc : isCommand op = true) (hm : m = if lat.ascCheck then 3 else 2)
    (hw : drawOk b (s.env.drawAt n)) (hr : drawOk .held (s.env.drawAt (n + 1)))
    (hgood : lat.ascCheck = true → groupValid (readBytes m (s.env.drawAt (n + 1))) 0 = true) :
    Reaches op (running op (ascGetSteps lat ++ [.ascResult]) lat s n evs b .empty 0 [])
      { (s.afterBus (n + 2) (evs ++ queryEvents b s.env n lat.addr 0x2313 m) .free).completed
          lat.op .success 0 0 0 with
        res := { s.res with
          ascState := (readBytes m (s.env.drawAt (n + 1))).getD 1 0
          valid := { s.res.valid with asc := true } } } := by
  refine ((reaches_ascQuery hc hm hw hr).trans ?check).trans (reaches_ascResult (k := 0) hc)
  case check =>
    cases hcheck : lat.ascCheck with
    | false => exact .refl _ _
    | true => exact reaches_checkWord_valid hc (hgood hcheck)

/-- A checked response that is bad leads to a failed completion, with ASC_STATE as it was. -/
theorem reaches_ascGet_invalid {m : Nat} (hc : isCommand op = true) (hm : m = if lat.ascCheck then 3 else 2)
    (hw : drawOk b (s.env.drawAt n)) (hr : drawOk .held (s.env.drawAt (n + 1))) (hcheck : lat.ascCheck = true)
    (hbad : groupValid (readBytes m (s.env.drawAt (n + 1))) 0 = false) :
    Reaches op (running op (ascGetSteps lat ++ [.ascResult]) lat s n evs b .empty 0 [])
      { (s.afterBus (n + 2) (evs ++ queryEvents b s.env n lat.addr 0x2313 m) .free).completed
          lat.op .checksumMismatch 0 0 0 with
        res := { s.res with valid := clearOnFailure op s.res.valid } } := by
  rw [← warmupFor_zero lat.op]
  refine (reaches_ascQuery hc hm hw hr).trans ?_
  rw [if_pos hcheck]
  exact (reaches_checkWord_invalid hc hbad).trans (reaches_commit hc)

/-- The frame that disables ASC, its checksum written out, and its Wait (R232). -/
theorem reaches_ascDisable (hc : isCommand op = true) (hok : drawOk b (s.env.drawAt n)) :
    Reaches op (running op (.write (frameB 0x2416 0x0000) false :: .wait .cmd :: rest) lat s n evs b g k rx)
      (running op rest lat s (n + 1)
        (evs ++ writeEvents b (s.env.drawAt n) lat.addr [0x24, 0x16, 0x00, 0x00, 0x81] false) .free g k rx) := by
  rw [← frameB_disableAsc]
  exact (reaches_write hc hok).trans (reaches_wait hc)

/-! FRC's warm-up (R233, R234). -/

/-- The stage after k valid warm-up reads: only their count. -/
def Stage.warmedUp (k : Nat) : Stage := { Stage.empty with warmupDone := k }

/-- A warm-up that is due makes one whole measurement, which is then to be checked (42_measurement.md R202). -/
theorem reaches_warmupRead (hc : isCommand op = true) (hk : k < warmupN) (hok : measureOk b s.env n) :
    Reaches op (running op (.warmupLoop :: rest) lat s n evs b g k rx)
      (running op (.warmupCheck :: .warmupLoop :: rest) lat s (n + 3) (evs ++ measureEvents b s.env n lat.addr) .free
        g k (readBytes 9 (s.env.drawAt (n + 2)))) := by
  obtain ⟨ht, hw, hr⟩ := hok
  rw [measureEvents, ← List.append_assoc]
  exact (Reaches.of_exec (exec_warmupLoop_due hc rfl hk)).trans
    ((reaches_triggerSteps hc ht).trans (reaches_query hc hw hr))

theorem reaches_warmupCheck_valid (hc : isCommand op = true) (h : ∀ i < 3, groupValid rx i = true) :
    Reaches op (running op (.warmupCheck :: rest) lat s n evs b g k rx)
      (running op rest lat s n evs b { g with warmupDone := k + 1 } (k + 1) rx) := by
  apply reaches_line hc
  rw [runLine, lineWarmupCheck, running_rx, firstBadWord_none.mpr h]
  rfl

theorem reaches_warmupCheck_invalid {i : Nat} (hc : isCommand op = true) (hi : i < 3) (h : firstBad rx i) :
    Reaches op (running op (.warmupCheck :: rest) lat s n evs b g k rx)
      (running op [] lat s n evs b ⟨[], .calibrationPreconditionFailed, BitVec.ofNat 3 i, 0, k⟩ k rx) := by
  obtain ⟨hfails, hvalid⟩ := h
  apply reaches_line hc
  rw [runLine, lineWarmupCheck, running_rx, firstBadWord_eq_some hi hfails hvalid]
  rfl

/-- The first m warm-up measurements of an op started at s are Ok, and their words are valid. -/
def warmupsOk (s : State) (m : Nat) : Prop :=
  ∀ j < m, measureOk (busAfterMeasures s.bus j) s.env (3 * j) ∧
    ∀ i < 3, groupValid (readBytes 9 (s.env.drawAt (3 * j + 2))) i = true

/-- m valid warm-up reads come back to the loop line, and have left only their count. -/
theorem reaches_warmups (hc : isCommand op = true) : ∀ {m : Nat}, m ≤ warmupN → warmupsOk s m →
    ∃ rx, Reaches op (running op (.warmupLoop :: rest) lat s 0 [] s.bus .empty 0 [])
      (running op (.warmupLoop :: rest) lat s (3 * m) (warmupEvents s.bus s.env lat.addr m) (busAfterMeasures s.bus m)
        (.warmedUp m) m rx) := by
  intro m
  induction m with
  | zero => exact fun _ _ => ⟨[], .refl _ _⟩
  | succ m ih =>
    intro hm hok
    obtain ⟨rx, hpast⟩ := ih (by omega) fun j hj => hok j (by omega)
    obtain ⟨hbus, hgood⟩ := hok m (by omega)
    exact ⟨_, hpast.trans ((reaches_warmupRead hc hm hbus).trans (reaches_warmupCheck_valid hc hgood))⟩

/-- All the warm-ups done, the PERFORM_FRC frame is sent once and its answer read, but not checked yet. -/
theorem reaches_frcAnswer (hc : isCommand op = true) (hok : warmupsOk s warmupN)
    (hw : drawOk .free (s.env.drawAt 108)) (hr : drawOk .free (s.env.drawAt 109)) :
    Reaches op (running op (frcLines lat) lat s 0 [] s.bus .empty 0 [])
      (running op [.checkWord, .frcResult] lat s 110 (warmupEvents s.bus s.env lat.addr warmupN ++
        (writeEvents .free (s.env.drawAt 108) lat.addr (frameB 0x362f lat.ppm) false ++
          readEvents .free (s.env.drawAt 109) lat.addr 3)) .free (.warmedUp warmupN) warmupN
        (readBytes 3 (s.env.drawAt 109))) := by
  obtain ⟨rx, hpast⟩ := reaches_warmups (rest := frcTail lat) (lat := lat) hc le_rfl hok
  rw [← List.append_assoc]
  exact (hpast.trans (.of_exec (exec_warmupLoop_done hc rfl (lt_irrefl _)))).trans
    (((reaches_write hc hw).trans (reaches_wait hc)).trans (reaches_read hc hr))

/-! FRC's last line: the sentinel, then the offset (R233, R235). -/

theorem reaches_frcResult_sentinel (hc : isCommand op = true) (h : groupWord rx 0 = frcSentinel) :
    Reaches op (running op (.frcResult :: rest) lat s n evs b g k rx)
      (running op [] lat s n evs b { g with writes := [], err := .deviceReportedFailure, failWord := 0, tfail := 0 }
        k rx) :=
  reaches_raise hc (by rw [runLine, lineFrcResult, running_rx, if_pos h])

theorem reaches_frcResult_offset (hc : isCommand op = true) (h : groupWord rx 0 ≠ frcSentinel) :
    Reaches op (running op (.frcResult :: rest) lat s n evs b g k rx)
      (running op rest lat s n evs b { g with writes := g.writes ++
        [.frcOffset (BitVec.ofInt 32 ((groupWord rx 0).toNat - 32768)), .valid .frc true] } k rx) :=
  reaches_stage hc (by rw [runLine, lineFrcResult, running_rx, if_neg h, signExtend_offset16])

end

/-- Settles O45: the frame's transaction and its Wait, and the one staged write, which clears ASC_V. -/
theorem ascSetResult : Obligations.AscSetResult := by
  intro s hs hok
  exact .of_start rfl hs rfl ((((reaches_write rfl hok).trans (reaches_wait rfl)).trans (reaches_stage rfl rfl)).trans
    (reaches_complete_results rfl rfl rfl rfl rfl))

/-- Settles O46: ASC_GET is AscGetSteps() and the result line. -/
theorem ascGetResult : Obligations.AscGetResult := by
  intro s n hs hn hw hr
  refine ⟨fun hgood => ?_, fun hcheck hbad => ?_⟩
  · exact .of_start rfl hs rfl (reaches_ascGet_valid rfl hn hw hr hgood)
  · exact .of_start rfl hs rfl (reaches_ascGet_invalid rfl hn hw hr hcheck hbad)

/-- Settles O47: the disabling frame leaves the bus free for what ASC_GET does. -/
theorem ascDisableQueryResult : Obligations.AscDisableQueryResult := by
  intro s n hs hn hok hw hr
  refine ⟨fun hgood => ?_, fun hcheck hbad => ?_⟩
  · exact .of_start rfl hs rfl ((reaches_ascDisable rfl hok).trans (reaches_ascGet_valid rfl hn hw hr hgood))
  · exact .of_start rfl hs rfl ((reaches_ascDisable rfl hok).trans (reaches_ascGet_invalid rfl hn hw hr hcheck hbad))

/-- Settles O49: after the warm-ups and the answer, the checksum is tested first and the sentinel second. -/
theorem frcAnswerResult : Obligations.FrcAnswerResult := by
  intro s u rx hs hok hw hr hrx hu
  rw [hrx, hu]
  have answer := reaches_frcAnswer (op := .frc 0 false) (lat := latch (.frc 0 false) s) rfl hok hw hr
  refine ⟨fun hbad => ?_, fun hgood hsentinel => ?_, fun hgood hword => ?_⟩
  · exact .of_start rfl hs rfl (answer.trans ((reaches_checkWord_invalid rfl hbad).trans (reaches_commit rfl)))
  · exact .of_start rfl hs rfl (answer.trans ((reaches_checkWord_valid rfl hgood).trans
      ((reaches_frcResult_sentinel rfl hsentinel).trans (reaches_commit rfl))))
  · exact .of_start rfl hs rfl (answer.trans ((reaches_checkWord_valid rfl hgood).trans
      ((reaches_frcResult_offset rfl hword).trans (reaches_complete rfl rfl rfl rfl))))

/-- Settles O50: k valid warm-ups, and one more whose check raises. -/
theorem frcWarmupFailure : Obligations.FrcWarmupFailure := by
  intro s k i hs hk hi hok hread hbad
  obtain ⟨rx, hpast⟩ := reaches_warmups (op := .frc 0 false) (lat := latch (.frc 0 false) s)
    (rest := frcTail (latch (.frc 0 false) s)) rfl hk.le hok
  exact .of_start rfl hs rfl (hpast.trans ((reaches_warmupRead rfl hk hread).trans
    ((reaches_warmupCheck_invalid rfl hi hbad).trans (reaches_commit rfl))))

end Sys2Proof.Machine
end

section
/-! The identity family, READ_SERIAL, from acceptance to completion (O48). -/

namespace Sys2Proof.Machine

section
variable {op : Instr} {rest : List Line} {lat : Latch} {s : State} {n : Nat} {evs : List BusEvent} {b : BusState}
  {g : Stage} {k : Nat} {rx : List Byte}

/-- Three valid words are staged as the serial, word 0 most significant (44_serial.md R260, R261). -/
theorem reaches_serial_valid (hc : isCommand op = true) (h : ∀ i < 3, groupValid rx i = true) :
    Reaches op (running op (.serial :: rest) lat s n evs b g k rx)
      (running op rest lat s n evs b
        { g with writes := g.writes ++ serialWrites (groupWord rx 0) (groupWord rx 1) (groupWord rx 2) } k rx) :=
  reaches_stage hc (by simp only [runLine, lineSerial, running_rx, firstBadWord_none.mpr h])

/-- A bad word of the answer raises the lowest one, and nothing is staged (44_serial.md R260, R262). -/
theorem reaches_serial_invalid {i : Nat} (hc : isCommand op = true) (hi : i < 3) (h : firstBad rx i) :
    Reaches op (running op (.serial :: rest) lat s n evs b g k rx)
      (running op [] lat s n evs b
        { g with writes := [], err := .checksumMismatch, failWord := BitVec.ofNat 3 i, tfail := 0 } k rx) := by
  obtain ⟨hfails, hvalid⟩ := h
  exact reaches_raise hc (by simp only [runLine, lineSerial, running_rx, firstBadWord_eq_some hi hfails hvalid])

end

/-- Settles O48: the query, and the check of its three words in both outcomes. -/
theorem readSerialResult : Obligations.ReadSerialResult := by
  intro s hs hw hr
  refine ⟨fun hgood => ?_, fun i hi hbad => ?_⟩
  · exact .of_start rfl hs rfl ((reaches_query rfl hw hr).trans ((reaches_serial_valid rfl hgood).trans
      (reaches_complete_results rfl rfl rfl rfl rfl)))
  · exact .of_start rfl hs rfl ((reaches_query rfl hw hr).trans ((reaches_serial_invalid rfl hi hbad).trans
      (reaches_commit rfl)))

end Sys2Proof.Machine
end

section
/-! The completion of a running op: what it writes (O52), with which code (O55), and what it leaves the bus as (O56). -/

namespace Sys2Proof.Machine

/-! What a completion writes to STATUS and VALID, by code and by op. -/

theorem failWordFor_eq (e : ErrCode) (w : BitVec 3) : failWordFor e w =
    if e = .checksumMismatch ∨ e = .calibrationPreconditionFailed then w else 0 := by
  cases e <;> rfl

theorem tfailFor_eq (e : ErrCode) (t : BitVec 2) : tfailFor e t = if e = .transportFailure then t else 0 := by
  cases e <;> rfl

/-- A VALID bit falls with a failed op that owns it (10_state.md R50; 60_exceptions.md R303). -/
theorem clearOnFailure_eq (op : Instr) (v : Valid) : clearOnFailure op v = { v with
    meas := v.meas && !(opOf op == 0x21 || opOf op == 0x22)
    asc := v.asc && !(opOf op == 0x40 || opOf op == 0x41 || opOf op == 0x42)
    frc := v.frc && !(opOf op == 0x43)
    ser := v.ser && !(opOf op == 0x50) } := by
  cases op <;> simp [clearOnFailure, Valid.set, opOf]

/-- A completion is the end of its op with the staged code, and the results and BUF that go with it (R303, R304). -/
theorem commit_eq_completed (op : Instr) (lat : Latch) (s : State) : commit op lat s =
    { s.completed lat.op s.stage.err (failWordFor s.stage.err s.stage.failWord) (tfailFor s.stage.err s.stage.tfail)
        (if lat.op = 0x43 then BitVec.ofNat 8 s.stage.warmupDone else 0) with
      res := commitResults op s.stage s.res
      buf := commitBuf s.stage s.buf } := by
  rw [← warmupFor_eq]
  rfl

/-- Settles O52: the last step of an op is its commit, with the staged writes on success only. -/
theorem completionCommitsAtOnce : Obligations.CompletionCommitsAtOnce := by
  intro op lat s hc hs
  rw [exec_running hc hs, runSeq, commit_eq_completed, commitResults, commitBuf]
  refine ⟨fun hfail => ?_, fun hok => ?_⟩
  · rw [if_neg hfail, if_neg hfail, failWordFor_eq, tfailFor_eq, clearOnFailure_eq]
    rfl
  · rw [if_pos hok, if_pos hok, hok]
    rfl

/-- Settles O55: the completion shows the staged code, which the invariant keeps within the op's row of R302. -/
theorem completionCodesOfEachOp : Obligations.CompletionCodesOfEachOp := by
  intro s t op seq lat hi hr h hs ht
  obtain ⟨op', lat', hp, -, -, hstatus⟩ := (commitIsAtomic s t hi hr h).2 (State.busy_of_phase hs) ht
  rw [hs] at hp
  cases hp
  rw [hstatus]
  exact ⟨(hi.runInv hs).code, rfl⟩

/-! The bus, of an op that uses it and of one that does not. -/

/-- Only an op that uses the bus can end with TRANSPORT_FAILURE (30_encoding.md R111; 60_exceptions.md R302). -/
theorem usesBus_of_transportFailure_mem {op : Instr} {check : Bool} (h : .transportFailure ∈ codesOf op check) :
    usesBus op = true := by
  cases op with
  | crcCompute | crcCheck | convT | convRhf | convRhp => simp [codesOf] at h
  | busWrite | busRead | triggerSs | readMeas | measure | ascSet | ascGet | ascDisableQuery | frc | readSerial => rfl
  | readSerialNumber | setAscEnabled | getAscEnabled | measureSingleShot | readMeasurement | performFrc => cases h

/-- A transaction stands only in the pseudocode of an op that uses the bus. -/
theorem RunInv.usesBus_of_onBus {op : Instr} {l : Line} {rest : List Line} {lat : Latch} {s : State}
    (h : RunInv op (l :: rest) lat s) (hl : l.onBus = true) : usesBus op = true := by
  have hf := h.lineFits
  cases l with
  | write | read => exact usesBus_of_transportFailure_mem hf.1
  | _ => cases hl

/-- Settles O56: a completion leaves the bus as the op's last transaction did, and an op without transactions never
changes it. -/
theorem busAtCompletion : Obligations.BusAtCompletion := by
  intro s t op seq lat hi hr h hs
  have hrun := hi.runInv hs
  refine ⟨fun hu ht => ?_, fun hu => ?_⟩
  · obtain ⟨op', lat', e, hp, rfl⟩ := step_completes hi hr h (State.busy_of_phase hs) ht
    rw [hs] at hp
    cases hp
    simp only [commit_bus, serveEarly_bus, State.takeCycle_bus]
    rcases hrun.busDone hu rfl with hfree | ⟨hop, hhold, hok⟩
    · exact .inl hfree
    · cases hb : s.bus with
      | free => exact .inl rfl
      | owned => exact absurd hb hi.busNotOwned
      | held => exact .inr ⟨hop, hhold, by simpa [commitStatus] using hok, rfl⟩
  · refine (step_busKept hi.isCommand hr h fun op' l rest lat' hp => ?_).1
    rw [hs] at hp
    cases hp
    exact Bool.eq_false_iff.mpr fun hl => by simp [hrun.usesBus_of_onBus hl] at hu

end Sys2Proof.Machine
end

section
/-! A cycle with rst_n = 0 (O31): the block's state, the environment's own, and what the pins carry of a transaction that
the reset cuts short. -/

namespace Sys2Proof.Machine

/-! What a reset reads of the state: the line at `seq`, the bus and the draw, but no input. -/

theorem resetEvents_takeCycle (cut : Option Nat) (s : State) : resetEvents cut s.takeCycle = resetEvents cut s := rfl

theorem resetDraw_takeCycle (cut : Option Nat) (s : State) :
    resetDraw cut s.takeCycle = { resetDraw cut s with inputs := s.env.inputs.tail } := by
  have hcut : cutTransaction cut s.takeCycle = cutTransaction cut s := rfl
  simp only [resetDraw, hcut, State.takeCycle_env, Env.useDraw]
  cases cutTransaction cut s with
  | none => rfl
  | some evs => cases s.env.answers <;> rfl

theorem resetDraw_responses (cut : Option Nat) (s : State) : (resetDraw cut s).responses = s.env.responses := by
  unfold resetDraw
  split
  · exact Env.useDraw_responses s.env
  · rfl

/-- The reset cycle, its two cases in one: an access in it is answered with a bus error (R340, 92_eei_decisions.md D42). -/
theorem step_reset_eq {s : State} (h : s.env.cycle.rstN = false) :
    step s = .next { State.reset with env := { resetDraw s.env.cycle.cut s with
      inputs := s.env.inputs.tail
      trace := s.env.trace ++ resetEvents s.env.cycle.cut s
      responses := s.env.responses ++ (if s.env.cycle.access = none then [] else [.busError]) } } := by
  rw [step_reset h, resetCycle, resetDraw_takeCycle, resetEvents_takeCycle]
  cases s.env.cycle.access <;> simp [State.respond, resetDraw_responses]

/-! Only a whole transaction ends with a STOP. -/

theorem stop_notMem_openEvents (b : BusState) (d : Draw) : .stop ∉ openEvents b d := by
  cases b with
  | free => cases h : d.busIdle <;> simp [openEvents, h]
  | owned | held => simp [openEvents]

theorem stop_notMem_ackedBytes (s : List Byte) : .stop ∉ ackedBytes s := by simp [ackedBytes]

theorem stop_notMem_receivedBytes : ∀ s : List Byte, .stop ∉ receivedBytes s
  | [] => by simp [receivedBytes]
  | [b] => by simp [receivedBytes]
  | b :: c :: s => by simp [receivedBytes, stop_notMem_receivedBytes (c :: s)]

theorem stop_notMem_writeCarries (b : BusState) (s : List Byte) (d : Draw) : .stop ∉ writeCarries b s d := by
  unfold writeCarries
  split
  · exact stop_notMem_ackedBytes s
  · unfold failedWriteEvents
    split_ifs
    · simp
    · split
      · exact List.not_mem_append (stop_notMem_ackedBytes _) fun h => by obtain ⟨_, _, ⟨⟩⟩ := List.mem_map.mp h
      all_goals exact stop_notMem_ackedBytes _

theorem stop_notMem_readCarries (b : BusState) (a : BitVec 7) (n : Nat) (d : Draw) : .stop ∉ readCarries b a n d := by
  have hbytes := stop_notMem_receivedBytes (readBytes n d)
  unfold readCarries
  split
  · simp [hbytes]
  · unfold failedReadEvents
    split_ifs
    · simp
    · have hpart (m : Nat) : .stop ∉ partialReadEvents a n m d := by
        cases m with
        | zero => simp [partialReadEvents]
        | succ m => simpa [partialReadEvents] using fun h => hbytes (List.mem_of_mem_take h)
      split
      · simp
      all_goals exact hpart _

theorem stop_notMem_cutEvents {b : BusState} {lat : Latch} {l : Line} {m : Nat} {d : Draw} {evs : List BusEvent}
    (h : cutEvents b lat l m d = some evs) : .stop ∉ evs := by
  cases l with
  | write bytes hold =>
    cases h
    exact List.not_mem_append (stop_notMem_openEvents b d) fun h => stop_notMem_writeCarries _ _ _ (List.mem_of_mem_take h)
  | read n =>
    cases h
    exact List.not_mem_append (stop_notMem_openEvents b d) fun h => stop_notMem_readCarries _ _ _ _ (List.mem_of_mem_take h)
  | _ => cases h

theorem stop_notMem_cutTransaction (cut : Option Nat) (s : State) : .stop ∉ (cutTransaction cut s).getD [] := by
  cases h : cutTransaction cut s with
  | none => simp
  | some evs =>
    unfold cutTransaction at h
    split at h
    · exact stop_notMem_cutEvents h
    all_goals cases h

theorem stop_notMem_resetEvents (cut : Option Nat) (s : State) : .stop ∉ resetEvents cut s := by
  refine List.not_mem_append (stop_notMem_cutTransaction cut s) ?_
  unfold releaseEvents
  split_ifs <;> simp

/-! The pins with no transaction cut short, and with one. -/

theorem cutTransaction_none {cut : Option Nat} {s : State}
    (h : ∀ op l rest lat, s.phase = .busy op (l :: rest) lat → l.onBus = true → cut = none) :
    cutTransaction cut s = none := by
  unfold cutTransaction
  split
  · rename_i op l rest lat m hs
    cases l with
    | write | read => cases h op _ rest lat hs rfl
    | _ => rfl
  all_goals rfl

/-- On a Free bus that never went idle the block has put nothing, and has nothing to let go (41_transport.md R174). -/
theorem releaseEvents_of_begun {b : BusState} {d : Draw} {carried : List BusEvent} (m : Nat)
    (h : b = .free ∧ d.busIdle = false → carried = []) : releaseEvents b (openEvents b d ++ carried.take m) =
      if b = .free ∧ d.busIdle = false then [] else [.release] := by
  by_cases hidle : b = .free ∧ d.busIdle = false
  · simp [releaseEvents, h hidle, hidle, openEvents]
  · rw [if_neg hidle, releaseEvents, if_neg]
    rintro ⟨rfl, hnil⟩
    have hstart : d.busIdle = true := by simpa using hidle
    simp [openEvents, hstart] at hnil

theorem writeCarries_never_idle {b : BusState} {d : Draw} (s : List Byte) (h : b = .free ∧ d.busIdle = false) :
    writeCarries b s d = [] := by
  simp [writeCarries, drawFailure, failedWriteEvents, h]

theorem readCarries_never_idle {b : BusState} {d : Draw} (a : BitVec 7) (n : Nat) (h : b = .free ∧ d.busIdle = false) :
    readCarries b a n d = [] := by
  simp [readCarries, drawFailure, failedReadEvents, h]

/-- A transaction cut short has used its draw, and the pins carry it as far as it had come and are let go (R342). -/
theorem reset_of_cutTransaction {cut : Option Nat} {s : State} {carried : List BusEvent} {m : Nat}
    (h : cutTransaction cut s = some (openEvents s.bus s.env.draw ++ carried.take m))
    (hidle : s.bus = .free ∧ s.env.draw.busIdle = false → carried = []) :
    resetDraw cut s = s.env.useDraw ∧
      resetEvents cut s = openEvents s.bus s.env.draw ++ carried.take m ++
        if s.bus = .free ∧ s.env.draw.busIdle = false then [] else [.release] := by
  simp only [resetDraw, resetEvents, h, Option.getD_some, releaseEvents_of_begun m hidle, true_and]

/-- Settles O31: the state is that of reset but for the environment, and the pins carry what `cutTransaction` gives and the
release, none of it a STOP. -/
theorem resetOverridesEverything : Obligations.ResetOverridesEverything := by
  intro s hr
  refine ⟨step_reset_eq hr, stop_notMem_resetEvents _ s, fun hbus => ?released, fun h => ?uncut,
    fun op l rest lat m hs hcut => ⟨?write, ?read⟩⟩
  case released => simp [resetEvents, releaseEvents, hbus]
  case uncut => simp [resetDraw, resetEvents, releaseEvents, cutTransaction_none h]
  case write =>
    rintro bytes hold rfl
    exact reset_of_cutTransaction (by simp [cutTransaction, hs, hcut, cutEvents]) (writeCarries_never_idle _)
  case read =>
    rintro n rfl
    exact reset_of_cutTransaction (by simp [cutTransaction, hs, hcut, cutEvents]) (readCarries_never_idle _ _)

end Sys2Proof.Machine
end

section
/-! What the Waits cost (O59): an op owes the cycles of its Waits that are still to run, and a step pays at most one. -/

namespace Sys2Proof.Machine

/-- The ms of the Waits that lines to run have not begun, with k warm-ups counted: a due warm-up is a Wait for the sensor
and a Wait for its answer (43_calibration.md R233, R234). -/
def msLeft (lat : Latch) : Nat → List Line → Nat
  | _, [] => 0
  | k, .wait d :: rest => (delayMs lat d).toNat + msLeft lat k rest
  | k, .warmupCheck :: rest => msLeft lat (k + 1) rest
  | k, .warmupLoop :: rest => (warmupN - k) * (lat.tSsMs.toNat + lat.tCmdMs.toNat) + msLeft lat (max k warmupN) rest
  | k, _ :: rest => msLeft lat k rest

/-- The block cycles that the Waits of seq still take at least: what wait_ctr holds for a running one, and the others'. -/
def cyclesLeft (lat : Latch) (s : State) (seq : List Line) : Nat :=
  match seq with
  | .waiting _ :: rest => s.waitCtr + msLeft lat s.k rest * Config.cyclesPerMs
  | seq => msLeft lat s.k seq * Config.cyclesPerMs

/-- No Wait runs at seq, or the one that does only adds to what the others need. -/
theorem msLeft_le_cyclesLeft (lat : Latch) (s : State) (seq : List Line) :
    msLeft lat s.k seq * Config.cyclesPerMs ≤ cyclesLeft lat s seq := by
  unfold cyclesLeft
  split
  · exact Nat.le_add_left _ _
  · exact le_rfl

/-- The lines of an op hold the Waits of its row, FRC's 36 warm-ups among them (R354). -/
theorem msLeft_linesOf {i : Instr} (hc : isCommand i = true) (s : State) :
    msLeft (latch i s) 0 (linesOf i (latch i s)) = waitsMs i s.oper := by
  cases i with
  | ascGet len hold | ascDisableQuery len hold =>
    cases h : s.ctrl.ascCheck <;> simp [linesOf, ascGetLines, ascDisableQueryLines, ascGetSteps, ascReadSteps, msLeft,
      delayMs, latch, waitsMs, h, two_mul]
  | readSerialNumber | setAscEnabled | getAscEnabled | measureSingleShot | readMeasurement | performFrc => cases hc
  | _ => rfl

/-- A due warm-up puts its Waits before the loop line, which is one warm-up less when they are over. -/
theorem msLeft_warmupBody {k : Nat} (hk : k < warmupN) (lat : Latch) (rest : List Line) :
    msLeft lat k (warmupBody ++ .warmupLoop :: rest) = msLeft lat k (.warmupLoop :: rest) := by
  have hdue : warmupN - k = warmupN - (k + 1) + 1 := by omega
  have hmax : max (k + 1) warmupN = max k warmupN := by omega
  simp only [warmupBody, triggerSteps, readMeasSteps, List.cons_append, List.nil_append, msLeft, delayMs, hmax, hdue]
  rw [Nat.succ_mul]
  omega

/-- A step of the lines seq leads to t: to an error, or one cycle at most nearer to the end of the Waits. -/
def PaysAtMostOne (op : Instr) (seq : List Line) (lat : Latch) (s t : State) : Prop :=
  t.stage.err ≠ .success ∨ t.stage.err = s.stage.err ∧
    ∃ seq', t.phase = .busy op seq' lat ∧ cyclesLeft lat s seq ≤ cyclesLeft lat t seq' + 1

/-- A line pays at most one if the lines after it need all the cycles it leaves but one. -/
theorem PaysAtMostOne.goes {op : Instr} {seq rest : List Line} {lat : Latch} {s t : State}
    (herr : t.stage.err = s.stage.err) (hphase : t.phase = .busy op rest lat)
    (h : cyclesLeft lat s seq ≤ msLeft lat t.k rest * Config.cyclesPerMs + 1) : PaysAtMostOne op seq lat s t :=
  .inr ⟨herr, rest, hphase, h.trans (Nat.succ_le_succ (msLeft_le_cyclesLeft lat t rest))⟩

/-- A Wait's first step pays nothing, a running one's pays one, and no other line pays. -/
theorem runLine_paysAtMostOne (l : Line) (op : Instr) (lat : Latch) (rest : List Line) (s : State) :
    PaysAtMostOne op (l :: rest) lat s (runLine l op lat rest s) := by
  cases l with
  | write bytes hold =>
    simp only [runLine]
    cases hd : drawFailure s.bus s.env.draw with
    | none => rw [lineWrite_ok hd]; exact .goes rfl rfl (Nat.le_succ _)
    | some f => rw [lineWrite_failed hd]; exact .inl nofun
  | read n =>
    simp only [runLine]
    cases hd : drawFailure s.bus s.env.draw with
    | none => rw [lineRead_ok hd]; exact .goes rfl rfl (Nat.le_succ _)
    | some f => rw [lineRead_failed hd]; exact .inl nofun
  | wait d =>
    simp only [runLine]
    by_cases h0 : delayMs lat d = 0
    · rw [lineWait_zero h0]
      exact .goes rfl rfl (by simp [cyclesLeft, msLeft, h0])
    · rw [lineWait_pos h0]
      exact .inr ⟨rfl, _, rfl, Nat.le_succ_of_le (Nat.add_mul _ _ _).le⟩
  | waiting d =>
    simp only [runLine]
    by_cases h1 : s.waitCtr ≤ 1
    · rw [lineWaiting_last h1]
      exact .goes rfl rfl (by simp only [cyclesLeft, State.goto_k]; omega)
    · rw [lineWaiting_more h1]
      exact .inr ⟨rfl, _, rfl, by simp only [cyclesLeft, State.goto_k, State.goto_waitCtr]; omega⟩
  | warmupLoop =>
    simp only [runLine, lineWarmupLoop]
    split_ifs with hk
    · exact .goes rfl rfl (by simp only [cyclesLeft, State.goto_k, msLeft_warmupBody hk, Nat.le_succ])
    · have hover : warmupN ≤ s.k := Nat.le_of_not_lt hk
      exact .goes rfl rfl (by simp [cyclesLeft, msLeft, hover, Nat.sub_eq_zero_of_le])
  | crcCheck | triplet | checkWord | warmupCheck | serial =>
    simp only [runLine, lineCrcCheck, lineTriplet, lineCheckWord, lineWarmupCheck, lineSerial]
    split
    · exact .goes rfl rfl (Nat.le_succ _)
    · exact .inl nofun
  | frcResult =>
    simp only [runLine, lineFrcResult]
    split_ifs
    · exact .inl nofun
    · exact .goes rfl rfl (Nat.le_succ _)
  | _ => exact .goes rfl rfl (Nat.le_succ _)

/-- The block cycles a success of i is still away at least: those of all its Waits, or, for an op running without an error,
of the ones that are left. Never more than all, so that an op that fails, and has to start again, owes no less than it
did. -/
def cyclesOwed (i : Instr) (s : State) : Nat :=
  let all := waitsMs i s.oper * Config.cyclesPerMs
  match s.phase with
  | .idle => all
  | .busy _ seq lat => if s.stage.err = .success then min all (cyclesLeft lat s seq) else all

theorem cyclesOwed_le (i : Instr) (s : State) : cyclesOwed i s ≤ waitsMs i s.oper * Config.cyclesPerMs := by
  unfold cyclesOwed
  split
  · exact le_rfl
  · split_ifs
    · exact Nat.min_le_left _ _
    · exact le_rfl

theorem cyclesOwed_runLine {s : State} {op : Instr} {l : Line} {rest : List Line} {lat : Latch} (i : Instr)
    (hs : s.phase = .busy op (l :: rest) lat) : cyclesOwed i s ≤ cyclesOwed i (runLine l op lat rest s) + 1 := by
  obtain ⟨-, -, hoper, -, -, seq', hphase'⟩ := runLine_keeps l op lat rest s
  rcases runLine_paysAtMostOne l op lat rest s with herr | ⟨herr, seq, hphase, hcycles⟩
  · have hall : cyclesOwed i (runLine l op lat rest s) = waitsMs i s.oper * Config.cyclesPerMs := by
      simp [cyclesOwed, hphase', herr, hoper]
    exact hall ▸ Nat.le_succ_of_le (cyclesOwed_le i s)
  · simp only [cyclesOwed, hs, hphase, herr, hoper]
    split_ifs <;> omega

/-- A step of i pays at most one of the cycles it owes, and one that ends in success owed none. -/
theorem exec_pays_one {i : Instr} {s t : State} (hc : isCommand i = true) (hl : operandsLegal i = true)
    (h : exec i s = .next t) : cyclesOwed i s ≤ cyclesOwed i t + 1 ∧
      (t.phase = .idle → t.status.err = .success → cyclesOwed i s = 0) := by
  rcases hs : s.phase with _ | ⟨op, seq, lat⟩
  · rw [exec_legal hc hl hs] at h
    cases h
    refine ⟨?_, nofun⟩
    have hcycles := msLeft_le_cyclesLeft (latch i s) (startOp i (linesOf i) s) (linesOf i (latch i s))
    rw [startOp_k, msLeft_linesOf hc] at hcycles
    simp only [cyclesOwed, hs, startOp_phase, startOp_stage, startOp_oper, Stage.empty, if_true]
    omega
  by_cases hop : op = i
  · subst hop
    rw [exec_running hc hs] at h
    cases h
    cases seq with
    | cons l rest =>
      obtain ⟨-, -, -, -, -, seq', hphase⟩ := runLine_keeps l op lat rest s
      exact ⟨cyclesOwed_runLine op hs, fun hidle => by simp [runSeq, hphase] at hidle⟩
    | nil =>
      refine ⟨Nat.le_succ_of_le (cyclesOwed_le op s), fun _ hok => ?_⟩
      have herr : s.stage.err = .success := hok
      simp [cyclesOwed, hs, herr, cyclesLeft, msLeft]
  · rw [exec_locked hc hs hop] at h
    cases h
    exact ⟨Nat.le_succ _, fun hidle => by simp [hs] at hidle⟩

/-- Steps that end in success are more than the cycles that were owed. -/
theorem cyclesOwed_lt_of_success {i : Instr} (hc : isCommand i = true) (hl : operandsLegal i = true) :
    ∀ {n : Nat} {s t : State}, execTimes (n + 1) i s = .next t → t.phase = .idle → t.status.err = .success →
      cyclesOwed i s < n + 1 := by
  intro n
  induction n with
  | zero =>
    intro s t h hidle hok
    obtain ⟨u, hu⟩ := exec_command_next hc s
    rw [execTimes_succ hu] at h
    cases h
    exact Nat.lt_succ_of_le ((exec_pays_one hc hl hu).2 hidle hok).le
  | succ n ih =>
    intro s t h hidle hok
    obtain ⟨u, hu⟩ := exec_command_next hc s
    rw [execTimes_succ hu] at h
    have := (exec_pays_one hc hl hu).1
    have := ih h hidle hok
    omega

/-- Settles O59: an idle block owes the op's Waits whole, before and between its attempts. -/
theorem opsTakeAtLeastTheirWaits : Obligations.OpsTakeAtLeastTheirWaits := by
  intro i s t n hc hl hs hn h hidle hok
  obtain ⟨n, rfl⟩ := Nat.exists_eq_add_one_of_ne_zero hn.ne'
  have hlt := cyclesOwed_lt_of_success hc hl h hidle hok
  simpa only [cyclesOwed, hs] using hlt

end Sys2Proof.Machine
end
